-- ==== Sys2Proof/Word.lean ====
section
/-! DEFINITION. The plain data every other file is written over: bytes, register words, colours, exact fractions. -/

namespace Sys2Proof

/-- The only atomic unit of the system memory (R41, R52). -/
abbrev Byte := BitVec 8

/-- A register of the register file (R21). -/
abbrev Word := BitVec 32

/-- A Color: four unsigned 8-bit channels (R13). Equality is equality of the four channels (R14). -/
structure Color where
  a : Byte
  r : Byte
  g : Byte
  b : Byte
  deriving DecidableEq, Repr

/-- An exact rational written as a fraction (R7); `den` is positive wherever the model builds one. -/
structure Ratio where
  num : Int
  den : Nat
  deriving DecidableEq, Repr

/-- A fraction in `[0, 1]`: `num / den` with `num ≤ den` (the weight `f = r/d` of R78, a clamped value of R81 and R88). -/
structure Weight where
  num : Nat
  den : Nat
  deriving DecidableEq, Repr

/-- A run of byte addresses: `base`, `base + 1`, …, `base + len - 1`. -/
structure Range where
  base : Nat
  len  : Nat
  deriving DecidableEq, Repr

end Sys2Proof
end

