-- ==== Sys2Proof/Config.lean ====
section
/-! DEFINITION. The named parameters of R5: the ones with a fixed value as constants, the OPEN ones as the fields of
`Config`, and the one free value the model draws (U4, U13). -/

namespace Sys2Proof

/-- `N`, the number of entries of a lookup table (R5, R19). -/
def tableSize : Nat := 1024

/-- `GAMMA_EXP`, the exponent of the infrared generator (R5, R85). -/
def gammaExp : Nat := 12

/-- `DEPTH_SCALE`, metres per raw depth unit (R5). -/
def depthScale : Ratio := ⟨1, 1000⟩

/-- `DEPTH_RAW_MAX`, the largest valid raw depth (R5, R96 (b)). -/
def depthRawMax : Nat := 4000

/-- `NARROW_MIN`, metres (R5). -/
def narrowMin : Ratio := ⟨1, 2⟩

/-- `NARROW_MAX`, metres (R5). -/
def narrowMax : Ratio := ⟨4, 1⟩

/-- `WIDE_MIN`, metres (R5). -/
def wideMin : Ratio := ⟨1, 5⟩

/-- `WIDE_MAX`, metres (R5). -/
def wideMax : Ratio := ⟨1, 1⟩

/-- `IR16_FULL`, the divisor of a 16-bit infrared sample (R5). -/
def ir16Full : Nat := 65535

/-- `IR8_FULL`, the divisor of an 8-bit infrared sample (R5). -/
def ir8Full : Nat := 255

/-- `DS_W`, the width that selects the downsample path (R5, R68). -/
def dsW : Nat := 640

/-- `DS_H`, the height that selects the downsample path (R5, R68). -/
def dsH : Nat := 480

/-- `2^ADDR_BITS`, the number of bytes of the system memory (R5, R41). -/
def addrSpace : Nat := 4294967296

/-- `PALETTE`: at least two Colors, so R6 (a) holds by construction (R16). -/
structure Palette where
  first  : Color
  second : Color
  rest   : List Color
  deriving DecidableEq, Repr

/-- The OPEN parameters of R5 (D7, D8, D11, D33) as they stand for one conversion, and the platform's devices (R53, U3). -/
structure Config where
  /-- `PALETTE` (R16). -/
  palette      : Palette
  /-- `INVALID_COLOR` (R18). -/
  invalidColor : Color
  /-- The addresses below `2^ADDR_BITS` at which `MemOK` is false for the conversion (R47). -/
  faulting     : List Range
  /-- Addresses that are no ordinary memory because an access has side effects (R53, U3). -/
  devices      : List Range
  /-- `REG_BASE` where the register file is mapped inside the system memory's addresses, `none` where it is not (R40, R58). -/
  regBase      : Option Nat
  deriving DecidableEq, Repr

/-- The parameters for all the machine's life: `MemOK` is fixed for the duration of one conversion only (R47, D33), so it is one
predicate for each conversion, counted from 1 by accepted STARTs (log 4). Constant: nothing changes it (U14). -/
structure Platform where
  /-- The parameters; its `faulting` holds for every conversion `memOkPlan` does not list. -/
  base      : Config
  /-- The addresses at which `MemOK` is false for the first conversions, one entry each. -/
  memOkPlan : List (List Range)
  deriving DecidableEq, Repr

/-- The reference palette `REF` of R17. PRESUMED by the spec itself (G1); no rule depends on it (log 5). -/
def Palette.ref : Palette :=
  { first  := ⟨0xFF, 0x7F, 0x00, 0x00⟩
    second := ⟨0xFF, 0xFF, 0x00, 0x00⟩
    rest   := [⟨0xFF, 0xFF, 0x7F, 0x00⟩, ⟨0xFF, 0xFF, 0xFF, 0x00⟩, ⟨0xFF, 0x7F, 0xFF, 0x7F⟩, ⟨0xFF, 0x00, 0xFF, 0xFF⟩,
               ⟨0xFF, 0x00, 0x7F, 0xFF⟩, ⟨0xFF, 0x00, 0x00, 0xFF⟩, ⟨0xFF, 0x00, 0x00, 0x7F⟩] }

/-- The test palette `T2` of R17, opaque black to opaque white. -/
def Palette.t2 : Palette := { first := ⟨0xFF, 0, 0, 0⟩, second := ⟨0xFF, 0xFF, 0xFF, 0xFF⟩, rest := [] }

/-- The reference configuration (R17, R18, and the table "Open parameters, collected" of 92). DESIGN CHOICE (log 5),
unsafe for a statement that rests on one of its values: statements range over every `Config`. -/
def Config.reference : Config :=
  { palette := .ref, invalidColor := ⟨0x80, 0x80, 0x00, 0x00⟩, faulting := [], devices := [], regBase := none }

/-- A FREE VALUE: the byte at address `addr` of an output footprint left unspecified by the `n`-th event that leaves one so
(a FAULT, R142; a reset while BUSY, R155; U4, U13). No body: nothing can be proved of it (log 8). Safe. -/
opaque Config.freeByte (n addr : Nat) : Byte

end Sys2Proof
end

