-- ==== Sys2Proof/Syntax.lean ====
section
/-! DEFINITION. Everything spec/opcode_table.json names: the operand types and `Instr`, one constructor for each row. -/

namespace Sys2Proof

/-- The source kind of a frame, `DESC0.KIND` (R24, R61). -/
inductive Kind
  | color
  | depth
  | infrared
  | other
  deriving DecidableEq, Repr

/-- The input pixel format, `DESC0.FMT` (R24, R62). -/
inductive Fmt
  | bgra8
  | gray8
  | gray16
  | other
  deriving DecidableEq, Repr

/-- The sensor profile preset, `PROFILE.SEL` (R30). -/
inductive Profile
  | wide
  | narrow
  deriving DecidableEq, Repr

/-- The operation `decode` answers and an accepted START latches (R37 (a), R66). -/
inductive Op
  | depth16
  | ir16
  | ir8
  | copy
  | dsrot
  | null
  | none
  deriving DecidableEq, Repr

/-- A location of the register file (R21): the thirteen named registers and the 51 reserved words at offsets `0x34 + 4*n`. -/
inductive Reg
  | ctrl
  | status
  | desc0
  | width
  | height
  | inBase
  | inStride
  | outBase
  | outStride
  | profile
  | diag
  | faultAddr
  | logcnt
  | reserved (n : Fin 51)
  deriving DecidableEq, Repr

/-- The four registers that place the two buffers (R26 to R29). -/
structure Buffers where
  inBase    : Word
  inStride  : Word
  outBase   : Word
  outStride : Word
  deriving DecidableEq, Repr

/-- The command: the eight register values of R59, each at the width of R60. -/
structure Descriptor where
  desc0   : Word
  width   : BitVec 16
  height  : BitVec 16
  bufs    : Buffers
  profile : BitVec 1
  deriving DecidableEq, Repr

/-- One constructor for each row of spec/opcode_table.json, in the table's order. -/
inductive Instr
  /-- `CVT.DEPTH16` (R112). -/
  | depth16 (w h : BitVec 16) (b : Buffers) (sel : Profile)
  /-- `CVT.IR16` (R113). -/
  | ir16 (w h : BitVec 16) (b : Buffers)
  /-- `CVT.IR8` (R114). -/
  | ir8 (w h : BitVec 16) (b : Buffers)
  /-- `CVT.COPY` (R115), every size but 640 by 480. -/
  | copy (w h : BitVec 16) (b : Buffers)
  /-- `CVT.DSROT` (R126); the size is fixed by the selection. -/
  | dsrot (b : Buffers)
  /-- `CVT.NULL` (R116). -/
  | null
  /-- `CVT.NONE`, COLOR with GRAY8 (R117). -/
  | noneColorGray8
  /-- `CVT.NONE`, COLOR with GRAY16 (R117). -/
  | noneColorGray16
  /-- `CVT.NONE`, COLOR with OTHER (R117). -/
  | noneColorOther
  /-- `CVT.NONE`, DEPTH with BGRA8 (R117). -/
  | noneDepthBgra8
  /-- `CVT.NONE`, DEPTH with GRAY8 (R117). -/
  | noneDepthGray8
  /-- `CVT.NONE`, DEPTH with OTHER (R117). -/
  | noneDepthOther
  /-- `CVT.NONE`, INFRARED with BGRA8 (R117). -/
  | noneInfraredBgra8
  /-- `CVT.NONE`, INFRARED with OTHER (R117). -/
  | noneInfraredOther
  /-- `CVT.NONE`, OTHER with BGRA8 (R117). -/
  | noneOtherBgra8
  /-- `CVT.NONE`, OTHER with GRAY8 (R117). -/
  | noneOtherGray8
  /-- `CVT.NONE`, OTHER with GRAY16 (R117). -/
  | noneOtherGray16
  /-- `CVT.NONE`, OTHER with OTHER (R117). -/
  | noneOtherOther
  /-- `WR reg, v` (R105). -/
  | wr (r : Reg) (v : Word)
  /-- `RD reg` (R106). -/
  | rd (r : Reg)
  /-- `CVT kind, fmt, w, h, in, istride, out, ostride [, profile] [, absent]` (R73). -/
  | cvt (kind : Kind) (fmt : Fmt) (w h : Word) (b : Buffers) (profile : Option Profile) (absent : Bool)
  /-- `WAIT` (R74). -/
  | wait
  /-- `ACK` (R74). -/
  | ack
  deriving DecidableEq, Repr

end Sys2Proof
end

