-- ==== Sys2Proof/Decode.lean ====
section
/-! DEFINITION. From bits to `Instr` and back: the descriptor's fields, the dispatch function of R66, the register map of
R21, the bus accesses that are a `WR` or an `RD`, the expansions of the pseudo-instructions, and the encoder. -/

namespace Sys2Proof

/-- Why some bytes or some bus access denote no instruction. -/
inductive DecodeError
  /-- Fewer bytes than the eight words of a command (R59: one format, of fixed length). -/
  | truncated
  /-- A register-file access that is not 32 bits wide (R21, U8). -/
  | notWord
  /-- A register-file access whose offset is no multiple of 4 (R21, U8). -/
  | misaligned
  /-- An offset at or above 0x100, which is not the CRR's (R34). -/
  | outsideWindow
  /-- A list of accesses that is not exactly one: pseudo-instructions are not decoded (R75). -/
  | notOneAccess
  deriving DecidableEq, Repr

/-! ### The opcode word `DESC0` (R60) -/

/-- `DESC0.PRESENT`, bit 0. -/
def presentOf (desc0 : Word) : Bool := desc0.getLsbD 0

/-- `DESC0.KIND`, bits 3:2. -/
def kindOf (desc0 : Word) : Kind :=
  match (desc0.extractLsb' 2 2).toNat with
  | 0 => .color
  | 1 => .depth
  | 2 => .infrared
  | _ => .other

/-- `DESC0.FMT`, bits 5:4. -/
def fmtOf (desc0 : Word) : Fmt :=
  match (desc0.extractLsb' 4 2).toNat with
  | 0 => .bgra8
  | 1 => .gray8
  | 2 => .gray16
  | _ => .other

/-- The code of a kind (R24). -/
def Kind.code : Kind → BitVec 2
  | .color => 0
  | .depth => 1
  | .infrared => 2
  | .other => 3

/-- The code of a format (R24). -/
def Fmt.code : Fmt → BitVec 2
  | .bgra8 => 0
  | .gray8 => 1
  | .gray16 => 2
  | .other => 3

/-- The preset `PROFILE.SEL` selects (R30). -/
def Profile.ofBit (sel : BitVec 1) : Profile := if sel = 1#1 then .narrow else .wide

/-- The bit of a preset (R30, R73). -/
def Profile.bit : Profile → BitVec 1
  | .wide => 0
  | .narrow => 1

/-- The opcode word with the given fields and every reserved bit 0 (R60). -/
def desc0Word (present : Bool) (k : Kind) (f : Fmt) : Word :=
  0#26 ++ f.code ++ k.code ++ 0#1 ++ BitVec.ofBool present

/-! ### Dispatch (R66) -/

/-- `decode(DESC0, WIDTH, HEIGHT)` of R66, test by test in its order. -/
def decodeOp (desc0 : Word) (w h : BitVec 16) : Op :=
  if presentOf desc0 = false then .null
  else if kindOf desc0 = .color ∧ fmtOf desc0 = .bgra8 ∧ w.toNat = dsW ∧ h.toNat = dsH then .dsrot
  else if kindOf desc0 = .color ∧ fmtOf desc0 = .bgra8 then .copy
  else if kindOf desc0 = .depth ∧ fmtOf desc0 = .gray16 then .depth16
  else if kindOf desc0 = .infrared ∧ fmtOf desc0 = .gray8 then .ir8
  else if kindOf desc0 = .infrared ∧ fmtOf desc0 = .gray16 then .ir16
  else .none

/-- The table's row for a `CVT.NONE` cell (R67). The four cells that convert are never asked for by a latched `NONE`
(`Safety.LatchedOp`); they answer the last row, whose effect is that of all twelve (R117). -/
def noneCell : Kind → Fmt → Instr
  | .color, .gray8 => .noneColorGray8
  | .color, .gray16 => .noneColorGray16
  | .color, .other => .noneColorOther
  | .depth, .bgra8 => .noneDepthBgra8
  | .depth, .gray8 => .noneDepthGray8
  | .depth, .other => .noneDepthOther
  | .infrared, .bgra8 => .noneInfraredBgra8
  | .infrared, .other => .noneInfraredOther
  | .other, .bgra8 => .noneOtherBgra8
  | .other, .gray8 => .noneOtherGray8
  | .other, .gray16 => .noneOtherGray16
  | _, _ => .noneOtherOther

/-- The command of operation `op` with the operands of the descriptor (R59, R60, R112 to R117, R126). -/
def commandOf (op : Op) (d : Descriptor) : Instr :=
  match op with
  | .depth16 => .depth16 d.width d.height d.bufs (Profile.ofBit d.profile)
  | .ir16 => .ir16 d.width d.height d.bufs
  | .ir8 => .ir8 d.width d.height d.bufs
  | .copy => .copy d.width d.height d.bufs
  | .dsrot => .dsrot d.bufs
  | .null => .null
  | .none => noneCell (kindOf d.desc0) (fmtOf d.desc0)

/-- The command a descriptor denotes: every descriptor denotes one (R69). -/
def Descriptor.command (d : Descriptor) : Instr := commandOf (decodeOp d.desc0 d.width d.height) d

/-! ### A command as bytes

The CRR never fetches a command from memory (R59). For the host's table the eight registers of R59 are laid out in R59's
order, each as one 32-bit word, least significant byte first. DESIGN CHOICE, log 9. -/

/-- The `n` low bytes of `v`, least significant first (R9). -/
def bytesLE : Nat → Nat → List Byte
  | 0, _ => []
  | n + 1, v => BitVec.ofNat 8 v :: bytesLE n (v / 256)

/-- The unsigned integer of some bytes, least significant first (R9). -/
def natOfLE : List Byte → Nat
  | [] => 0
  | b :: bs => b.toNat + 256 * natOfLE bs

/-- The bytes of the command, 8 words of 4 (R59). -/
def commandBytes : Nat := 32

/-- The 32-bit word `i` of a command's bytes. -/
def wordAt (bs : List Byte) (i : Nat) : Word := BitVec.ofNat 32 (natOfLE ((bs.drop (4 * i)).take 4))

/-- The bits of `DESC0` that are implemented (R24). -/
def desc0Mask : Word := 0x0000003D#32

/-- The descriptor of a command's bytes: reserved bits are dropped (R24, R25, R30, R34). -/
def Descriptor.ofBytes (bs : List Byte) : Descriptor :=
  { desc0 := wordAt bs 0 &&& desc0Mask
    width := (wordAt bs 1).setWidth 16
    height := (wordAt bs 2).setWidth 16
    bufs := { inBase := wordAt bs 3, inStride := wordAt bs 4, outBase := wordAt bs 5, outStride := wordAt bs 6 }
    profile := (wordAt bs 7).setWidth 1 }

/-- The bytes of a descriptor. -/
def Descriptor.toBytes (d : Descriptor) : List Byte :=
  bytesLE 4 d.desc0.toNat ++ bytesLE 4 d.width.toNat ++ bytesLE 4 d.height.toNat ++ bytesLE 4 d.bufs.inBase.toNat ++
    bytesLE 4 d.bufs.inStride.toNat ++ bytesLE 4 d.bufs.outBase.toNat ++ bytesLE 4 d.bufs.outStride.toNat ++
    bytesLE 4 d.profile.toNat

/-- The command some bytes denote. Total: every 32 bytes denote one (R69); fewer are refused by name. -/
def decode (bs : List Byte) : Except DecodeError Instr :=
  if bs.length < commandBytes then .error .truncated else .ok (Descriptor.ofBytes bs).command

/-- The host's question: the command whose low `nbits` bits are `w` and whose other bits are 0. -/
def decodeTableWord (nbits w : Nat) : Option Instr :=
  (decode (bytesLE commandBytes (w % 2 ^ nbits))).toOption

/-! ### The register map (R21) -/

/-- The byte offset of a register from `REG_BASE`. -/
def Reg.offset : Reg → Nat
  | .ctrl => 0x00
  | .status => 0x04
  | .desc0 => 0x08
  | .width => 0x0C
  | .height => 0x10
  | .inBase => 0x14
  | .inStride => 0x18
  | .outBase => 0x1C
  | .outStride => 0x20
  | .profile => 0x24
  | .diag => 0x28
  | .faultAddr => 0x2C
  | .logcnt => 0x30
  | .reserved n => 0x34 + 4 * n.val

/-- The register of word location `i` (the offset divided by 4), `i < 64`. -/
def Reg.ofIndex (i : Nat) : Option Reg :=
  match i with
  | 0 => some .ctrl
  | 1 => some .status
  | 2 => some .desc0
  | 3 => some .width
  | 4 => some .height
  | 5 => some .inBase
  | 6 => some .inStride
  | 7 => some .outBase
  | 8 => some .outStride
  | 9 => some .profile
  | 10 => some .diag
  | 11 => some .faultAddr
  | 12 => some .logcnt
  | n + 13 => if h : n < 51 then some (.reserved ⟨n, h⟩) else none

/-- One bus access of the host to the register file: `data` is written, or `none` for a read (R72: a `WR` is the pair
(byte offset, 32-bit data)); `size` is the access's width in bytes. -/
structure BusAccess where
  offset : Nat
  size   : Nat
  data   : Option Word
  deriving DecidableEq, Repr

/-- The host operation a bus access is (R105, R106): only an aligned 32-bit access of the window is one (R21, R34). -/
def decodeBus (x : BusAccess) : Except DecodeError Instr :=
  if x.size ≠ 4 then .error .notWord
  else if x.offset % 4 ≠ 0 then .error .misaligned
  else match Reg.ofIndex (x.offset / 4), x.data with
    | none, _ => .error .outsideWindow
    | some r, some v => .ok (.wr r v)
    | some r, none => .ok (.rd r)

/-- The bus access of `WR r, v`. -/
def writeAccess (r : Reg) (v : Word) : BusAccess := ⟨r.offset, 4, some v⟩

/-- The bus access of `RD r`. -/
def readAccess (r : Reg) : BusAccess := ⟨r.offset, 4, none⟩

/-- The register writes `CVT` expands to, in the order of R73. -/
def cvtWrites (k : Kind) (f : Fmt) (w h : Word) (b : Buffers) (profile : Option Profile) (absent : Bool) :
    List (Reg × Word) :=
  [(.desc0, desc0Word (!absent) k f), (.width, w), (.height, h), (.inBase, b.inBase), (.inStride, b.inStride),
    (.outBase, b.outBase), (.outStride, b.outStride)] ++
    (match profile with
      | some p => [(.profile, p.bit.setWidth 32)]
      | none => []) ++
    [(.ctrl, 1#32)]

/-- The bus accesses of those writes. -/
def cvtAccesses (k : Kind) (f : Fmt) (w h : Word) (b : Buffers) (profile : Option Profile) (absent : Bool) :
    List BusAccess :=
  (cvtWrites k f w h b profile absent).map fun x => writeAccess x.1 x.2

/-- The data word of `ACK` (R74). -/
def ackWord : Word := 0x00001002#32

/-- The host operations a pseudo-instruction stands for (R73, R74; `WAIT` repeats its one); `none` for every other row. -/
def expansion : Instr → Option (List Instr)
  | .cvt k f w h b p absent => some ((cvtWrites k f w h b p absent).map fun x => .wr x.1 x.2)
  | .wait => some [.rd .status]
  | .ack => some [.wr .status ackWord]
  | _ => none

/-! ### The encoder -/

/-- What an instruction looks like from outside: the bytes of a command, or accesses of the host's bus. -/
inductive Encoding
  | command (bytes : List Byte)
  | bus (accesses : List BusAccess)
  deriving DecidableEq, Repr

/-- The encoding of a command with operands `w h b profile` and the `DESC0` fields of its row. -/
def encodeCommand (k : Kind) (f : Fmt) (w h : BitVec 16) (b : Buffers) (profile : BitVec 1) : Encoding :=
  .command (Descriptor.toBytes { desc0 := desc0Word true k f, width := w, height := h, bufs := b, profile := profile })

/-- The encoding of a `CVT.NONE` row, whose operand words no rule reads: 0 (R117). -/
def encodeNone (k : Kind) (f : Fmt) : Encoding := encodeCommand k f 0 0 ⟨0, 0, 0, 0⟩ 0

/-- The words of an instruction, from R60 and R67 (commands), R72 (`WR`, `RD`), R73 and R74 (pseudo-instructions; `WAIT`
is the one read it repeats). -/
def encode : Instr → Encoding
  | .depth16 w h b sel => encodeCommand .depth .gray16 w h b sel.bit
  | .ir16 w h b => encodeCommand .infrared .gray16 w h b 0
  | .ir8 w h b => encodeCommand .infrared .gray8 w h b 0
  | .copy w h b => encodeCommand .color .bgra8 w h b 0
  | .dsrot b => encodeCommand .color .bgra8 (BitVec.ofNat 16 dsW) (BitVec.ofNat 16 dsH) b 0
  | .null => .command (List.replicate commandBytes 0)
  | .noneColorGray8 => encodeNone .color .gray8
  | .noneColorGray16 => encodeNone .color .gray16
  | .noneColorOther => encodeNone .color .other
  | .noneDepthBgra8 => encodeNone .depth .bgra8
  | .noneDepthGray8 => encodeNone .depth .gray8
  | .noneDepthOther => encodeNone .depth .other
  | .noneInfraredBgra8 => encodeNone .infrared .bgra8
  | .noneInfraredOther => encodeNone .infrared .other
  | .noneOtherBgra8 => encodeNone .other .bgra8
  | .noneOtherGray8 => encodeNone .other .gray8
  | .noneOtherGray16 => encodeNone .other .gray16
  | .noneOtherOther => encodeNone .other .other
  | .wr r v => .bus [writeAccess r v]
  | .rd r => .bus [readAccess r]
  | .cvt k f w h b p absent => .bus (cvtAccesses k f w h b p absent)
  | .wait => .bus [readAccess .status]
  | .ack => .bus [writeAccess .status ackWord]

/-- The instruction an encoding denotes: a command by `decode`, one bus access by `decodeBus`; an expansion of several
accesses is no single instruction (R75: the pseudo-instructions are not decoded). -/
def decodeEncoding : Encoding → Except DecodeError Instr
  | .command bs => decode bs
  | .bus [x] => decodeBus x
  | .bus _ => .error .notOneAccess

end Sys2Proof
end

