-- ==== Sys2Proof/Machine/State.lean ====
section
/-! DEFINITION. The state of one CRR instance and of the host that drives it, as plain data; the reasons a step can stop; the
state after reset (R13 to R39; INVENTORY.md, "State"). -/

namespace Sys2Proof.Machine

/-- `STATUS.RESULT` (R23); codes 5 to 7 are never produced (R70). -/
inductive Result
  | none
  | ok
  | null
  | unsupported
  | fault
  deriving DecidableEq, Repr

/-- `DIAG.LAST_CAUSE` (R31); codes 1, 2, 5, 6, 7 are never produced (R70). -/
inductive LogCause
  | none
  | unsupported
  | fault
  deriving DecidableEq, Repr

/-- A no-image cause with what its entry sequence records (R133, R141). -/
inductive Cause
  /-- NULL (R134). -/
  | null
  /-- UNSUPPORTED (R135). -/
  | unsupported
  /-- FAULT at the byte address `addr`, a natural number not yet reduced to 32 bits (R46, R136). -/
  | fault (addr : Nat)
  deriving DecidableEq, Repr

/-- The log registers `DIAG`, `FAULT_ADDR`, `LOGCNT` (R31, R32, R33, R139). -/
structure Log where
  lastCause : LogCause
  aovf      : Bool
  faultAddr : Word
  logcnt    : Word
  deriving DecidableEq, Repr

/-- An agent that can take the next step (R10 (1)). -/
inductive Agent
  | host
  | engine
  deriving DecidableEq, Repr

/-- One pending action from outside the CRR (R10 (1), R163): the host's register operations and pseudo-instructions, its byte
accesses to memory, a change of the platform's `MemOK`, and the external reset. -/
inductive HostEvent
  /-- An access of the register file (R105, R106). -/
  | bus (x : BusAccess)
  /-- The pseudo-instruction `CVT` (R73). -/
  | cvt (kind : Kind) (fmt : Fmt) (w h : Word) (b : Buffers) (profile : Option Profile) (absent : Bool)
  /-- The pseudo-instruction `WAIT` (R74). -/
  | wait
  /-- The pseudo-instruction `ACK` (R74). -/
  | ack
  /-- The host writes one byte of memory (it fills a buffer; R157, R163). -/
  | store (addr : Nat) (v : Byte)
  /-- The host reads one byte of memory (it collects the image; R162, R163). -/
  | load (addr : Nat)
  /-- The platform would change which addresses fail `MemOK`: a move the model refuses (U14; log 4). -/
  | platform (faulting : List Range)
  /-- The external reset (R153). -/
  | reset
  deriving DecidableEq, Repr

/-- Why the machine stops with a fault. The no-image cause FAULT is no such stop: it is a next state (R141). -/
inductive Fault
  /-- The host accesses a byte address at or above `2^ADDR_BITS`, which names no byte (R41). Raised by the host events `store`
  and `load` only. Safe: the model stops. -/
  | noSuchByte (addr : Nat)
  deriving DecidableEq, Repr

/-- Why the model gives a step no meaning. Every one but `notModelled` is host misuse the spec tells a model to refuse. -/
inductive Refusal
  /-- An instruction without a meaning. Raised by no arm of `exec`. Safe. -/
  | notModelled (mnemonic : String)
  /-- Input and output footprint share an address (R160, U1). Raised by the five transferring operations, and by a reset that
  abandons one. Safe. -/
  | footprintsOverlap
  /-- A stride below its row span with more than one row (R161, U2). Raised as `footprintsOverlap` is. Safe. -/
  | strideBelowRowSpan
  /-- A footprint over the register file or a device (R40, R53, R160, U3). Raised as `footprintsOverlap` is. Safe. -/
  | footprintNotMemory
  /-- The host writes a footprint, or reads the output footprint, while BUSY = 1 (R57, R159, U5). Raised by the host events
  `store` and `load`. Safe. -/
  | bufferTouchedWhileBusy
  /-- A register-file access that is no aligned 32-bit access of the window (R21, R34, U8). Raised by the host events `bus`,
  `store` and `load`. Safe. -/
  | notARegisterAccess (why : DecodeError)
  /-- `MemOK`, a parameter, would change out of reset (U14). Raised by the host event `platform`. Safe. -/
  | memOkChanged
  /-- The host accesses a device of the platform, whose behaviour the spec does not give (R53, U3). Raised by the host events
  `store` and `load`. Safe. -/
  | deviceAccess
  deriving DecidableEq, Repr

/-- The system memory as (address, byte) pairs, strictly rising, with no entry equal to what an unlisted address reads as
(`Memory.wf` in Machine/Memory.lean). -/
abbrev Memory := List Host.Cell

/-- Everything the spec gives the machine, and the model's own fields at the end. `CTRL` holds no state (R22). -/
structure State where
  /-- `STATUS.BUSY` (R23). -/
  busy      : Bool
  /-- `STATUS.DONE` (R23). -/
  done      : Bool
  /-- `STATUS.DROPPED` (R23, R108). -/
  dropped   : Bool
  /-- `STATUS.RESULT` (R23, R133). -/
  result    : Result
  /-- `dlut_ready`, also `STATUS.DLUT_READY` (R19, R23). -/
  dlutReady : Bool
  /-- `ilut_ready`, also `STATUS.ILUT_READY` (R19, R23). -/
  ilutReady : Bool
  /-- The descriptor registers and `PROFILE` (R24 to R30). -/
  desc      : Descriptor
  /-- The log registers (R31 to R33). -/
  log       : Log
  /-- `DLUT` (R19), 1024 entries, read only while `dlutReady`. -/
  dlut      : List Color
  /-- `ILUT` (R19), 1024 entries, read only while `ilutReady`. -/
  ilut      : List Color
  /-- The operation latched at an accepted START, meaningful only while BUSY (R37 (a)). -/
  op        : Op
  /-- The scan counter `row`, meaningful only while BUSY (R36, R37 (b)). -/
  row       : Fin 65536
  /-- The scan counter `col`, meaningful only while BUSY (R36, R37 (b)). -/
  col       : Fin 65536
  /-- The system memory (R40 (a), R41). -/
  mem       : Memory
  /-- The parameters of R5, which no step changes (R10 (2), R16, U14; log 4). -/
  env       : Platform
  /-- The model's own: the host's pending actions, oldest first (log 6). -/
  hostQueue : List HostEvent
  /-- The model's own: which agent moves next (U6; log 6). -/
  schedule  : List Agent
  /-- The model's own: the word the host's last `RD` returned (R106, R74; log 7). -/
  readData  : Word
  /-- The model's own: the byte the host's last memory read returned (log 7). -/
  loadData  : Byte
  /-- The model's own: how many times free values were drawn (log 8). -/
  freeCount : Nat
  /-- The model's own: how many STARTs were accepted, which numbers the conversions for `Platform.during` (R47; log 4). -/
  started   : Nat
  deriving DecidableEq, Repr

/-- All-zero register values of the descriptor (R39). -/
def zeroDescriptor : Descriptor := { desc0 := 0, width := 0, height := 0, bufs := ⟨0, 0, 0, 0⟩, profile := 0 }

/-- What stands for the unspecified contents of a table that is not ready (R39): no rule reads them (U12; log 1). -/
def unbuiltTable : List Color := List.replicate tableSize ⟨0, 0, 0, 0⟩

/-- The machine right after reset (R39, R153), in the reference configuration (log 5), with no pending host action. -/
def State.reset : State :=
  { busy := false, done := false, dropped := false, result := .none, dlutReady := false, ilutReady := false
    desc := zeroDescriptor
    log := { lastCause := .none, aovf := false, faultAddr := 0, logcnt := 0 }
    dlut := unbuiltTable, ilut := unbuiltTable
    op := .null, row := 0, col := 0
    mem := [], env := { base := .reference, memOkPlan := [] }
    hostQueue := [], schedule := [], readData := 0, loadData := 0, freeCount := 0, started := 0 }

end Sys2Proof.Machine
end

