-- ==== Sys2Proof/Machine/Memory.lean ====
section
/-! DEFINITION. The system memory (R40 to R47): one byte, `MemRead`, `MemWrite`, and when an access fails. -/

namespace Sys2Proof

/-- `pack(c)`: the word `0xAARRGGBB` (R13). -/
def Color.pack (c : Color) : Word := c.a ++ c.r ++ c.g ++ c.b

/-- `unpack(w)`, the inverse of `pack` (R13). -/
def Color.unpack (w : Word) : Color :=
  { a := w.extractLsb' 24 8, r := w.extractLsb' 16 8, g := w.extractLsb' 8 8, b := w.extractLsb' 0 8 }

/-- The addresses at which `MemOK` is false for conversion `k`, counted from 1 (before the first START, those of `base`). -/
def Platform.faultingAt (p : Platform) (k : Nat) : List Range :=
  match k with
  | 0 => p.base.faulting
  | j + 1 => p.memOkPlan.getD j p.base.faulting

/-- The parameters for conversion `k`: only `MemOK` depends on it. -/
def Platform.during (p : Platform) (k : Nat) : Config := { p.base with faulting := p.faultingAt k }

/-- An address of a range. -/
def Range.has (r : Range) (a : Nat) : Bool := decide (r.base ≤ a) && decide (a < r.base + r.len)

end Sys2Proof

namespace Sys2Proof.Machine

/-- The parameters of the current conversion, among them the one `MemOK` that is fixed for its duration (R47). -/
def State.cfg (s : State) : Config := s.env.during s.started

/-- What a byte that nothing has written reads as. DESIGN CHOICE (log 3): the spec gives memory no power-on contents. -/
def unlistedByte : Byte := 0

/-- The byte at an address. The list is sorted, so the search ends at the first higher address. -/
def Memory.get : Memory → Nat → Byte
  | [], _ => unlistedByte
  | (k, v) :: m, a => if a < k then unlistedByte else if k = a then v else Memory.get m a

/-- Put a byte at the head of the part of a memory that lies above `a`. -/
def Memory.putHead (a : Nat) (b : Byte) (m : Memory) : Memory := if b = unlistedByte then m else (a, b) :: m

/-- The memory with the byte `b` at `a`, in canonical form when the memory was (`dropWhile` drops at most the old entry then). -/
def Memory.set : Memory → Nat → Byte → Memory
  | [], a, b => Memory.putHead a b []
  | (k, v) :: m, a, b =>
    if a < k then Memory.putHead a b ((k, v) :: m)
    else if k = a then Memory.putHead a b (m.dropWhile fun c => decide (c.1 ≤ a))
    else (k, v) :: Memory.set m a b

/-- The canonical form from address `lo` on: strictly rising, inside the address space, no entry an unlisted address would
read as. -/
def Memory.wfFrom : Nat → Memory → Bool
  | _, [] => true
  | lo, (k, v) :: m => decide (lo ≤ k) && decide (k < addrSpace) && decide (v ≠ unlistedByte) && Memory.wfFrom (k + 1) m

/-- The canonical form of a memory. -/
def Memory.wf (m : Memory) : Bool := Memory.wfFrom 0 m

/-- `MemOK` (R47): the byte exists (R46) and the platform does not fail the access. -/
def memOK (cfg : Config) (a : Nat) : Bool := decide (a < addrSpace) && !(cfg.faulting.any fun r => r.has a)

/-- The lowest address of `a .. a+n-1` at which `MemOK` is false (R9, R47). -/
def firstBad (cfg : Config) (a : Nat) : Nat → Option Nat
  | 0 => none
  | n + 1 => if memOK cfg a then firstBad cfg (a + 1) n else some a

/-- The `n` bytes from `a` as an unsigned integer, `a` least significant (R9, R43). -/
def readLE (m : Memory) (a : Nat) : Nat → Nat
  | 0 => 0
  | n + 1 => (Memory.get m a).toNat + 256 * readLE m (a + 1) n

/-- The memory with the low `n` bytes of `v` at `a .. a+n-1`, least significant first (R9, R42). -/
def writeLE (m : Memory) (a : Nat) : Nat → Nat → Memory
  | 0, _ => m
  | n + 1, v => writeLE (Memory.set m a (BitVec.ofNat 8 v)) (a + 1) n (v / 256)

/-- `MemRead(addr, n)`: the value, or the address that fails (R9, R47). -/
def memRead (cfg : Config) (m : Memory) (a n : Nat) : Except Nat Nat :=
  match firstBad cfg a n with
  | some bad => .error bad
  | none => .ok (readLE m a n)

/-- `MemWrite(addr, n, v)`: the memory after it, or the address that fails (R9, R47). -/
def memWrite (cfg : Config) (m : Memory) (a n v : Nat) : Except Nat Memory :=
  match firstBad cfg a n with
  | some bad => .error bad
  | none => .ok (writeLE m a n v)

/-- `StoreColor(a, c)`: bytes B, G, R, A at ascending addresses (R94, R42). -/
def storeColor (cfg : Config) (m : Memory) (a : Nat) (c : Color) : Except Nat Memory :=
  memWrite cfg m a 4 c.pack.toNat

end Sys2Proof.Machine
end

