-- ==== Sys2Proof/Machine/ColorRamp.lean ====
section
/-! DEFINITION. The ColorRamp and the lookup tables (R77 to R90), in the exact integer forms of R78 and R92. -/

namespace Sys2Proof

/-! ### Fractions and the palette -/

/-- `a - b`. -/
def Ratio.sub (a b : Ratio) : Ratio := ⟨a.num * b.den - b.num * a.den, a.den * b.den⟩

/-- `a * b`. -/
def Ratio.mul (a b : Ratio) : Ratio := ⟨a.num * b.num, a.den * b.den⟩

/-- `a / b` for a positive `b`, the only case that occurs (R6 (c)). -/
def Ratio.div (a b : Ratio) : Ratio := ⟨a.num * b.den, a.den * b.num.toNat⟩

/-- A natural number as a fraction. -/
def Ratio.ofNat (n : Nat) : Ratio := ⟨n, 1⟩

/-- `n / d` for natural numbers. -/
def Ratio.over (n d : Nat) : Ratio := ⟨n, d⟩

/-- The rational number a fraction is, for statements. -/
def Ratio.toRat (v : Ratio) : ℚ := (v.num : ℚ) / (v.den : ℚ)

/-- The rational number a weight is, for statements. -/
def Weight.toRat (f : Weight) : ℚ := (f.num : ℚ) / (f.den : ℚ)

/-- `P`, the number of palette entries (R5). -/
def Palette.size (p : Palette) : Nat := p.rest.length + 2

/-- `PALETTE[i]` for `i < P` (R16); past the end, which no rule reads, the last entry. -/
def Palette.entry (p : Palette) (i : Nat) : Color :=
  match i with
  | 0 => p.first
  | 1 => p.second
  | n + 2 => p.rest.getD n (p.rest.getLastD p.second)

end Sys2Proof

namespace Sys2Proof.Machine

/-! ### Blending -/

/-- `blend(p, n, f)` for `f = r/d`, the integer expression of R78: the exact linear blend rounded to nearest, ties upward. -/
def blend (p n : Byte) (f : Weight) : Byte :=
  BitVec.ofNat 8 ((2 * (p.toNat * (f.den - f.num) + n.toNat * f.num) + f.den) / (2 * f.den))

/-- The four channels of two Colors blended separately with one weight (R14, R77 (d)). -/
def mix (prev next : Color) (f : Weight) : Color :=
  { a := blend prev.a next.a f, r := blend prev.r next.r f, g := blend prev.g next.g f, b := blend prev.b next.b f }

/-- `clamp01(value)` (R8): the fraction of `value` clamped to `[0, 1]`. -/
def clamp01 (v : Ratio) : Weight := { num := min v.num.toNat v.den, den := v.den }

/-- The cell of `steps` equal cells in which a clamped value lies: `min(floor(v * steps), steps - 1)` (R81, R88). -/
def cellIndex (steps : Nat) (v : Weight) : Nat := min (v.num * steps / v.den) (steps - 1)

/-- The weight inside the cell, measured from the clamped index: `v * steps - index` (R81, R88; 90_conflicts.md C2). -/
def cellWeight (steps : Nat) (v : Weight) : Weight :=
  { num := v.num * steps - cellIndex steps v * v.den, den := v.den }

/-- Two-point linear interpolation over the points `entry 0 .. entry steps` standing at equal steps of `[0, 1]`, the one
formula of R81 and R88. -/
def interpolateOver (entry : Nat → Color) (steps : Nat) (value : Ratio) : Color :=
  mix (entry (cellIndex steps (clamp01 value))) (entry (cellIndex steps (clamp01 value) + 1))
    (cellWeight steps (clamp01 value))

/-- `Interpolate(value)` (R81). -/
def interpolate (p : Palette) (value : Ratio) : Color := interpolateOver p.entry (p.size - 1) value

/-- The sample point `x_k = k / (N - 1)` (R83). -/
def samplePoint (k : Nat) : Ratio := ⟨k, tableSize - 1⟩

/-- `GenDepth(k)` (R84). -/
def genDepth (p : Palette) (k : Nat) : Color := interpolate p (samplePoint k)

/-- `(1 - x_k)^GAMMA_EXP`, taken exactly (R85). -/
def gammaPoint (k : Nat) : Ratio := ⟨((tableSize - 1 - k) ^ gammaExp : Nat), (tableSize - 1) ^ gammaExp⟩

/-- `GenIR(k)` (R85). -/
def genIr (p : Palette) (k : Nat) : Color := interpolate p (gammaPoint k)

/-- The values of a generator at `from, from + 1, …`, `n` of them. -/
def tabulate (g : Nat → Color) (start : Nat) : Nat → List Color
  | 0 => []
  | n + 1 => g start :: tabulate g (start + 1) n

/-- The contents a build step writes: entry `k` is the generator's value at `k`, `k < N` (R86). -/
def buildTable (g : Nat → Color) : List Color := tabulate g 0 tableSize

/-- `T[k]` of a table; past its end, which no rule reads, the zero Color. -/
def tableEntry (t : List Color) (k : Nat) : Color := t.getD k ⟨0, 0, 0, 0⟩

/-- `GetValue(T, value)` (R88). -/
def getValue (t : List Color) (value : Ratio) : Color := interpolateOver (tableEntry t) (tableSize - 1) value

end Sys2Proof.Machine
end

