-- ==== Sys2Proof/Machine/Ops.lean ====
section
/-! DEFINITION. The shared operations of the engine: footprints and the host's duties about them, the table build, how a
conversion starts and ends (the no-image entry sequence of R141 among them), and reset. -/

namespace Sys2Proof

/-- The bytes of the register file (R21, R58). -/
def registerFileBytes : Nat := 256

/-- The addresses that are no ordinary memory: the register file where it is mapped (R40) and the devices (R53). -/
def Config.notMemory (cfg : Config) : List Range :=
  match cfg.regBase with
  | some base => ⟨base, registerFileBytes⟩ :: cfg.devices
  | none => cfg.devices

/-- Input bytes per pixel (R48, R62). -/
def Op.ibpp : Op → Nat
  | .depth16 => 2
  | .ir16 => 2
  | .ir8 => 1
  | .copy => 4
  | .dsrot => 4
  | .null => 0
  | .none => 0

end Sys2Proof

namespace Sys2Proof.Machine

/-! ### Footprints (R48) -/

/-- The bytes a conversion may touch in one buffer: in each of `rows` rows, `stride` apart from `base`, the bytes at offsets
below `span` that are multiples of `step` (R48; `step` is 4 for the input of `DSROT`, R127, and 1 otherwise). -/
structure Footprint where
  base   : Nat
  stride : Nat
  rows   : Nat
  span   : Nat
  step   : Nat
  deriving DecidableEq, Repr

/-- Whether some number below `n` satisfies `p`. -/
def anyBelow (n : Nat) (p : Nat → Bool) : Bool :=
  match n with
  | 0 => false
  | k + 1 => p k || anyBelow k p

/-- The address of byte `j` of row `r`, a natural number that never wraps (R46). -/
def Footprint.addr (f : Footprint) (r j : Nat) : Nat := f.base + r * f.stride + j

/-- Whether a byte address is in the footprint. -/
def Footprint.has (f : Footprint) (a : Nat) : Bool :=
  anyBelow f.rows fun r =>
    decide (f.addr r 0 ≤ a) && decide (a < f.addr r f.span) && decide ((a - f.addr r 0) % f.step = 0)

/-- The first offset of a row starting at `lo` that is a multiple of `step` and whose address is not below `x`. -/
def firstOffset (lo step x : Nat) : Nat := (x - lo + step - 1) / step * step

/-- Whether row `r` of `f` and row `q` of `g` share an address; every byte of a row of `g` counts. -/
def rowsMeet (f g : Footprint) (r q : Nat) : Bool :=
  let j := firstOffset (f.addr r 0) f.step (g.addr q 0)
  decide (j < f.span) && decide (f.addr r j < g.addr q g.span)

/-- One past the last address a footprint can hold. -/
def Footprint.limit (f : Footprint) : Nat := f.addr (f.rows - 1) f.span

/-- Whether a footprint and another of step 1 share an address. Footprints that lie apart as a whole are told at once. -/
def Footprint.meets (f g : Footprint) : Bool :=
  if f.limit ≤ g.base ∨ g.limit ≤ f.base then false
  else anyBelow f.rows fun r => anyBelow g.rows fun q => rowsMeet f g r q

/-- A range of addresses as a footprint of one row. -/
def rangeFootprint (r : Range) : Footprint := { base := r.base, stride := 0, rows := 1, span := r.len, step := 1 }

/-- The footprint of an operation that touches no memory (R48). -/
def noFootprint : Footprint := { base := 0, stride := 0, rows := 0, span := 0, step := 1 }

/-- The input footprint of R48. -/
def inputFootprint (op : Op) (w h : Nat) (b : Buffers) : Footprint :=
  match op with
  | .null => noFootprint
  | .none => noFootprint
  | .dsrot => { base := b.inBase.toNat, stride := b.inStride.toNat, rows := h, span := 4 * w, step := 4 }
  | _ => { base := b.inBase.toNat, stride := b.inStride.toNat, rows := h, span := w * op.ibpp, step := 1 }

/-- The output footprint of R48; for `DSROT` of half the width and height (R125). -/
def outputFootprint (op : Op) (w h : Nat) (b : Buffers) : Footprint :=
  match op with
  | .null => noFootprint
  | .none => noFootprint
  | .dsrot => { base := b.outBase.toNat, stride := b.outStride.toNat, rows := h / 2, span := 4 * (w / 2), step := 1 }
  | _ => { base := b.outBase.toNat, stride := b.outStride.toNat, rows := h, span := 4 * w, step := 1 }

/-- A stride below the row span, with more than one row (R161, U2). -/
def Footprint.shortStride (f : Footprint) : Bool := decide (1 < f.rows) && decide (f.stride < f.span)

/-- The host duty a conversion with these footprints breaks, if any: R161 (U2), R160 (U1), R40 and R53 (U3). -/
def dutyBreach (cfg : Config) (fin fout : Footprint) : Option Refusal :=
  if fin.shortStride || fout.shortStride then some .strideBelowRowSpan
  else if fin.meets fout then some .footprintsOverlap
  else if cfg.notMemory.any (fun r => fin.meets (rangeFootprint r) || fout.meets (rangeFootprint r)) then
    some .footprintNotMemory
  else none

/-! ### Free values -/

/-- A row of `n` bytes from `a`, each below `2^ADDR_BITS`, replaced by the free values of draw `k`. -/
def spoilRow (k : Nat) (m : Memory) (a : Nat) : Nat → Memory
  | 0 => m
  | n + 1 => spoilRow k (if a < addrSpace then Memory.set m a (Config.freeByte k a) else m) (a + 1) n

/-- The first `rows` rows of a footprint replaced by the free values of draw `k`. -/
def spoilRows (k : Nat) (f : Footprint) (m : Memory) : Nat → Memory
  | 0 => m
  | r + 1 => spoilRow k (spoilRows k f m r) (f.addr r 0) f.span

/-- The output footprint left unspecified (R142, R155, U4, U13): every byte of it is a free value; nothing else changes. -/
def spoilOutput (f : Footprint) (s : State) : State :=
  { s with mem := spoilRows s.freeCount f s.mem f.rows, freeCount := s.freeCount + 1 }

/-! ### Tables (R86, R110) -/

/-- `ensure_table(DLUT)` (R110): the build step of R86 unless the ready flag is 1. -/
def ensureDlut (s : State) : State :=
  if s.dlutReady then s else { s with dlut := buildTable (genDepth s.cfg.palette), dlutReady := true }

/-- `ensure_table(ILUT)` (R110). -/
def ensureIlut (s : State) : State :=
  if s.ilutReady then s else { s with ilut := buildTable (genIr s.cfg.palette), ilutReady := true }

/-! ### How a conversion starts and ends -/

/-- `accept_start()` (R107). DROPPED is kept, as R107 states (log 19 names the row of R163 that can be read otherwise). `started` numbers the conversion, whose `MemOK` is
fixed from here to its end (R47; log 4). -/
def acceptStart (s : State) : State :=
  { s with busy := true, done := false, result := .none, op := decodeOp s.desc.desc0 s.desc.width s.desc.height,
           row := 0, col := 0, started := s.started + 1 }

/-- `complete_ok()` (R118). DESIGN CHOICE (log 2), unsafe: `op`, `row` and `col`, unspecified once BUSY is 0 (R37, U12), keep
the values they had. -/
def completeOk (s : State) : State := { s with busy := false, done := true, result := .ok }

/-- The entry sequence of R141, the one way a no-image cause is taken: what it records in RESULT and in the log, then BUSY
cleared and DONE set. Control goes nowhere. DESIGN CHOICE (log 2), unsafe: `op`, `row` and `col`, unspecified once BUSY is 0 (R37,
U12), keep the values they had. -/
def raiseCause (c : Cause) (s : State) : State :=
  match c with
  | .null => { s with result := .null, busy := false, done := true }
  | .unsupported =>
    { s with result := .unsupported, busy := false, done := true
             log := { s.log with lastCause := .unsupported, aovf := false, logcnt := s.log.logcnt + 1 } }
  | .fault a =>
    { s with result := .fault, busy := false, done := true
             log := { lastCause := .fault, aovf := decide (addrSpace ≤ a), faultAddr := BitVec.ofNat 32 a,
                      logcnt := s.log.logcnt + 1 } }

/-- The host's acknowledgement, the counterpart of a return (R144): a write of `v` to `STATUS` clears DONE and DROPPED where the
written bit is 1 and sets nothing (R23, R105). -/
def acknowledge (v : Word) (s : State) : State :=
  { s with done := s.done && !v.getLsbD 1, dropped := s.dropped && !v.getLsbD 12 }

/-- The end of a conversion that transfers, as one step (R122 (c)): refused where the host broke a duty; the memory of the
transfer and `complete_ok` (R118); or FAULT at the first failing access with the output footprint unspecified (R142). -/
def endTransfer (op : Op) (w h : Nat) (b : Buffers) (moved : Except Nat Memory) (s : State) :
    Host.Outcome State Fault Refusal :=
  match dutyBreach s.cfg (inputFootprint op w h b) (outputFootprint op w h b) with
  | some why => .refused why
  | none =>
    match moved with
    | .ok m => .next (completeOk { s with mem := m })
    | .error a => .next (raiseCause (.fault a) (spoilOutput (outputFootprint op w h b) s))

/-! ### What the engine holds while BUSY -/

/-- The footprint the running conversion reads (R48, R57). -/
def State.inFootprint (s : State) : Footprint :=
  inputFootprint s.op s.desc.width.toNat s.desc.height.toNat s.desc.bufs

/-- The footprint the running conversion writes (R48, R57). -/
def State.outFootprint (s : State) : Footprint :=
  outputFootprint s.op s.desc.width.toNat s.desc.height.toNat s.desc.bufs

/-! ### Reset (R153 to R156) -/

/-- Every piece of CRR state at its reset value (R39); memory, configuration and what is the host's stay (R154). -/
def resetCrr (s : State) : State :=
  { State.reset with mem := s.mem, env := s.env, hostQueue := s.hostQueue, schedule := s.schedule,
                     readData := s.readData, loadData := s.loadData, freeCount := s.freeCount,
                     started := s.started }

/-- The external reset. Idle: R153, R154. BUSY: the conversion is abandoned and its output footprint is unspecified (R155);
refused where that conversion's descriptor breaks a host duty, as the conversion would be (U1 to U3). -/
def applyReset (s : State) : Host.Outcome State Fault Refusal :=
  if s.busy then
    match dutyBreach s.cfg s.inFootprint s.outFootprint with
    | some why => .refused why
    | none => .next (resetCrr (spoilOutput s.outFootprint s))
  else .next (resetCrr s)

end Sys2Proof.Machine
end

