-- ==== Sys2Proof/Machine/Operands.lean ====
section
/-! DEFINITION. Operand forms (R63, R65): a raw sample becomes a normalised value, a normalised value a pixel; the row
transforms of 41_scanline_transforms.md, the row driver of R111 and the block walk of `DSROT`. -/

namespace Sys2Proof.Machine

/-! ### From a raw sample to a pixel -/

/-- The reliable range `(min, max)` of a preset, metres (R5, R96). -/
def reliableMin : Profile → Ratio
  | .wide => wideMin
  | .narrow => narrowMin

/-- The upper end of a preset's reliable range, metres (R5, R96). -/
def reliableMax : Profile → Ratio
  | .wide => wideMax
  | .narrow => narrowMax

/-- `alpha` of R95, not clamped. -/
def depthAlpha (scale lo hi : Ratio) (raw : Nat) : Ratio :=
  (((Ratio.ofNat raw).mul scale).sub lo).div (hi.sub lo)

/-- The pixel of a raw depth sample (R95). -/
def depthPixel (cfg : Config) (dlut : List Color) (scale lo hi : Ratio) (raw : Nat) : Color :=
  if raw = 0 ∨ depthRawMax < raw then cfg.invalidColor else getValue dlut (depthAlpha scale lo hi raw)

/-- The pixel of a raw infrared sample whose full scale is `full` (R97, R99). -/
def infraredPixel (cfg : Config) (ilut : List Color) (full raw : Nat) : Color :=
  if raw = 0 then cfg.invalidColor else getValue ilut (Ratio.over raw full)

/-! ### Loops -/

/-- `for i in first .. first+n-1: body i`, ended by the first failing access (R9, R54). -/
def forCount (body : Nat → Memory → Except Nat Memory) : Nat → Nat → Memory → Except Nat Memory
  | 0, _, m => .ok m
  | n + 1, i, m =>
    match body i m with
    | .error bad => .error bad
    | .ok m' => forCount body n (i + 1) m'

/-- One pixel of a row: `MemRead` of the sample at `src`, then the 4-byte store of its pixel at `dst` (R54, R93). -/
def movePixel (cfg : Config) (ibpp : Nat) (pixel : Nat → Word) (src dst : Nat) (m : Memory) : Except Nat Memory :=
  match memRead cfg m src ibpp with
  | .error bad => .error bad
  | .ok raw => memWrite cfg m dst 4 (pixel raw).toNat

/-- The common contract of the row transforms (R93): pixel `x` goes from `src + x*ibpp` to `dst + 4*x`, `x` ascending. -/
def mapRow (cfg : Config) (ibpp : Nat) (pixel : Nat → Word) (width src dst : Nat) (m : Memory) : Except Nat Memory :=
  forCount (fun x m => movePixel cfg ibpp pixel (src + x * ibpp) (dst + 4 * x) m) width 0 m

/-! ### Row transforms (41_scanline_transforms.md) -/

/-- `DepthRow(width, in, out, depthScale, minReliable, maxReliable)` (R95). -/
def depthRow (cfg : Config) (dlut : List Color) (scale lo hi : Ratio) (width src dst : Nat) (m : Memory) :
    Except Nat Memory :=
  mapRow cfg 2 (fun raw => (depthPixel cfg dlut scale lo hi raw).pack) width src dst m

/-- `Infrared16Row(width, in, out)` (R97). -/
def infrared16Row (cfg : Config) (ilut : List Color) (width src dst : Nat) (m : Memory) : Except Nat Memory :=
  mapRow cfg 2 (fun raw => (infraredPixel cfg ilut ir16Full raw).pack) width src dst m

/-- `Infrared8Row(width, in, out)` (R99). -/
def infrared8Row (cfg : Config) (ilut : List Color) (width src dst : Nat) (m : Memory) : Except Nat Memory :=
  mapRow cfg 1 (fun raw => (infraredPixel cfg ilut ir8Full raw).pack) width src dst m

/-- `CopyRow(width, in, out)` (R101): the four bytes of a pixel as they are. -/
def copyRow (cfg : Config) (width src dst : Nat) (m : Memory) : Except Nat Memory :=
  mapRow cfg 4 (fun raw => BitVec.ofNat 32 raw) width src dst m

/-- `RowDriver(T)` (R111): rows `0 .. height-1` ascending, each from its own start addresses. -/
def rowDriver (row : Nat → Nat → Memory → Except Nat Memory) (height : Nat) (b : Buffers) (m : Memory) :
    Except Nat Memory :=
  forCount
    (fun r m => row (b.inBase.toNat + r * b.inStride.toNat) (b.outBase.toNat + r * b.outStride.toNat) m) height 0 m

/-! ### The downsample path (43_downsample_rotate.md) -/

/-- The address of `S(x, y)`, the first byte of input pixel `(x, y)` (R126, R127). -/
def tapAddr (b : Buffers) (x y : Nat) : Nat := b.inBase.toNat + y * b.inStride.toNat + 4 * x

/-- The address of output pixel `(ox, oy)` (R126, R129). -/
def downPixelAddr (b : Buffers) (ox oy : Nat) : Nat := b.outBase.toNat + oy * b.outStride.toNat + 4 * ox

/-- The grey of a block whose four taps sum to `sum`: floor of a quarter, opaque (R128, R129). -/
def greyOf (sum : Nat) : Color :=
  { a := 0xFF, r := BitVec.ofNat 8 (sum / 4), g := BitVec.ofNat 8 (sum / 4), b := BitVec.ofNat 8 (sum / 4) }

/-- The block at `(2*xb, 2*yb)`: its four reads in the order of R130, then the store of its pixel in column `xb` of row
`(H/2 - 1) - yb` (R126). -/
def downBlock (cfg : Config) (b : Buffers) (yb xb : Nat) (m : Memory) : Except Nat Memory :=
  match memRead cfg m (tapAddr b (2 * xb) (2 * yb)) 1 with
  | .error bad => .error bad
  | .ok s0 =>
    match memRead cfg m (tapAddr b (2 * xb + 1) (2 * yb)) 1 with
    | .error bad => .error bad
    | .ok s1 =>
      match memRead cfg m (tapAddr b (2 * xb) (2 * yb + 1)) 1 with
      | .error bad => .error bad
      | .ok s2 =>
        match memRead cfg m (tapAddr b (2 * xb + 1) (2 * yb + 1)) 1 with
        | .error bad => .error bad
        | .ok s3 => storeColor cfg m (downPixelAddr b xb (dsH / 2 - 1 - yb)) (greyOf (s0 + s1 + s2 + s3))

/-- `DownsampleRotate()` (R126): blocks with `y` ascending and, inside one `y`, `x` ascending (R130). -/
def downsampleRotate (cfg : Config) (b : Buffers) (m : Memory) : Except Nat Memory :=
  forCount (fun yb m => forCount (downBlock cfg b yb) (dsW / 2) 0 m) (dsH / 2) 0 m

/-! ### The order of accesses (R54, R130) -/

/-- `n` ascending byte addresses from `a` (R44). -/
def bytesFrom (a : Nat) : Nat → List Nat
  | 0 => []
  | n + 1 => a :: bytesFrom (a + 1) n

/-- The concatenation of `f 0, f 1, …, f (n-1)`. -/
def concatBelow (n : Nat) (f : Nat → List Nat) : List Nat := (List.range n).flatMap f

/-- Every byte access of a row-driven operation, in order: rows, then pixels, then the sample's bytes before the pixel's (R54). -/
def rowAccesses (ibpp w h : Nat) (b : Buffers) : List Nat :=
  concatBelow h fun r => concatBelow w fun x =>
    bytesFrom (b.inBase.toNat + r * b.inStride.toNat + x * ibpp) ibpp ++
      bytesFrom (b.outBase.toNat + r * b.outStride.toNat + 4 * x) 4

/-- Every byte access of `DSROT`, in order (R130). -/
def downAccesses (b : Buffers) : List Nat :=
  concatBelow (dsH / 2) fun yb => concatBelow (dsW / 2) fun xb =>
    [tapAddr b (2 * xb) (2 * yb), tapAddr b (2 * xb + 1) (2 * yb), tapAddr b (2 * xb) (2 * yb + 1),
      tapAddr b (2 * xb + 1) (2 * yb + 1)] ++ bytesFrom (downPixelAddr b xb (dsH / 2 - 1 - yb)) 4

/-- Every byte access of an operation, in the order of R54 and R130; none for NULL and NONE (R51). -/
def accessesOf (op : Op) (w h : Nat) (b : Buffers) : List Nat :=
  match op with
  | .null => []
  | .none => []
  | .dsrot => downAccesses b
  | _ => rowAccesses op.ibpp w h b

end Sys2Proof.Machine
end

