-- ==== Sys2Proof/Machine/Convert.lean ====
section
/-! DEFINITION. The operations that transfer pixels: `CVT.DEPTH16`, `CVT.IR16`, `CVT.IR8`, `CVT.COPY`, `CVT.DSROT` (R112 to
R115, R126), each one engine step from the accepted START's state to the conversion's end (R122 (c), log 10). -/

namespace Sys2Proof.Machine

/-- The transfer of `CVT.DEPTH16` once the table is ready (R112). -/
def moveDepth16 (w h : BitVec 16) (b : Buffers) (sel : Profile) (s : State) : Except Nat Memory :=
  rowDriver (depthRow s.cfg s.dlut depthScale (reliableMin sel) (reliableMax sel) w.toNat) h.toNat b s.mem

/-- The transfer of `CVT.IR16` once the table is ready (R113). -/
def moveIr16 (w h : BitVec 16) (b : Buffers) (s : State) : Except Nat Memory :=
  rowDriver (infrared16Row s.cfg s.ilut w.toNat) h.toNat b s.mem

/-- The transfer of `CVT.IR8` once the table is ready (R114). -/
def moveIr8 (w h : BitVec 16) (b : Buffers) (s : State) : Except Nat Memory :=
  rowDriver (infrared8Row s.cfg s.ilut w.toNat) h.toNat b s.mem

/-- The transfer of `CVT.COPY` (R115). -/
def moveCopy (w h : BitVec 16) (b : Buffers) (s : State) : Except Nat Memory :=
  rowDriver (copyRow s.cfg w.toNat) h.toNat b s.mem

/-- `CVT.DEPTH16` (R112). -/
def execDepth16 (w h : BitVec 16) (b : Buffers) (sel : Profile) (s : State) : Host.Outcome State Fault Refusal :=
  endTransfer .depth16 w.toNat h.toNat b (moveDepth16 w h b sel (ensureDlut s)) (ensureDlut s)

/-- `CVT.IR16` (R113). -/
def execIr16 (w h : BitVec 16) (b : Buffers) (s : State) : Host.Outcome State Fault Refusal :=
  endTransfer .ir16 w.toNat h.toNat b (moveIr16 w h b (ensureIlut s)) (ensureIlut s)

/-- `CVT.IR8` (R114). -/
def execIr8 (w h : BitVec 16) (b : Buffers) (s : State) : Host.Outcome State Fault Refusal :=
  endTransfer .ir8 w.toNat h.toNat b (moveIr8 w h b (ensureIlut s)) (ensureIlut s)

/-- `CVT.COPY` (R115): no table is built or read. -/
def execCopy (w h : BitVec 16) (b : Buffers) (s : State) : Host.Outcome State Fault Refusal :=
  endTransfer .copy w.toNat h.toNat b (moveCopy w h b s) s

/-- `CVT.DSROT` (R126): no table is built or read. -/
def execDsrot (b : Buffers) (s : State) : Host.Outcome State Fault Refusal :=
  endTransfer .dsrot dsW dsH b (downsampleRotate s.cfg b s.mem) s

end Sys2Proof.Machine
end

