-- ==== Sys2Proof/Machine/Flags.lean ====
section
/-! DEFINITION. The flags as the host sees them (R38: `STATUS` and `DIAG` hold them all), and the value of every register on a
read (R106) and after a write (R105). -/

namespace Sys2Proof.Machine

/-- The code of a result (R23). -/
def Result.code : Result → BitVec 3
  | .none => 0
  | .ok => 1
  | .null => 2
  | .unsupported => 3
  | .fault => 4

/-- The code of a logged cause, the same numbers as `STATUS.RESULT` (R31). -/
def LogCause.code : LogCause → BitVec 3
  | .none => 0
  | .unsupported => 3
  | .fault => 4

/-- The word `STATUS` reads as (R106). -/
def statusWord (s : State) : Word :=
  0#19 ++ BitVec.ofBool s.dropped ++ 0#2 ++ BitVec.ofBool s.ilutReady ++ BitVec.ofBool s.dlutReady ++ 0#1 ++
    Result.code s.result ++ 0#2 ++ BitVec.ofBool s.done ++ BitVec.ofBool s.busy

/-- The word `DIAG` reads as (R106). -/
def diagWord (l : Log) : Word := 0#23 ++ BitVec.ofBool l.aovf ++ 0#5 ++ LogCause.code l.lastCause

/-- The value `RD reg` returns (R106). -/
def readReg (r : Reg) (s : State) : Word :=
  match r with
  | .ctrl => 0
  | .status => statusWord s
  | .desc0 => s.desc.desc0 &&& desc0Mask
  | .width => s.desc.width.setWidth 32
  | .height => s.desc.height.setWidth 32
  | .inBase => s.desc.bufs.inBase
  | .inStride => s.desc.bufs.inStride
  | .outBase => s.desc.bufs.outBase
  | .outStride => s.desc.bufs.outStride
  | .profile => s.desc.profile.setWidth 32
  | .diag => diagWord s.log
  | .faultAddr => s.log.faultAddr
  | .logcnt => s.log.logcnt
  | .reserved _ => 0

/-- The descriptor after a write that BUSY does not block (R105): reserved bits are dropped (R24, R25, R30). -/
def writeDesc (r : Reg) (v : Word) (d : Descriptor) : Descriptor :=
  match r with
  | .desc0 => { d with desc0 := v &&& desc0Mask }
  | .width => { d with width := v.setWidth 16 }
  | .height => { d with height := v.setWidth 16 }
  | .inBase => { d with bufs := { d.bufs with inBase := v } }
  | .inStride => { d with bufs := { d.bufs with inStride := v } }
  | .outBase => { d with bufs := { d.bufs with outBase := v } }
  | .outStride => { d with bufs := { d.bufs with outStride := v } }
  | .profile => { d with profile := v.setWidth 1 }
  | _ => d

/-- A write of `CTRL` (R22, R105): START accepted (R107) or dropped (R108). -/
def writeCtrl (v : Word) (s : State) : State :=
  if v.getLsbD 0 then (if s.busy then { s with dropped := true } else acceptStart s) else s

/-- The effect of `WR reg, v` (R105). A descriptor write while BUSY is ignored (R158). -/
def writeReg (r : Reg) (v : Word) (s : State) : State :=
  match r with
  | .ctrl => writeCtrl v s
  | .status => acknowledge v s
  | _ => if s.busy then s else { s with desc := writeDesc r v s.desc }

end Sys2Proof.Machine
end

