-- ==== Sys2Proof/Machine/HostOps.lean ====
section
/-! DEFINITION. What the host does: the register operations `WR` and `RD` (R105, R106), the pseudo-instructions `CVT`, `WAIT`
and `ACK` (R73, R74), and the host's byte accesses to memory (R57, R159, R163). -/

namespace Sys2Proof.Machine

/-- `WR reg, v` (R105). -/
def execWr (r : Reg) (v : Word) (s : State) : Host.Outcome State Fault Refusal := .next (writeReg r v s)

/-- `RD reg` (R106): the value goes to the host and no state of the CRR changes. -/
def execRd (r : Reg) (s : State) : Host.Outcome State Fault Refusal := .next { s with readData := readReg r s }

/-- `CVT …` (R73): the host's next actions become the register writes it expands to, in R73's order, each an indivisible `WR` of
its own with `WR CTRL, 1` last. -/
def execCvt (kind : Kind) (fmt : Fmt) (w h : Word) (b : Buffers) (profile : Option Profile) (absent : Bool) (s : State) :
    Host.Outcome State Fault Refusal :=
  .next { s with hostQueue := (cvtAccesses kind fmt w h b profile absent).map HostEvent.bus ++ s.hostQueue }

/-- `WAIT` (R74): one `RD STATUS`; while that value says BUSY the host goes on waiting, else the value is what `WAIT` yields. -/
def execWait (s : State) : Host.Outcome State Fault Refusal :=
  .next { s with readData := statusWord s
                 hostQueue := if s.busy then HostEvent.wait :: s.hostQueue else s.hostQueue }

/-- `ACK` (R74): `WR STATUS, 0x00001002`. -/
def execAck (s : State) : Host.Outcome State Fault Refusal := .next (writeReg .status ackWord s)

/-- Why the host may not access the byte at `a` at all: its own register file by bytes (U8), or a device (U3). -/
def hostAccessBar (cfg : Config) (a : Nat) : Option Refusal :=
  if (cfg.regBase.any fun base => (Range.mk base registerFileBytes).has a) then some (.notARegisterAccess .notWord)
  else if cfg.devices.any fun r => r.has a then some .deviceAccess
  else none

/-- The host writes one byte of memory; while BUSY neither footprint may be written (R57, R159, U5). An address that names no
byte faults (R41; DESIGN CHOICE, log 14). DESIGN CHOICE (log 18), unsafe: `MemOK` is not asked, since the spec gives it for the
conversion's accesses only (R47, R136, R148), so the host's write completes at an address whose `MemOK` is false. -/
def hostStore (a : Nat) (v : Byte) (s : State) : Host.Outcome State Fault Refusal :=
  match hostAccessBar s.cfg a with
  | some why => .refused why
  | none =>
    if addrSpace ≤ a then .fault (.noSuchByte a)
    else if s.busy && (s.inFootprint.has a || s.outFootprint.has a) then .refused .bufferTouchedWhileBusy
    else .next { s with mem := Memory.set s.mem a v }

/-- The host reads one byte of memory; while BUSY the output footprint may not be read (R57, R159, U5). An address that names
no byte faults (R41; DESIGN CHOICE, log 14). DESIGN CHOICE (log 18), unsafe: `MemOK` is not asked, as in `hostStore`. -/
def hostLoad (a : Nat) (s : State) : Host.Outcome State Fault Refusal :=
  match hostAccessBar s.cfg a with
  | some why => .refused why
  | none =>
    if addrSpace ≤ a then .fault (.noSuchByte a)
    else if s.busy && s.outFootprint.has a then .refused .bufferTouchedWhileBusy
    else .next { s with loadData := Memory.get s.mem a }

/-- A change of `MemOK` is refused, idle or BUSY: it is a parameter (U14). That it differs from conversion to conversion (R47,
program P4 of 95_test_vectors.md) is the parameter's own value, `Platform.during`. -/
def platformChange (_faulting : List Range) (_s : State) : Host.Outcome State Fault Refusal := .refused .memOkChanged

end Sys2Proof.Machine
end

