-- ==== Sys2Proof/Machine/NoImage.lean ====
section
/-! DEFINITION. The operations that end without an image and touch no memory: `CVT.NULL` (R116) and the twelve rows of
`CVT.NONE` (R117). -/

namespace Sys2Proof.Machine

/-- `CVT.NULL`: `raise Null()` (R116, R134). -/
def execNull (s : State) : Host.Outcome State Fault Refusal := .next (raiseCause .null s)

/-- `CVT.NONE`, COLOR with GRAY8: `raise Unsupported()` (R117, R135). -/
def execNoneColorGray8 (s : State) : Host.Outcome State Fault Refusal := .next (raiseCause .unsupported s)

/-- `CVT.NONE`, COLOR with GRAY16: `raise Unsupported()` (R117, R135). -/
def execNoneColorGray16 (s : State) : Host.Outcome State Fault Refusal := .next (raiseCause .unsupported s)

/-- `CVT.NONE`, COLOR with OTHER: `raise Unsupported()` (R117, R135). -/
def execNoneColorOther (s : State) : Host.Outcome State Fault Refusal := .next (raiseCause .unsupported s)

/-- `CVT.NONE`, DEPTH with BGRA8: `raise Unsupported()` (R117, R135). -/
def execNoneDepthBgra8 (s : State) : Host.Outcome State Fault Refusal := .next (raiseCause .unsupported s)

/-- `CVT.NONE`, DEPTH with GRAY8: `raise Unsupported()` (R117, R135). -/
def execNoneDepthGray8 (s : State) : Host.Outcome State Fault Refusal := .next (raiseCause .unsupported s)

/-- `CVT.NONE`, DEPTH with OTHER: `raise Unsupported()` (R117, R135). -/
def execNoneDepthOther (s : State) : Host.Outcome State Fault Refusal := .next (raiseCause .unsupported s)

/-- `CVT.NONE`, INFRARED with BGRA8: `raise Unsupported()` (R117, R135). -/
def execNoneInfraredBgra8 (s : State) : Host.Outcome State Fault Refusal := .next (raiseCause .unsupported s)

/-- `CVT.NONE`, INFRARED with OTHER: `raise Unsupported()` (R117, R135). -/
def execNoneInfraredOther (s : State) : Host.Outcome State Fault Refusal := .next (raiseCause .unsupported s)

/-- `CVT.NONE`, OTHER with BGRA8: `raise Unsupported()` (R117, R135). -/
def execNoneOtherBgra8 (s : State) : Host.Outcome State Fault Refusal := .next (raiseCause .unsupported s)

/-- `CVT.NONE`, OTHER with GRAY8: `raise Unsupported()` (R117, R135). -/
def execNoneOtherGray8 (s : State) : Host.Outcome State Fault Refusal := .next (raiseCause .unsupported s)

/-- `CVT.NONE`, OTHER with GRAY16: `raise Unsupported()` (R117, R135). -/
def execNoneOtherGray16 (s : State) : Host.Outcome State Fault Refusal := .next (raiseCause .unsupported s)

/-- `CVT.NONE`, OTHER with OTHER: `raise Unsupported()` (R117, R135). -/
def execNoneOtherOther (s : State) : Host.Outcome State Fault Refusal := .next (raiseCause .unsupported s)

end Sys2Proof.Machine
end

