-- ==== Sys2Proof/Machine/Dispatch.lean ====
section
/-! DEFINITION. The one dispatch: every constructor of `Instr` to its meaning. -/

namespace Sys2Proof.Machine

/-- What an instruction does. -/
def exec (i : Instr) (s : State) : Host.Outcome State Fault Refusal :=
  match i with
  | .depth16 w h b sel => Sys2Proof.Machine.execDepth16 w h b sel s
  | .ir16 w h b => Sys2Proof.Machine.execIr16 w h b s
  | .ir8 w h b => Sys2Proof.Machine.execIr8 w h b s
  | .copy w h b => Sys2Proof.Machine.execCopy w h b s
  | .dsrot b => Sys2Proof.Machine.execDsrot b s
  | .null => Sys2Proof.Machine.execNull s
  | .noneColorGray8 => Sys2Proof.Machine.execNoneColorGray8 s
  | .noneColorGray16 => Sys2Proof.Machine.execNoneColorGray16 s
  | .noneColorOther => Sys2Proof.Machine.execNoneColorOther s
  | .noneDepthBgra8 => Sys2Proof.Machine.execNoneDepthBgra8 s
  | .noneDepthGray8 => Sys2Proof.Machine.execNoneDepthGray8 s
  | .noneDepthOther => Sys2Proof.Machine.execNoneDepthOther s
  | .noneInfraredBgra8 => Sys2Proof.Machine.execNoneInfraredBgra8 s
  | .noneInfraredOther => Sys2Proof.Machine.execNoneInfraredOther s
  | .noneOtherBgra8 => Sys2Proof.Machine.execNoneOtherBgra8 s
  | .noneOtherGray8 => Sys2Proof.Machine.execNoneOtherGray8 s
  | .noneOtherGray16 => Sys2Proof.Machine.execNoneOtherGray16 s
  | .noneOtherOther => Sys2Proof.Machine.execNoneOtherOther s
  | .wr r v => Sys2Proof.Machine.execWr r v s
  | .rd r => Sys2Proof.Machine.execRd r s
  | .cvt kind fmt w h b profile absent => Sys2Proof.Machine.execCvt kind fmt w h b profile absent s
  | .wait => Sys2Proof.Machine.execWait s
  | .ack => Sys2Proof.Machine.execAck s

end Sys2Proof.Machine
end

