-- ==== Sys2Proof/Machine/Turn.lean ====
section
/-! DEFINITION. Whose turn it is and what that agent does (R10 (1), U6): everything a step decides before an instruction runs. -/

namespace Sys2Proof.Machine

/-- What a step comes to: run an instruction from a state, or an answer that needs no instruction. -/
inductive Turn
  /-- Run `i` from `s`. -/
  | run (i : Instr) (s : State)
  /-- The step's answer. -/
  | answer (o : Host.Outcome State Fault Refusal)

/-- The agent that moves next: what the schedule says; when it is used up, a busy engine, else the host (log 6). -/
def nextAgent (s : State) : Agent :=
  match s.schedule with
  | g :: _ => g
  | [] => if s.busy then .engine else .host

/-- The state with this turn taken off the schedule. -/
def popSchedule (s : State) : State := { s with schedule := s.schedule.tail }

/-- The command the engine runs: the latched operation, its operands in the descriptor registers (R37, R109). -/
def State.command (s : State) : Instr := commandOf s.op s.desc

/-- The engine's turn: a busy engine runs its command (R109), an idle one does nothing (R152). -/
def engineTurn (s : State) : Turn := if s.busy then .run s.command s else .answer (.next s)

/-- One pending action of the host, already taken off the queue of `s`. -/
def hostAction (e : HostEvent) (s : State) : Turn :=
  match e with
  | .bus x =>
    match decodeBus x with
    | .ok i => .run i s
    | .error why => .answer (.refused (.notARegisterAccess why))
  | .cvt kind fmt w h b profile absent => .run (.cvt kind fmt w h b profile absent) s
  | .wait => .run .wait s
  | .ack => .run .ack s
  | .store a v => .answer (hostStore a v s)
  | .load a => .answer (hostLoad a s)
  | .platform faulting => .answer (platformChange faulting s)
  | .reset => .answer (applyReset s)

/-- The host's turn: its oldest pending action, or nothing. -/
def hostTurn (s : State) : Turn :=
  match s.hostQueue with
  | [] => .answer (.next s)
  | e :: rest => hostAction e { s with hostQueue := rest }

/-- What the next step comes to. -/
def nextTurn (s : State) : Turn :=
  match nextAgent s with
  | .engine => engineTurn (popSchedule s)
  | .host => hostTurn (popSchedule s)

/-- The state with a command's registers loaded and its START just accepted, the engine to move next (R107). -/
def loadCommand (d : Descriptor) (s : State) : State := acceptStart { s with desc := d, schedule := [] }

end Sys2Proof.Machine
end

