-- ==== Sys2Proof/Machine/Step.lean ====
section
/-! DEFINITION. One step of the machine, and how the host places a command where the next step runs it. -/

namespace Sys2Proof.Machine

/-- One step: one agent's turn (R10 (1)). -/
def step (s : State) : Host.Outcome State Fault Refusal :=
  match nextTurn s with
  | .run i s' => exec i s'
  | .answer o => o

/-- The state in which the very next step runs the command whose low `nbits` bits are `w` and whose other bits are 0. The CRR
fetches nothing (R36): the command is put into the descriptor registers and its START accepted (R59, R107; log 9). -/
def State.withFetchWord (s : State) (nbits w : Nat) : State :=
  loadCommand (Descriptor.ofBytes (bytesLE commandBytes (w % 2 ^ nbits))) s

end Sys2Proof.Machine
end

