-- ==== Sys2Proof/Safety.lean ====
section
/-! DEFINITION. What a legal state is (the invariants every step keeps), and what a host and a configuration must meet for a
conversion to be a legal one, in the terms the statements use. -/

namespace Sys2Proof.Machine

/-! ### Legal states -/

/-- The memory is in canonical form. -/
abbrev MemoryCanonical (s : State) : Prop := Memory.wf s.mem = true

/-- Reserved bits of the descriptor hold 0 (R24, R34, R69). -/
abbrev ReservedBitsZero (s : State) : Prop := s.desc.desc0 &&& desc0Mask = s.desc.desc0

/-- BUSY and DONE are never both 1, RESULT is NONE while BUSY, and DONE comes with a result (R23, R107, R118, R141). -/
abbrev StatusLegal (s : State) : Prop :=
  ¬ (s.busy = true ∧ s.done = true) ∧ (s.busy = true → s.result = .none) ∧ (s.done = true → s.result ≠ .none)

/-- While BUSY the latched operation is the one the descriptor registers decode to (R37, R66, R107). -/
abbrev LatchedOp (s : State) : Prop :=
  s.busy = true → s.op = decodeOp s.desc.desc0 s.desc.width s.desc.height

/-- A table whose ready flag is 1 holds exactly the values of the build step (R19, R86). -/
def TablesBuilt (s : State) : Prop :=
  (s.dlutReady = true → s.dlut = buildTable (genDepth s.cfg.palette)) ∧
  (s.ilutReady = true → s.ilut = buildTable (genIr s.cfg.palette))

/-- AOVF comes with a FAULT; nothing logged means a zero log (R31, R32, R33; 90_conflicts.md C12). -/
abbrev LogLegal (s : State) : Prop :=
  (s.log.aovf = true → s.log.lastCause = .fault) ∧
  (s.log.lastCause = .none → s.log.faultAddr = 0 ∧ s.log.logcnt = 0)

/-- A legal state. -/
structure Legal (s : State) : Prop where
  memory   : MemoryCanonical s
  reserved : ReservedBitsZero s
  status   : StatusLegal s
  latched  : LatchedOp s
  tables   : TablesBuilt s
  log      : LogLegal s

/-! ### Legal conversions -/

/-- The host's duties about the two buffers of a conversion (R160, R161, R40, R53): no stride below its row span where there is
more than one row, no address in both footprints, and no footprint over the register file or a device. -/
def HostDuties (cfg : Config) (fin fout : Footprint) : Prop :=
  (1 < fin.rows → fin.span ≤ fin.stride) ∧ (1 < fout.rows → fout.span ≤ fout.stride) ∧
  (∀ a, ¬ (fin.has a = true ∧ fout.has a = true)) ∧
  (∀ r ∈ cfg.notMemory, ∀ a, r.has a = true → fin.has a = false ∧ fout.has a = false)

/-- The first access of a conversion, in the order of R54 and R130, for which `MemOK` is false. -/
def firstFailing (cfg : Config) (op : Op) (w h : Nat) (b : Buffers) : Option Nat :=
  (accessesOf op w h b).find? fun a => !memOK cfg a

/-- The operation, size and buffers of an instruction that transfers pixels. -/
def transferOf : Instr → Option (Op × Nat × Nat × Buffers)
  | .depth16 w h b _ => some (.depth16, w.toNat, h.toNat, b)
  | .ir16 w h b => some (.ir16, w.toNat, h.toNat, b)
  | .ir8 w h b => some (.ir8, w.toNat, h.toNat, b)
  | .copy w h b => some (.copy, w.toNat, h.toNat, b)
  | .dsrot b => some (.dsrot, dsW, dsH, b)
  | _ => none

/-- The state an instruction's transfer works from: its table ensured (R109, R110); no other instruction builds one. -/
def tableEnsured (i : Instr) (s : State) : State :=
  match i with
  | .depth16 _ _ _ _ => ensureDlut s
  | .ir16 _ _ _ => ensureIlut s
  | .ir8 _ _ _ => ensureIlut s
  | _ => s

/-- The twelve rows of `CVT.NONE` (R67). -/
def noneRows : List Instr :=
  [.noneColorGray8, .noneColorGray16, .noneColorOther, .noneDepthBgra8, .noneDepthGray8, .noneDepthOther,
    .noneInfraredBgra8, .noneInfraredOther, .noneOtherBgra8, .noneOtherGray8, .noneOtherGray16, .noneOtherOther]

/-- A pending action of the host that is an access of the register file the spec defines (R21, R105, R106) or one of the
pseudo-instructions (R73, R74): the host's liberties while a conversion runs (R163). -/
def HostEvent.isRegisterOp : HostEvent → Bool
  | .bus x => (decodeBus x).toBool
  | .cvt _ _ _ _ _ _ _ => true
  | .wait => true
  | .ack => true
  | _ => false

/-- The four channels of a Color (R13). -/
def channels : List (Color → Byte) := [Color.a, Color.r, Color.g, Color.b]

/-! ### Legal configurations -/

/-- R6 (d): the sentinel differs from every colour a lookup can return. -/
def SentinelDistinct (cfg : Config) : Prop :=
  ∀ v : Ratio, 0 < v.den →
    getValue (buildTable (genDepth cfg.palette)) v ≠ cfg.invalidColor ∧
    getValue (buildTable (genIr cfg.palette)) v ≠ cfg.invalidColor

/-- A premultiplied Color: no colour channel above alpha (R15). -/
def Premultiplied (c : Color) : Prop := c.r.toNat ≤ c.a.toNat ∧ c.g.toNat ≤ c.a.toNat ∧ c.b.toNat ≤ c.a.toNat

end Sys2Proof.Machine
end

