-- ==== Sys2Proof/WellFormed.lean ====
section
/-! DEFINITION. Which terms of `Instr` an encoding of the spec denotes. -/

namespace Sys2Proof

/-- The one condition of the table that a type does not already carry: `CVT.COPY` is every size but exactly `DS_W` by `DS_H`
(R68, the row's "condition"). -/
def Instr.wf : Instr → Bool
  | .copy w h _ => !(w.toNat == dsW && h.toNat == dsH)
  | _ => true

/-- `i` is a term some encoding of the spec denotes. -/
abbrev Instr.WellFormed (i : Instr) : Prop := i.wf = true

end Sys2Proof
end

