-- ==== Sys2Proof/Certificates/Slice0/Obligations.lean ====
section
/-! DEFINITION. The statements for the provers, one `def Obligations.<Name> : Prop` each. -/

section Slice0Statements

open Sys2Proof Sys2Proof.Machine

/-! ### Encoding and dispatch -/

/-- Eight opcode words written out from R60's bit positions (bit 0 PRESENT, 3:2 KIND, 5:4 FMT) decode to the operation R67
names; every operand word is 0 but WIDTH = 640 and HEIGHT = 480 of the `DSROT` word. Two bus accesses written out from R21
decode to their `WR` and `RD`. The byte layout of a command is the model's (log 9). -/
def Obligations.TableWordsDecode : Prop :=
  decodeTableWord 32 0b100101 = some (.depth16 0 0 ⟨0, 0, 0, 0⟩ .wide) ∧
  decodeTableWord 32 0b101001 = some (.ir16 0 0 ⟨0, 0, 0, 0⟩) ∧
  decodeTableWord 32 0b011001 = some (.ir8 0 0 ⟨0, 0, 0, 0⟩) ∧
  decodeTableWord 32 0b000001 = some (.copy 0 0 ⟨0, 0, 0, 0⟩) ∧
  decodeTableWord 32 0b000000 = some .null ∧
  decodeTableWord 32 0b000101 = some .noneDepthBgra8 ∧
  decodeTableWord 32 0b111001 = some .noneInfraredOther ∧
  decodeTableWord 96 0x1E00000028000000001 = some (.dsrot ⟨0, 0, 0, 0⟩) ∧
  decodeBus ⟨0x00, 4, some 1#32⟩ = .ok (.wr .ctrl 1#32) ∧
  decodeBus ⟨0x04, 4, none⟩ = .ok (.rd .status)

/-- R67: the operation as a function of `DESC0 & 0x3D`, reserved bits having no say, the size deciding between COPY and DSROT only. -/
def Obligations.DispatchByOpcodeWord : Prop :=
  ∀ (d : Word) (w h : BitVec 16),
    (d &&& 1#32 = 0#32 → decodeOp d w h = .null) ∧
    (d &&& 0x3D#32 = 0x01#32 → decodeOp d w h = if w.toNat = 640 ∧ h.toNat = 480 then .dsrot else .copy) ∧
    (d &&& 0x3D#32 = 0x25#32 → decodeOp d w h = .depth16) ∧
    (d &&& 0x3D#32 = 0x19#32 → decodeOp d w h = .ir8) ∧
    (d &&& 0x3D#32 = 0x29#32 → decodeOp d w h = .ir16) ∧
    (∀ v ∈ [0x11#32, 0x21#32, 0x31#32, 0x05#32, 0x15#32, 0x35#32, 0x09#32, 0x39#32, 0x0D#32, 0x1D#32, 0x2D#32, 0x3D#32],
      d &&& 0x3D#32 = v → decodeOp d w h = .none)

/-- Decode and encode agree (R60, R66, R72 to R75): every well-formed instruction that is not a pseudo-instruction is read back
from its encoding; a pseudo-instruction's accesses are, one by one, the host operations it stands for; and whatever a command's
bytes decode to is well formed and is read back from its own encoding. -/
def Obligations.DecodeEncodeAgree : Prop :=
  (∀ i : Instr, i.WellFormed → expansion i = none → decodeEncoding (encode i) = .ok i) ∧
  (∀ (i : Instr) (is : List Instr), expansion i = some is →
    ∃ xs, encode i = .bus xs ∧ xs.map decodeBus = is.map Except.ok) ∧
  (∀ (bs : List Byte) (i : Instr), decode bs = .ok i → i.WellFormed ∧ decodeEncoding (encode i) = .ok i)

/-- R69, R59: there is no illegal command. Every 32 bytes denote a conversion; fewer are refused by name (log 9). -/
def Obligations.EveryCommandDecodes : Prop :=
  ∀ bs : List Byte,
    (32 ≤ bs.length → ∃ i, decode bs = .ok i ∧ i.WellFormed ∧ ((transferOf i).isSome ∨ i = .null ∨ i ∈ noneRows)) ∧
    (bs.length < 32 → decode bs = .error .truncated)

/-- R21, R34: the register map, location by location, and the accesses that are none: not 32 bits wide, misaligned, or at or
above 0x100. -/
def Obligations.RegisterMap : Prop :=
  (∀ p ∈ [(0x00, Reg.ctrl), (0x04, .status), (0x08, .desc0), (0x0C, .width), (0x10, .height), (0x14, .inBase),
      (0x18, .inStride), (0x1C, .outBase), (0x20, .outStride), (0x24, .profile), (0x28, .diag), (0x2C, .faultAddr),
      (0x30, .logcnt)],
    ∀ v : Word, decodeBus ⟨p.1, 4, some v⟩ = .ok (.wr p.2 v) ∧ decodeBus ⟨p.1, 4, none⟩ = .ok (.rd p.2)) ∧
  (∀ (n : Fin 51) (v : Word), decodeBus ⟨0x34 + 4 * n.val, 4, some v⟩ = .ok (.wr (.reserved n) v) ∧
    decodeBus ⟨0x34 + 4 * n.val, 4, none⟩ = .ok (.rd (.reserved n))) ∧
  (∀ x : BusAccess, (∃ i, decodeBus x = .ok i) ↔ x.size = 4 ∧ x.offset % 4 = 0 ∧ x.offset < 0x100)

/-! ### Steps -/

/-- R36, R37, R107, R109: when BUSY and it is the engine's turn, a step is `exec` of the command the descriptor registers hold
(the latched operation being theirs), with one turn taken off the schedule (the
schedule is the model's form, log 6). -/
def Obligations.StepRunsLatchedCommand : Prop :=
  ∀ s : State, s.busy = true → nextAgent s = .engine → LatchedOp s →
    step s = exec s.desc.command { s with schedule := s.schedule.tail }

/-- R10, R105, R106, R73, R74: on the host's turn a step takes the host's oldest pending action; a bus access that decodes is
`exec` of its `WR` or `RD`, one that does not is refused (U8), a pseudo-instruction is `exec` of it, a byte access
is that access, and a change of `MemOK` is refused (U14). The queue of pending actions is the model's form (log 6). -/
def Obligations.StepRunsHostOperation : Prop :=
  ∀ (s : State) (e : HostEvent) (rest : List HostEvent), nextAgent s = .host → s.hostQueue = e :: rest →
    (∀ x i, e = .bus x → decodeBus x = .ok i →
      step s = exec i { s with schedule := s.schedule.tail, hostQueue := rest }) ∧
    (∀ x why, e = .bus x → decodeBus x = .error why → step s = .refused (.notARegisterAccess why)) ∧
    (∀ k f w h b p absent, e = .cvt k f w h b p absent →
      step s = exec (.cvt k f w h b p absent) { s with schedule := s.schedule.tail, hostQueue := rest }) ∧
    (e = .wait → step s = exec .wait { s with schedule := s.schedule.tail, hostQueue := rest }) ∧
    (e = .ack → step s = exec .ack { s with schedule := s.schedule.tail, hostQueue := rest }) ∧
    (∀ a v, e = .store a v → step s = hostStore a v { s with schedule := s.schedule.tail, hostQueue := rest }) ∧
    (∀ a, e = .load a → step s = hostLoad a { s with schedule := s.schedule.tail, hostQueue := rest }) ∧
    (∀ fs, e = .platform fs → step s = .refused .memOkChanged)

/-- R152, R36: an idle engine's turn and a turn of a host with nothing to do change no state (one turn of the
schedule, the model's form, log 6, passes). -/
def Obligations.IdleTurnsChangeNothing : Prop :=
  ∀ s : State, (nextAgent s = .engine ∧ s.busy = false) ∨ (nextAgent s = .host ∧ s.hostQueue = []) →
    step s = .next { s with schedule := s.schedule.tail }

/-- The model's placing of a command (log 9): the very next step runs exactly the instruction the table word decodes to. -/
def Obligations.PlacedCommandRuns : Prop :=
  ∀ (s : State) (nbits w : Nat) (i : Instr), decodeTableWord nbits w = some i →
    i.WellFormed ∧ (s.withFetchWord nbits w).busy = true ∧
    step (s.withFetchWord nbits w) = exec i (s.withFetchWord nbits w)

/-! ### Reset -/

/-- R39, R154: right after reset every register reads 0, the engine is idle and neither table is ready. That memory lists
nothing is the model's choice (log 3). -/
def Obligations.ResetState : Prop :=
  (∀ r : Reg, exec (.rd r) State.reset = .next { State.reset with readData := 0#32 }) ∧
  State.reset.busy = false ∧ State.reset.dlutReady = false ∧ State.reset.ilutReady = false ∧ State.reset.mem = []

/-- R153, R154: the external reset of an idle CRR clears every register and both ready flags, and leaves memory, the
configuration and the host's own pending actions alone. -/
def Obligations.ResetWhileIdle : Prop :=
  ∀ (s : State) (rest : List HostEvent), s.busy = false → nextAgent s = .host → s.hostQueue = .reset :: rest →
    ∃ t, step s = .next t ∧ (∀ r, readReg r t = 0#32) ∧ t.busy = false ∧ t.dlutReady = false ∧ t.ilutReady = false ∧
      t.mem = s.mem ∧ t.cfg = s.cfg ∧ t.hostQueue = rest ∧ t.schedule = s.schedule.tail

/-- R155: a reset while BUSY abandons the conversion: every register 0 (BUSY, DONE, RESULT, the log), and every byte outside the
output footprint kept; the bytes inside are the model's free values (log 8). -/
def Obligations.ResetWhileBusy : Prop :=
  ∀ (s : State) (rest : List HostEvent), s.busy = true → nextAgent s = .host → s.hostQueue = .reset :: rest →
    HostDuties s.cfg s.inFootprint s.outFootprint →
    ∃ t, step s = .next t ∧ (∀ r, readReg r t = 0#32) ∧ t.busy = false ∧ t.dlutReady = false ∧ t.ilutReady = false ∧
      t.cfg = s.cfg ∧ t.hostQueue = rest ∧ ∀ a, s.outFootprint.has a = false → Memory.get t.mem a = Memory.get s.mem a

/-! ### Register operations -/

/-- R105, R107, R108: the bus access that is a `WR`, and its whole effect, register by register; nothing else of the state
changes, but the model's own count of accepted STARTs, of which nothing is said here (log 4). -/
def Obligations.WriteEffect : Prop :=
  ∀ (v : Word) (s : State),
    (∀ r : Reg, decodeBus ⟨r.offset, 4, some v⟩ = .ok (.wr r v)) ∧
    (v.getLsbD 0 = false → exec (.wr .ctrl v) s = .next s) ∧
    (v.getLsbD 0 = true → s.busy = false → ∃ n, exec (.wr .ctrl v) s =
      .next { s with busy := true, done := false, result := .none
                     op := decodeOp s.desc.desc0 s.desc.width s.desc.height, row := 0, col := 0, started := n }) ∧
    (v.getLsbD 0 = true → s.busy = true → exec (.wr .ctrl v) s = .next { s with dropped := true }) ∧
    exec (.wr .status v) s =
      .next { s with done := if v.getLsbD 1 = true then false else s.done
                     dropped := if v.getLsbD 12 = true then false else s.dropped } ∧
    (s.busy = true → ∀ r, r ≠ .ctrl → r ≠ .status → exec (.wr r v) s = .next s) ∧
    (s.busy = false →
      exec (.wr .desc0 v) s = .next { s with desc := { s.desc with desc0 := v &&& 0x3D#32 } } ∧
      exec (.wr .width v) s = .next { s with desc := { s.desc with width := BitVec.ofNat 16 v.toNat } } ∧
      exec (.wr .height v) s = .next { s with desc := { s.desc with height := BitVec.ofNat 16 v.toNat } } ∧
      exec (.wr .inBase v) s = .next { s with desc := { s.desc with bufs := { s.desc.bufs with inBase := v } } } ∧
      exec (.wr .inStride v) s = .next { s with desc := { s.desc with bufs := { s.desc.bufs with inStride := v } } } ∧
      exec (.wr .outBase v) s = .next { s with desc := { s.desc with bufs := { s.desc.bufs with outBase := v } } } ∧
      exec (.wr .outStride v) s = .next { s with desc := { s.desc with bufs := { s.desc.bufs with outStride := v } } } ∧
      exec (.wr .profile v) s = .next { s with desc := { s.desc with profile := BitVec.ofNat 1 v.toNat } }) ∧
    exec (.wr .diag v) s = .next s ∧ exec (.wr .faultAddr v) s = .next s ∧ exec (.wr .logcnt v) s = .next s ∧
    ∀ n, exec (.wr (.reserved n) v) s = .next s

/-- R24 to R30, R34: what a descriptor register reads as after a write while idle: the written value with its reserved bits 0;
every other register reads as before. -/
def Obligations.WriteThenRead : Prop :=
  ∀ p ∈ [(Reg.desc0, 0x0000003D#32), (.width, 0x0000FFFF#32), (.height, 0x0000FFFF#32), (.inBase, 0xFFFFFFFF#32),
      (.inStride, 0xFFFFFFFF#32), (.outBase, 0xFFFFFFFF#32), (.outStride, 0xFFFFFFFF#32), (.profile, 0x00000001#32)],
    ∀ (v : Word) (s : State), s.busy = false →
      ∃ t, exec (.wr p.1 v) s = .next t ∧ readReg p.1 t = v &&& p.2 ∧ ∀ r, r ≠ p.1 → readReg r t = readReg r s

/-- R106: the bus access that is an `RD`, the value of `RD`, register by register, and that nothing but what the host received changes. The field `readData`
that holds the received word is the model's (log 7). -/
def Obligations.ReadEffect : Prop :=
  ∀ s : State,
    (∀ r, decodeBus ⟨r.offset, 4, none⟩ = .ok (.rd r) ∧ exec (.rd r) s = .next { s with readData := readReg r s }) ∧
    readReg .ctrl s = 0#32 ∧
    (readReg .status s).toNat =
      s.dropped.toNat * 4096 + s.ilutReady.toNat * 512 + s.dlutReady.toNat * 256 +
        (match s.result with | .none => 0 | .ok => 1 | .null => 2 | .unsupported => 3 | .fault => 4) * 16 +
        s.done.toNat * 2 + s.busy.toNat ∧
    readReg .desc0 s = s.desc.desc0 &&& 0x3D#32 ∧
    (readReg .width s).toNat = s.desc.width.toNat ∧ (readReg .height s).toNat = s.desc.height.toNat ∧
    readReg .inBase s = s.desc.bufs.inBase ∧ readReg .inStride s = s.desc.bufs.inStride ∧
    readReg .outBase s = s.desc.bufs.outBase ∧ readReg .outStride s = s.desc.bufs.outStride ∧
    (readReg .profile s).toNat = s.desc.profile.toNat ∧
    (readReg .diag s).toNat =
      s.log.aovf.toNat * 256 + (match s.log.lastCause with | .none => 0 | .unsupported => 3 | .fault => 4) ∧
    readReg .faultAddr s = s.log.faultAddr ∧ readReg .logcnt s = s.log.logcnt ∧ ∀ n, readReg (.reserved n) s = 0#32

/-- R73: `CVT` puts its register writes, in R73's order, before everything else the host has pending; that a pseudo-instruction
is carried out as queued register writes is the model's form (log 6). -/
def Obligations.CvtExpands : Prop :=
  ∀ k ∈ [(Kind.color, 0#32), (.depth, 1#32), (.infrared, 2#32), (.other, 3#32)],
  ∀ f ∈ [(Fmt.bgra8, 0#32), (.gray8, 1#32), (.gray16, 2#32), (.other, 3#32)],
  ∀ (w h : Word) (b : Buffers) (profile : Option Profile) (absent : Bool) (s : State),
    exec (.cvt k.1 f.1 w h b profile absent) s =
      .next { s with hostQueue :=
        [.bus ⟨0x08, 4, some ((if absent then 0#32 else 1#32) ||| k.2 <<< 2 ||| f.2 <<< 4)⟩, .bus ⟨0x0C, 4, some w⟩,
          .bus ⟨0x10, 4, some h⟩, .bus ⟨0x14, 4, some b.inBase⟩, .bus ⟨0x18, 4, some b.inStride⟩,
          .bus ⟨0x1C, 4, some b.outBase⟩, .bus ⟨0x20, 4, some b.outStride⟩] ++
        (match profile with
          | none => []
          | some .wide => [.bus ⟨0x24, 4, some 0#32⟩]
          | some .narrow => [.bus ⟨0x24, 4, some 1#32⟩]) ++
        [.bus ⟨0x00, 4, some 1#32⟩] ++ s.hostQueue }

/-- R73, R105, R107: run from an idle CRR, a `CVT` ends with the descriptor holding its arguments and the START accepted; one
step for the `CVT` and one for each queued write is the model's form (log 6). -/
def Obligations.CvtProgramsAndStarts : Prop :=
  ∀ (s : State) (rest : List HostEvent) (k : Kind) (f : Fmt) (w h : Word) (b : Buffers) (profile : Option Profile)
    (absent : Bool), s.busy = false → s.schedule = [] → s.hostQueue = .cvt k f w h b profile absent :: rest →
    ∃ t, core.run (if profile.isSome then 10 else 9) s = .next t ∧ t.busy = true ∧ t.done = false ∧ t.result = .none ∧
      presentOf t.desc.desc0 = (!absent) ∧ kindOf t.desc.desc0 = k ∧ fmtOf t.desc.desc0 = f ∧
      t.desc.width.toNat = w.toNat % 65536 ∧ t.desc.height.toNat = h.toNat % 65536 ∧ t.desc.bufs = b ∧
      t.desc.profile = (match profile with | some .narrow => 1#1 | some .wide => 0#1 | none => s.desc.profile) ∧
      t.op = decodeOp t.desc.desc0 t.desc.width t.desc.height ∧
      t.mem = s.mem ∧ t.log = s.log ∧ t.dropped = s.dropped ∧ t.dlutReady = s.dlutReady ∧ t.ilutReady = s.ilutReady ∧
      t.hostQueue = rest

/-- R74: one turn of `WAIT` reads STATUS, waits on while BUSY and is over otherwise; `ACK` clears DONE and DROPPED and nothing
else. That a waiting host polls again by queueing itself is the model's form (log 6). -/
def Obligations.WaitAndAck : Prop :=
  ∀ s : State,
    (s.busy = true → exec .wait s =
      .next { s with readData := readReg .status s, hostQueue := .wait :: s.hostQueue }) ∧
    (s.busy = false → exec .wait s = .next { s with readData := readReg .status s }) ∧
    exec .ack s = .next { s with done := false, dropped := false }

/-- R57, R159, U5: the host's byte accesses of ordinary memory: refused for a buffer the engine owns (any write of a footprint,
any read of the output footprint, while BUSY), else a plain write or read of that one byte. The
model's choices: an address at or above 2^32, which names no byte (R41), is a fault (log 14); `MemOK` is not asked of the host's
accesses (log 18); the byte read is kept in `loadData` (log 7). -/
def Obligations.HostMemoryAccess : Prop :=
  ∀ (a : Nat) (v : Byte) (s : State),
    (∀ base, s.cfg.regBase = some base → a < base ∨ base + 256 ≤ a) → (∀ r ∈ s.cfg.devices, r.has a = false) →
    (2 ^ 32 ≤ a → hostStore a v s = .fault (.noSuchByte a) ∧ hostLoad a s = .fault (.noSuchByte a)) ∧
    (a < 2 ^ 32 →
      (s.busy = true ∧ (s.inFootprint.has a = true ∨ s.outFootprint.has a = true) →
        hostStore a v s = .refused .bufferTouchedWhileBusy) ∧
      (s.busy = false ∨ (s.inFootprint.has a = false ∧ s.outFootprint.has a = false) →
        ∃ m, hostStore a v s = .next { s with mem := m } ∧ Memory.get m a = v ∧
          ∀ x, x ≠ a → Memory.get m x = Memory.get s.mem x) ∧
      (s.busy = true ∧ s.outFootprint.has a = true → hostLoad a s = .refused .bufferTouchedWhileBusy) ∧
      (s.busy = false ∨ s.outFootprint.has a = false →
        hostLoad a s = .next { s with loadData := Memory.get s.mem a }))

/-! ### Conversions that end without an image

In this part and the next an end leaves `op`, `row` and `col` as they were: the model's choice (log 2), for the spec leaves them
unspecified while idle. -/

/-- R116, R134, R141: a descriptor with PRESENT = 0, whatever else it holds, is `CVT.NULL`, which records RESULT = NULL, ends the
conversion and changes nothing else: no log, no table, no memory (that `op`, `row` and `col` stay is log 2). -/
def Obligations.NullConversion : Prop :=
  (∀ d : Descriptor, d.desc0 &&& 1#32 = 0#32 → d.command = .null) ∧
  ∀ s : State, exec .null s = .next { s with result := .null, busy := false, done := true }

/-- R117, R135, R141: a present descriptor whose kind and format select no transform is one of the twelve `CVT.NONE` rows, each of which records
RESULT = UNSUPPORTED and the log, ends the conversion and changes nothing else (FAULT_ADDR, tables, memory; `op`, `row` and `col`
by log 2). -/
def Obligations.UnsupportedConversion : Prop :=
  (∀ d : Descriptor, presentOf d.desc0 = true →
    (kindOf d.desc0, fmtOf d.desc0) ∉
      [(Kind.color, Fmt.bgra8), (.depth, .gray16), (.infrared, .gray8), (.infrared, .gray16)] → d.command ∈ noneRows) ∧
  ∀ i ∈ noneRows, ∀ s : State, exec i s =
    .next { s with result := .unsupported, busy := false, done := true
                   log := { lastCause := .unsupported, aovf := false, faultAddr := s.log.faultAddr
                            logcnt := s.log.logcnt + 1 } }

/-! ### Conversions that transfer -/

/-- R112, R95, R93, R118, R120: `CVT.DEPTH16` completes when the host's duties are kept and no access fails: the state is the
one before with the depth table ensured, DONE, RESULT = OK and a new memory; pixel `(x, r)` of the output is the depth pixel of
sample `(x, r)`; no byte outside the output footprint changes (that `op`, `row` and `col` stay is log 2). -/
def Obligations.Depth16Completes : Prop :=
  ∀ (w h : BitVec 16) (b : Buffers) (sel : Profile) (s : State),
    HostDuties s.cfg (inputFootprint .depth16 w.toNat h.toNat b) (outputFootprint .depth16 w.toNat h.toNat b) →
    firstFailing s.cfg .depth16 w.toNat h.toNat b = none →
    ∃ m, exec (.depth16 w h b sel) s =
        .next { ensureDlut s with mem := m, busy := false, done := true, result := .ok } ∧
      (∀ r x, r < h.toNat → x < w.toNat →
        readLE m (b.outBase.toNat + r * b.outStride.toNat + 4 * x) 4 =
          (depthPixel s.cfg (ensureDlut s).dlut ⟨1, 1000⟩
            (match sel with | .wide => ⟨1, 5⟩ | .narrow => ⟨1, 2⟩) (match sel with | .wide => ⟨1, 1⟩ | .narrow => ⟨4, 1⟩)
            (readLE s.mem (b.inBase.toNat + r * b.inStride.toNat + 2 * x) 2)).pack.toNat) ∧
      ∀ a, (outputFootprint .depth16 w.toNat h.toNat b).has a = false → Memory.get m a = Memory.get s.mem a

/-- R113, R97, R93, R118, R120: `CVT.IR16`, as `Depth16Completes`, with the infrared table and a full scale of 65535
(`op`, `row` and `col` by log 2). -/
def Obligations.Ir16Completes : Prop :=
  ∀ (w h : BitVec 16) (b : Buffers) (s : State),
    HostDuties s.cfg (inputFootprint .ir16 w.toNat h.toNat b) (outputFootprint .ir16 w.toNat h.toNat b) →
    firstFailing s.cfg .ir16 w.toNat h.toNat b = none →
    ∃ m, exec (.ir16 w h b) s = .next { ensureIlut s with mem := m, busy := false, done := true, result := .ok } ∧
      (∀ r x, r < h.toNat → x < w.toNat →
        readLE m (b.outBase.toNat + r * b.outStride.toNat + 4 * x) 4 =
          (infraredPixel s.cfg (ensureIlut s).ilut 65535
            (readLE s.mem (b.inBase.toNat + r * b.inStride.toNat + 2 * x) 2)).pack.toNat) ∧
      ∀ a, (outputFootprint .ir16 w.toNat h.toNat b).has a = false → Memory.get m a = Memory.get s.mem a

/-- R114, R99, R93, R118, R120: `CVT.IR8`, as `Ir16Completes`, with one byte a sample and a full scale of 255 (`op`, `row` and `col`
by log 2). -/
def Obligations.Ir8Completes : Prop :=
  ∀ (w h : BitVec 16) (b : Buffers) (s : State),
    HostDuties s.cfg (inputFootprint .ir8 w.toNat h.toNat b) (outputFootprint .ir8 w.toNat h.toNat b) →
    firstFailing s.cfg .ir8 w.toNat h.toNat b = none →
    ∃ m, exec (.ir8 w h b) s = .next { ensureIlut s with mem := m, busy := false, done := true, result := .ok } ∧
      (∀ r x, r < h.toNat → x < w.toNat →
        readLE m (b.outBase.toNat + r * b.outStride.toNat + 4 * x) 4 =
          (infraredPixel s.cfg (ensureIlut s).ilut 255
            (Memory.get s.mem (b.inBase.toNat + r * b.inStride.toNat + x)).toNat).pack.toNat) ∧
      ∀ a, (outputFootprint .ir8 w.toNat h.toNat b).has a = false → Memory.get m a = Memory.get s.mem a

/-- R115, R101, R118, R120: `CVT.COPY` completes with every byte of the output row spans equal to the input's byte, and no other
byte, table or register but BUSY, DONE and RESULT changed (that `op`, `row` and `col` stay is log 2). -/
def Obligations.CopyCompletes : Prop :=
  ∀ (w h : BitVec 16) (b : Buffers) (s : State),
    HostDuties s.cfg (inputFootprint .copy w.toNat h.toNat b) (outputFootprint .copy w.toNat h.toNat b) →
    firstFailing s.cfg .copy w.toNat h.toNat b = none →
    ∃ m, exec (.copy w h b) s = .next { s with mem := m, busy := false, done := true, result := .ok } ∧
      (∀ r j, r < h.toNat → j < 4 * w.toNat →
        Memory.get m (b.outBase.toNat + r * b.outStride.toNat + j) =
          Memory.get s.mem (b.inBase.toNat + r * b.inStride.toNat + j)) ∧
      ∀ a, (outputFootprint .copy w.toNat h.toNat b).has a = false → Memory.get m a = Memory.get s.mem a

/-- R126 to R129: `CVT.DSROT` completes with output pixel `(x/2, 239 - y/2)` the opaque grey of the floored average of the first
bytes of the block at `(x, y)`, 240 rows of 320 pixels, and nothing else changed (`op`, `row` and `col` by log 2). -/
def Obligations.DsrotCompletes : Prop :=
  ∀ (b : Buffers) (s : State),
    HostDuties s.cfg (inputFootprint .dsrot 640 480 b) (outputFootprint .dsrot 640 480 b) →
    firstFailing s.cfg .dsrot 640 480 b = none →
    ∃ m, exec (.dsrot b) s = .next { s with mem := m, busy := false, done := true, result := .ok } ∧
      (∀ xb yb, xb < 320 → yb < 240 →
        let tap : Nat → Nat → Nat := fun x y => (Memory.get s.mem (b.inBase.toNat + y * b.inStride.toNat + 4 * x)).toNat
        let g : Nat := (tap (2 * xb) (2 * yb) + tap (2 * xb + 1) (2 * yb) + tap (2 * xb) (2 * yb + 1) +
          tap (2 * xb + 1) (2 * yb + 1)) / 4
        let o : Nat := b.outBase.toNat + (239 - yb) * b.outStride.toNat + 4 * xb
        (Memory.get m o).toNat = g ∧ (Memory.get m (o + 1)).toNat = g ∧ (Memory.get m (o + 2)).toNat = g ∧
          (Memory.get m (o + 3)).toNat = 0xFF) ∧
      ∀ a, (outputFootprint .dsrot 640 480 b).has a = false → Memory.get m a = Memory.get s.mem a

/-- R136, R141, R142: a conversion whose first failing access is at `a` ends in FAULT: RESULT, DIAG, FAULT_ADDR and LOGCNT record
it, a table it ensured stays ready, every byte outside the output footprint is kept, and nothing else changes but the model's
own count of free values (log 8); that `op`, `row` and `col` stay is log 2. -/
def Obligations.TransferFaults : Prop :=
  ∀ (i : Instr) (op : Op) (w h : Nat) (b : Buffers) (s : State) (a : Nat), transferOf i = some (op, w, h, b) →
    HostDuties s.cfg (inputFootprint op w h b) (outputFootprint op w h b) → firstFailing s.cfg op w h b = some a →
    ∃ m, exec i s =
        .next { tableEnsured i s with
                  mem := m, freeCount := s.freeCount + 1, result := .fault, busy := false, done := true
                  log := { lastCause := .fault, aovf := decide (2 ^ 32 ≤ a), faultAddr := BitVec.ofNat 32 a
                           logcnt := s.log.logcnt + 1 } } ∧
      ∀ x, (outputFootprint op w h b).has x = false → Memory.get m x = Memory.get s.mem x

/-- U1, U2, U3 (R160, R161, R40, R53): a conversion is refused exactly when the host broke a duty about its buffers, and then
under the name of a duty. -/
def Obligations.RefusedExactlyOnMisuse : Prop :=
  ∀ (i : Instr) (op : Op) (w h : Nat) (b : Buffers) (s : State), transferOf i = some (op, w, h, b) →
    (¬ HostDuties s.cfg (inputFootprint op w h b) (outputFootprint op w h b) ↔ ∃ why, exec i s = .refused why) ∧
    ∀ why, exec i s = .refused why → why ∈ [Refusal.strideBelowRowSpan, .footprintsOverlap, .footprintNotMemory]

/-- R48: the two footprints, address by address, and that the byte accesses of a conversion are exactly theirs. -/
def Obligations.AccessesAreTheFootprints : Prop :=
  (∀ p ∈ [(Op.depth16, 2), (.ir16, 2), (.ir8, 1), (.copy, 4)], ∀ (w h : Nat) (b : Buffers) (a : Nat),
    ((inputFootprint p.1 w h b).has a = true ↔
      ∃ r j, r < h ∧ j < w * p.2 ∧ a = b.inBase.toNat + r * b.inStride.toNat + j) ∧
    ((outputFootprint p.1 w h b).has a = true ↔
      ∃ r j, r < h ∧ j < 4 * w ∧ a = b.outBase.toNat + r * b.outStride.toNat + j)) ∧
  (∀ (b : Buffers) (a : Nat),
    ((inputFootprint .dsrot 640 480 b).has a = true ↔
      ∃ r c, r < 480 ∧ c < 640 ∧ a = b.inBase.toNat + r * b.inStride.toNat + 4 * c) ∧
    ((outputFootprint .dsrot 640 480 b).has a = true ↔
      ∃ r j, r < 240 ∧ j < 4 * 320 ∧ a = b.outBase.toNat + r * b.outStride.toNat + j)) ∧
  (∀ (op : Op) (w h : Nat) (b : Buffers) (a : Nat), (op = .dsrot → w = 640 ∧ h = 480) →
    (a ∈ accessesOf op w h b ↔ (inputFootprint op w h b).has a = true ∨ (outputFootprint op w h b).has a = true)) ∧
  ∀ (w h : Nat) (b : Buffers) (a : Nat), ∀ op ∈ [Op.null, .none],
    (inputFootprint op w h b).has a = false ∧ (outputFootprint op w h b).has a = false

/-- R110, R86: which instruction builds which table, and with what: the depth table for `CVT.DEPTH16`, the infrared one for
`CVT.IR8` and `CVT.IR16`, once, whatever the conversion's end; no other instruction touches a table. -/
def Obligations.TablesBuiltOnce : Prop :=
  ∀ (i : Instr) (s t : State), exec i s = .next t →
    ((∃ w h b sel, i = .depth16 w h b sel) →
      t.dlutReady = true ∧ t.dlut = (if s.dlutReady then s.dlut else buildTable (genDepth s.cfg.palette))) ∧
    ((∃ w h b, i = .ir16 w h b ∨ i = .ir8 w h b) →
      t.ilutReady = true ∧ t.ilut = (if s.ilutReady then s.ilut else buildTable (genIr s.cfg.palette))) ∧
    (¬ (∃ w h b sel, i = .depth16 w h b sel) → t.dlutReady = s.dlutReady ∧ t.dlut = s.dlut) ∧
    (¬ (∃ w h b, i = .ir16 w h b ∨ i = .ir8 w h b) → t.ilutReady = s.ilutReady ∧ t.ilut = s.ilut)

/-- R119: a conversion of a frame of no width or no height accesses nothing, ensures its table and ends OK, whatever its buffers
and `MemOK`; for `DSROT` the size is 640 by 480 and the case is empty. That `op`, `row` and `col` stay is log 2. -/
def Obligations.EmptyFramesComplete : Prop :=
  ∀ (i : Instr) (op : Op) (w h : Nat) (b : Buffers) (s : State), transferOf i = some (op, w, h, b) →
    w = 0 ∨ h = 0 → exec i s = .next { tableEnsured i s with busy := false, done := true, result := .ok }

/-! ### Invariants and rules over all instructions -/

/-- The state after reset is legal (memory canonical, reserved bits 0, status and log consistent, tables as built). -/
def Obligations.ResetIsLegal : Prop := Legal State.reset

/-- Every step keeps a state legal: canonical memory, reserved bits 0 (R34), BUSY and DONE never both 1 (R23), the latched
operation that of the descriptor while BUSY (R37), ready tables exactly as built (R19), a consistent log (R31). -/
def Obligations.StepKeepsLegal : Prop :=
  ∀ s t : State, Legal s → step s = .next t → Legal t

/-- R123, R158, R57: while BUSY, a step that is no reset keeps the whole descriptor, and either the conversion goes on (same
operation, no byte of either footprint changed) or the engine ended it, DONE with a result. -/
def Obligations.BusyUntilTheEngineEnds : Prop :=
  ∀ s t : State, s.busy = true → step s = .next t → (¬ ∃ rest, nextAgent s = .host ∧ s.hostQueue = .reset :: rest) →
    t.desc = s.desc ∧ t.cfg = s.cfg ∧
    ((t.busy = true ∧ t.op = s.op ∧ nextAgent s = .host ∧
        ∀ a, s.inFootprint.has a = true ∨ s.outFootprint.has a = true → Memory.get t.mem a = Memory.get s.mem a) ∨
      (t.busy = false ∧ t.done = true ∧ t.result ≠ .none ∧ nextAgent s = .engine))

/-- R167: whatever register operations the host has pending and however the rest of the schedule interleaves them, a started
conversion whose host kept its duties ends within one turn more than the schedule is long; the schedule
as a finite list is the model's form (log 6), and no access hangs the bus in the model, `MemOK` being total (log 12). -/
def Obligations.EveryConversionEnds : Prop :=
  ∀ s : State, s.busy = true → LatchedOp s → HostDuties s.cfg s.inFootprint s.outFootprint →
    (∀ e ∈ s.hostQueue, e.isRegisterOp = true) →
    ∃ n t, n ≤ s.schedule.length + 1 ∧ core.run n s = .next t ∧ t.busy = false ∧ t.done = true ∧ t.result ≠ .none ∧
      t.desc = s.desc

/-- R20, R86, R153: only a reset clears a ready flag or changes a ready table; a table becomes ready only on the engine's turn and
then holds the build's values. -/
def Obligations.ReadyTablesNeverChange : Prop :=
  ∀ s t : State, step s = .next t → (¬ ∃ rest, nextAgent s = .host ∧ s.hostQueue = .reset :: rest) →
    (s.dlutReady = true → t.dlutReady = true ∧ t.dlut = s.dlut) ∧
    (s.ilutReady = true → t.ilutReady = true ∧ t.ilut = s.ilut) ∧
    (s.dlutReady = false → t.dlutReady = true →
      nextAgent s = .engine ∧ t.dlut = buildTable (genDepth s.cfg.palette)) ∧
    (s.ilutReady = false → t.ilutReady = true →
      nextAgent s = .engine ∧ t.ilut = buildTable (genIr s.cfg.palette))

/-- R140, R133: a conversion reports exactly one of four results, tested in the order NULL, UNSUPPORTED, FAULT. -/
def Obligations.OneResultPerConversion : Prop :=
  ∀ s : State, s.busy = true → nextAgent s = .engine → LatchedOp s → HostDuties s.cfg s.inFootprint s.outFootprint →
    ∃ t, step s = .next t ∧ t.busy = false ∧ t.done = true ∧
      t.result =
        if presentOf s.desc.desc0 = false then .null
        else if s.op = .none then .unsupported
        else if (firstFailing s.cfg s.op s.desc.width.toNat s.desc.height.toNat s.desc.bufs).isSome then .fault
        else .ok

/-- R33, R139: the log is written by UNSUPPORTED and FAULT ends alone, LOGCNT growing by one, FAULT_ADDR by FAULT alone. -/
def Obligations.LogWrittenByLoggedEndsOnly : Prop :=
  ∀ (i : Instr) (s t : State), exec i s = .next t →
    (i ∈ noneRows ∧ t.result = .unsupported ∧
      t.log = { lastCause := .unsupported, aovf := false, faultAddr := s.log.faultAddr, logcnt := s.log.logcnt + 1 }) ∨
    ((transferOf i).isSome ∧ t.result = .fault ∧ ∃ a, t.log =
      { lastCause := .fault, aovf := decide (2 ^ 32 ≤ a), faultAddr := BitVec.ofNat 32 a, logcnt := s.log.logcnt + 1 }) ∨
    (i ∉ noneRows ∧ ((transferOf i).isSome → t.result = .ok) ∧ t.log = s.log)

/-- R139, R143: the log has no effect: with any other log, an instruction that does not read it does the same and changes
everything else the same. -/
def Obligations.LogHasNoEffect : Prop :=
  ∀ (i : Instr) (s t : State) (l : Log), i ∉ [Instr.rd .diag, .rd .faultAddr, .rd .logcnt] → exec i s = .next t →
    ∃ l', exec i { s with log := l } = .next { t with log := l' }

/-- R93, R104, R50: the image depends on the input footprint alone: two conversions in one configuration whose memories agree on
it end with equal output footprints (so neither padding, nor the old output, nor, for DSROT, the G, R and A bytes matter). -/
def Obligations.ImageDependsOnInputFootprintOnly : Prop :=
  ∀ (i : Instr) (op : Op) (w h : Nat) (b : Buffers) (s s' t t' : State), transferOf i = some (op, w, h, b) →
    s.cfg = s'.cfg → TablesBuilt s → TablesBuilt s' →
    (∀ a, (inputFootprint op w h b).has a = true → Memory.get s.mem a = Memory.get s'.mem a) →
    exec i s = .next t → exec i s' = .next t' → t.result = .ok →
    t'.result = .ok ∧ ∀ a, (outputFootprint op w h b).has a = true → Memory.get t.mem a = Memory.get t'.mem a

/-- R53: a conversion that ended OK is idempotent: run again, it changes nothing at all (`op`, `row` and `col` by log 2). -/
def Obligations.ConversionIsIdempotent : Prop :=
  ∀ (i : Instr) (s t : State), MemoryCanonical s → (transferOf i).isSome → exec i s = .next t → t.result = .ok →
    exec i t = .next t

/-- R16, R18, R154, R47: no step changes a parameter; the `MemOK` of a conversion is fixed from its accepted START to the next
one (that conversions are numbered by accepted STARTs is the model's form, log 4). -/
def Obligations.ConfigurationIsConstant : Prop :=
  ∀ s t : State, step s = .next t →
    t.env = s.env ∧ t.cfg.palette = s.cfg.palette ∧ t.cfg.invalidColor = s.cfg.invalidColor ∧
    t.cfg.devices = s.cfg.devices ∧ t.cfg.regBase = s.cfg.regBase ∧
    ((t.started = s.started ∧ t.cfg = s.cfg) ∨
      (s.busy = false ∧ t.busy = true ∧ nextAgent s = .host ∧ t.started = s.started + 1))

/-! ### Colours and tables -/

/-- R78: the blend is the exact linear blend rounded to the nearest integer, ties upward. -/
def Obligations.BlendRounds : Prop :=
  ∀ (p n : Byte) (f : Weight), 0 < f.den → f.num ≤ f.den →
    ((blend p n f).toNat : ℤ) = ⌊(p.toNat : ℚ) * (1 - f.toRat) + (n.toNat : ℚ) * f.toRat + 1 / 2⌋

/-- R77: (a) within 1 of the exact blend, (b) no overshoot, (c) exact end points, (d) channel by channel. -/
def Obligations.BlendProperties : Prop :=
  (∀ (p n : Byte) (f : Weight), 0 < f.den → f.num ≤ f.den →
    |((blend p n f).toNat : ℚ) - ((p.toNat : ℚ) * (1 - f.toRat) + (n.toNat : ℚ) * f.toRat)| ≤ 1 ∧
    min p.toNat n.toNat ≤ (blend p n f).toNat ∧ (blend p n f).toNat ≤ max p.toNat n.toNat ∧
    (f.num = 0 → blend p n f = p) ∧ (f.num = f.den → blend p n f = n)) ∧
  ∀ (c d : Color) (f : Weight), ∀ ch ∈ channels, ch (mix c d f) = blend (ch c) (ch d) f

/-- R80 (b), (c), (e): monotone in the data, monotone in the weight, and symmetric. -/
def Obligations.BlendLaws : Prop :=
  (∀ (p n p' n' : Byte) (f : Weight), 0 < f.den → f.num ≤ f.den → p.toNat ≤ p'.toNat → n.toNat ≤ n'.toNat →
    (blend p n f).toNat ≤ (blend p' n' f).toNat) ∧
  (∀ (p n : Byte) (f g : Weight), 0 < f.den → f.num ≤ f.den → 0 < g.den → g.num ≤ g.den → f.toRat ≤ g.toRat →
    (p.toNat ≤ n.toNat → (blend p n f).toNat ≤ (blend p n g).toNat) ∧
    (n.toNat ≤ p.toNat → (blend p n g).toNat ≤ (blend p n f).toNat)) ∧
  ∀ (p n : Byte) (f : Weight), 0 < f.den → f.num ≤ f.den → blend p n f = blend n p ⟨f.den - f.num, f.den⟩

/-- R81: `Interpolate(value)`, channel by channel, in exact rational arithmetic. -/
def Obligations.InterpolateRule : Prop :=
  ∀ (p : Palette) (value : Ratio), 0 < value.den → ∀ ch ∈ channels,
    let v : ℚ := max 0 (min value.toRat 1)
    let scaled : ℚ := v * ((p.size : ℚ) - 1)
    let index : ℕ := min ⌊scaled⌋₊ (p.size - 2)
    let frac : ℚ := scaled - index
    ((ch (interpolate p value)).toNat : ℤ) =
      ⌊((ch (p.entry index)).toNat : ℚ) * (1 - frac) + ((ch (p.entry (index + 1))).toNat : ℚ) * frac + 1 / 2⌋

/-- R82 (a), (b): the two ends, and exactness at the palette's own points. -/
def Obligations.InterpolateAtPalettePoints : Prop :=
  ∀ (p : Palette) (value : Ratio), 0 < value.den →
    (value.toRat ≤ 0 → interpolate p value = p.entry 0) ∧
    (1 ≤ value.toRat → interpolate p value = p.entry (p.size - 1)) ∧
    ∀ i : ℕ, i < p.size → value.toRat = (i : ℚ) / ((p.size : ℚ) - 1) → interpolate p value = p.entry i

/-- R88: `GetValue(T, value)`, channel by channel, in exact rational arithmetic, `N = 1024`. -/
def Obligations.GetValueRule : Prop :=
  ∀ (T : List Color) (value : Ratio), 0 < value.den → ∀ ch ∈ channels,
    let v : ℚ := max 0 (min value.toRat 1)
    let pos : ℚ := v * 1023
    let index : ℕ := min ⌊pos⌋₊ 1022
    let frac : ℚ := pos - index
    ((ch (getValue T value)).toNat : ℤ) =
      ⌊((ch (tableEntry T index)).toNat : ℚ) * (1 - frac) + ((ch (tableEntry T (index + 1))).toNat : ℚ) * frac + 1 / 2⌋

/-- R89 (a), (b), (c): the clamped ends, exactness at the sample points, and no overshoot inside a cell. -/
def Obligations.GetValueAtSamplePoints : Prop :=
  ∀ (T : List Color) (value : Ratio), 0 < value.den →
    (value.toRat ≤ 0 → getValue T value = tableEntry T 0) ∧
    (1 ≤ value.toRat → getValue T value = tableEntry T 1023) ∧
    (∀ k : ℕ, k ≤ 1023 → value.toRat = (k : ℚ) / 1023 → getValue T value = tableEntry T k) ∧
    (∀ k : ℕ, k < 1023 → (k : ℚ) / 1023 ≤ value.toRat → value.toRat ≤ ((k : ℚ) + 1) / 1023 → ∀ ch ∈ channels,
      min (ch (tableEntry T k)).toNat (ch (tableEntry T (k + 1))).toNat ≤ (ch (getValue T value)).toNat ∧
      (ch (getValue T value)).toNat ≤ max (ch (tableEntry T k)).toNat (ch (tableEntry T (k + 1))).toNat)

/-- R83 to R86: a built table has 1024 entries; entry `k` of the depth table is `Interpolate(k/1023)`, of the infrared table
`Interpolate(((1023-k)/1023)^12)`. -/
def Obligations.TableContents : Prop :=
  ∀ p : Palette,
    (buildTable (genDepth p)).length = 1024 ∧ (buildTable (genIr p)).length = 1024 ∧
    ∀ k : ℕ, k < 1024 →
      (∀ v : Ratio, 0 < v.den → v.toRat = (k : ℚ) / 1023 → tableEntry (buildTable (genDepth p)) k = interpolate p v) ∧
      (∀ v : Ratio, 0 < v.den → v.toRat = (1 - (k : ℚ) / 1023) ^ 12 →
        tableEntry (buildTable (genIr p)) k = interpolate p v)

/-- R90: the lookups' ends: depth runs up the palette, infrared down. -/
def Obligations.LookupEnds : Prop :=
  ∀ (p : Palette) (value : Ratio), 0 < value.den →
    (value.toRat = 0 → getValue (buildTable (genDepth p)) value = p.entry 0 ∧
      getValue (buildTable (genIr p)) value = p.entry (p.size - 1)) ∧
    (value.toRat = 1 → getValue (buildTable (genDepth p)) value = p.entry (p.size - 1) ∧
      getValue (buildTable (genIr p)) value = p.entry 0)

/-- R92: the integer forms of the lookup position, for IR8, IR16 and, by the preset's bounds in raw units, DEPTH16. -/
def Obligations.IntegerForms : Prop :=
  ∀ (T : List Color) (raw : Nat),
    (1 ≤ raw → raw ≤ 255 →
      let index : Nat := min (raw * 341 / 85) 1022
      getValue T (Ratio.over raw 255) =
        mix (tableEntry T index) (tableEntry T (index + 1)) ⟨raw * 341 - index * 85, 85⟩) ∧
    (1 ≤ raw → raw ≤ 65535 →
      let index : Nat := min (raw * 341 / 21845) 1022
      getValue T (Ratio.over raw 65535) =
        mix (tableEntry T index) (tableEntry T (index + 1)) ⟨raw * 341 - index * 21845, 21845⟩) ∧
    (∀ p ∈ [(Profile.narrow, 500, 4000), (.wide, 200, 1000)], 1 ≤ raw → raw ≤ 4000 →
      let t : Nat := min (raw - p.2.1) (p.2.2 - p.2.1)
      let index : Nat := min (t * 1023 / (p.2.2 - p.2.1)) 1022
      getValue T (depthAlpha depthScale (reliableMin p.1) (reliableMax p.1) raw) =
        mix (tableEntry T index) (tableEntry T (index + 1)) ⟨t * 1023 - index * (p.2.2 - p.2.1), p.2.2 - p.2.1⟩)

/-! ### Pixels -/

/-- R95, R96, R103: the two gates of a depth pixel kept apart: outside 1 to 4000 the sentinel under both presets, inside it the
lookup of `(raw - lo)/(hi - lo)`, which below and above the preset's range shows the table's ends. -/
def Obligations.DepthPixelGates : Prop :=
  ∀ (cfg : Config) (T : List Color), ∀ p ∈ [(Profile.narrow, 500, 4000), (.wide, 200, 1000)], ∀ raw : Nat,
    let pixel : Color := depthPixel cfg T depthScale (reliableMin p.1) (reliableMax p.1) raw
    (raw = 0 ∨ 4000 < raw → pixel = cfg.invalidColor) ∧
    (1 ≤ raw → raw ≤ 4000 →
      (∀ v : Ratio, 0 < v.den → v.toRat = ((raw : ℚ) - (p.2.1 : ℕ)) / ((p.2.2 : ℕ) - (p.2.1 : ℕ)) → pixel = getValue T v) ∧
      (raw ≤ p.2.1 → pixel = tableEntry T 0) ∧ (p.2.2 ≤ raw → pixel = tableEntry T 1023))

/-- R97 to R100: an infrared pixel is the sentinel for 0 and the lookup of `raw/full` else; an 8-bit sample `r` and the 16-bit
sample `257*r` give one colour. -/
def Obligations.InfraredPixels : Prop :=
  ∀ (cfg : Config) (T : List Color),
    (∀ full ∈ [255, 65535], ∀ raw : Nat,
      (raw = 0 → infraredPixel cfg T full raw = cfg.invalidColor) ∧
      (1 ≤ raw → raw ≤ full → ∀ v : Ratio, 0 < v.den → v.toRat = (raw : ℚ) / full →
        infraredPixel cfg T full raw = getValue T v) ∧
      (raw = full → infraredPixel cfg T full raw = tableEntry T 1023)) ∧
    ∀ r, r ≤ 255 → infraredPixel cfg T 255 r = infraredPixel cfg T 65535 (257 * r)

/-- R6 (d), R80 (d): where every palette entry has one alpha and the sentinel another, the sentinel is distinct from every
ramp-derived colour; the model's reference configuration (log 5) is such a one. -/
def Obligations.SentinelIsDistinct : Prop :=
  (∀ (cfg : Config) (alpha : Byte), (∀ i, i < cfg.palette.size → (cfg.palette.entry i).a = alpha) →
    cfg.invalidColor.a ≠ alpha → SentinelDistinct cfg) ∧
  SentinelDistinct Config.reference

/-- R15: where the palette and the sentinel are premultiplied, so is every pixel of a depth or infrared image. R128, R129: a
grey of DSROT always is, and its green channel is the floor of a quarter of the sum; `DsrotCompletes` states blue and red. -/
def Obligations.ImagesArePremultiplied : Prop :=
  (∀ cfg : Config, (∀ i, i < cfg.palette.size → Premultiplied (cfg.palette.entry i)) → Premultiplied cfg.invalidColor →
    (∀ (sel : Profile) (raw : Nat), Premultiplied (depthPixel cfg (buildTable (genDepth cfg.palette)) depthScale
      (reliableMin sel) (reliableMax sel) raw)) ∧
    ∀ raw, Premultiplied (infraredPixel cfg (buildTable (genIr cfg.palette)) 255 raw) ∧
      Premultiplied (infraredPixel cfg (buildTable (genIr cfg.palette)) 65535 raw)) ∧
  ∀ sum, sum ≤ 1020 → Premultiplied (greyOf sum) ∧ (greyOf sum).g.toNat = sum / 4

/-! ### Memory -/

/-- R13, R94: packing and unpacking a Color, and its memory image B, G, R, A. -/
def Obligations.ColorImage : Prop :=
  (∀ c : Color, c.pack.toNat = c.a.toNat * 2 ^ 24 + c.r.toNat * 2 ^ 16 + c.g.toNat * 2 ^ 8 + c.b.toNat ∧
    Color.unpack c.pack = c) ∧
  (∀ w : Word, (Color.unpack w).pack = w) ∧
  ∀ (cfg : Config) (m : Memory) (a : Nat) (c : Color), (∀ i, i < 4 → memOK cfg (a + i) = true) →
    ∃ m', storeColor cfg m a c = .ok m' ∧ Memory.get m' a = c.b ∧ Memory.get m' (a + 1) = c.g ∧
      Memory.get m' (a + 2) = c.r ∧ Memory.get m' (a + 3) = c.a ∧
      ∀ x, x < a ∨ a + 4 ≤ x → Memory.get m' x = Memory.get m x

/-- R9, R43, R46, R47: an access of `n` bytes fails at its lowest failing address, whether it reads or writes, and otherwise
reads or writes those bytes least significant first; no address at or above 2^32 succeeds. -/
def Obligations.AccessesFailAtTheLowestAddress : Prop :=
  ∀ (cfg : Config) (m : Memory) (a n : Nat),
    (2 ^ 32 ≤ a → memOK cfg a = false) ∧
    (∀ i, i < n → memOK cfg (a + i) = false → (∀ j, j < i → memOK cfg (a + j) = true) →
      memRead cfg m a n = .error (a + i) ∧ ∀ v, memWrite cfg m a n v = .error (a + i)) ∧
    ((∀ i, i < n → memOK cfg (a + i) = true) →
      (∃ v, memRead cfg m a n = .ok v ∧ v < 256 ^ n ∧
        ∀ i, i < n → (Memory.get m (a + i)).toNat = v / 256 ^ i % 256) ∧
      ∀ v, ∃ m', memWrite cfg m a n v = .ok m' ∧
        (∀ i, i < n → (Memory.get m' (a + i)).toNat = v / 256 ^ i % 256) ∧
        ∀ x, x < a ∨ a + n ≤ x → Memory.get m' x = Memory.get m x)

/-- U8, U3 (R21, R53): a host byte access on the mapped register file, or on a device off it, is refused by name, BUSY or not;
that a device is refused because the spec gives it no behaviour is the model's choice (log 14). -/
def Obligations.HostAccessStops : Prop :=
  ∀ (a : Nat) (v : Byte) (s : State),
    ((∃ base, s.cfg.regBase = some base ∧ base ≤ a ∧ a < base + 256) →
      hostStore a v s = .refused (.notARegisterAccess .notWord) ∧ hostLoad a s = .refused (.notARegisterAccess .notWord)) ∧
    ((∀ base, s.cfg.regBase = some base → a < base ∨ base + 256 ≤ a) → (∃ r ∈ s.cfg.devices, r.base ≤ a ∧ a < r.base + r.len) →
      hostStore a v s = .refused .deviceAccess ∧ hostLoad a s = .refused .deviceAccess)

end Slice0Statements
end

