-- ==== Sys2Proof/Laws/ColorRamp.lean ====
section
/-! SUPPORT. The ColorRamp and the tables (R77 to R92): the blend as one natural number, the cell a value lies in as the
rationals of R81 and R88, and what a built table holds. -/

namespace Sys2Proof.Machine

/-! ### The blend -/

/-- The weighted sum a blend rounds is at most 255 times the denominator, so nothing wraps (R78). -/
theorem blend_sum_le (p n : Byte) {f : Weight} (h : f.num ≤ f.den) :
    p.toNat * (f.den - f.num) + n.toNat * f.num ≤ 255 * f.den := by
  have hp : p.toNat ≤ 255 := by have := p.isLt; omega
  have hn : n.toNat ≤ 255 := by have := n.isLt; omega
  calc p.toNat * (f.den - f.num) + n.toNat * f.num
      ≤ 255 * (f.den - f.num) + 255 * f.num := Nat.add_le_add (Nat.mul_le_mul_right _ hp) (Nat.mul_le_mul_right _ hn)
    _ = 255 * f.den := by rw [← Nat.mul_add, Nat.sub_add_cancel h]

/-- The blend as a number: the integer expression of R78, with nothing lost to the byte. -/
theorem blend_toNat (p n : Byte) {f : Weight} (hd : 0 < f.den) (h : f.num ≤ f.den) :
    (blend p n f).toNat = (2 * (p.toNat * (f.den - f.num) + n.toNat * f.num) + f.den) / (2 * f.den) := by
  have hs := blend_sum_le p n h
  unfold blend
  rw [BitVec.toNat_ofNat, Nat.mod_eq_of_lt]
  rw [Nat.div_lt_iff_lt_mul (by omega)]
  omega

/-! ### Fractions -/

theorem Weight.toRat_nonneg (f : Weight) : 0 ≤ f.toRat := by unfold Weight.toRat; positivity

theorem Weight.toRat_le_one {f : Weight} (hd : 0 < f.den) (h : f.num ≤ f.den) : f.toRat ≤ 1 := by
  unfold Weight.toRat
  rw [div_le_one (by exact_mod_cast hd)]
  exact_mod_cast h

theorem clamp01_le (v : Ratio) : (clamp01 v).num ≤ (clamp01 v).den := Nat.min_le_right _ _

/-- `clamp01` as the rationals of R8. -/
theorem clamp01_toRat {v : Ratio} (hd : 0 < v.den) : (clamp01 v).toRat = max 0 (min v.toRat 1) := by
  have hq : (0 : ℚ) < v.den := by exact_mod_cast hd
  simp only [clamp01, Weight.toRat, Ratio.toRat]
  rcases le_or_gt v.num 0 with h | h
  · have h1 : v.num.toNat = 0 := Int.toNat_eq_zero.2 h
    have h2 : (v.num : ℚ) / v.den ≤ 0 := div_nonpos_of_nonpos_of_nonneg (by exact_mod_cast h) hq.le
    rw [h1, max_eq_left (le_trans (min_le_left _ _) h2)]
    simp
  · obtain ⟨k, hk⟩ := Int.eq_ofNat_of_zero_le h.le
    have h1 : v.num.toNat = k := by omega
    have hv : (v.num : ℚ) = k := by rw [hk]; simp
    rw [h1, hv, max_eq_right (le_min (by positivity) zero_le_one)]
    rcases le_total k v.den with hle | hle
    · rw [min_eq_left hle, min_eq_left]
      rw [div_le_one hq]; exact_mod_cast hle
    · rw [min_eq_right hle, min_eq_right, div_self hq.ne']
      rw [le_div_iff₀ hq]; simpa using (by exact_mod_cast hle : (v.den : ℚ) ≤ k)

/-- `alpha` of R95 under a preset, as R96 writes it. -/
theorem depthAlpha_toRat (sel : Profile) (raw : Nat) :
    (depthAlpha depthScale (reliableMin sel) (reliableMax sel) raw).toRat =
      match sel with
      | .wide => ((raw : ℚ) - 200) / 800
      | .narrow => ((raw : ℚ) - 500) / 3500 := by
  cases sel <;>
    simp only [depthAlpha, depthScale, reliableMin, reliableMax, wideMin, wideMax, narrowMin, narrowMax, Ratio.toRat,
      Ratio.div, Ratio.sub, Ratio.mul, Ratio.ofNat] <;>
    push_cast <;> norm_num <;> ring

theorem depthAlpha_den_pos (sel : Profile) (raw : Nat) :
    0 < (depthAlpha depthScale (reliableMin sel) (reliableMax sel) raw).den := by
  cases sel <;>
    simp [depthAlpha, depthScale, reliableMin, reliableMax, wideMin, wideMax, narrowMin, narrowMax, Ratio.div, Ratio.sub,
      Ratio.mul, Ratio.ofNat]

/-! ### Cells -/

/-- The cell of a clamped value is the one of R81 and R88. -/
theorem cellIndex_eq {steps : Nat} {v : Weight} :
    cellIndex steps v = min ⌊v.toRat * steps⌋₊ (steps - 1) := by
  have h : v.toRat * steps = ((v.num * steps : ℕ) : ℚ) / (v.den : ℕ) := by
    unfold Weight.toRat; push_cast; ring
  rw [h, Nat.floor_div_eq_div]
  rfl

theorem cellIndex_mul_le {steps : Nat} {v : Weight} : cellIndex steps v * v.den ≤ v.num * steps :=
  le_trans (Nat.mul_le_mul_right _ (Nat.min_le_left _ _)) (Nat.div_mul_le_self _ _)

/-- The weight inside the cell is the `frac` of R81 and R88. -/
theorem cellWeight_toRat {steps : Nat} {v : Weight} (hd : 0 < v.den) :
    (cellWeight steps v).toRat = v.toRat * steps - cellIndex steps v := by
  have hq : (v.den : ℚ) ≠ 0 := by exact_mod_cast hd.ne'
  simp only [cellWeight, Weight.toRat]
  rw [Nat.cast_sub cellIndex_mul_le]
  push_cast
  field_simp

theorem cellWeight_le {steps : Nat} {v : Weight} (hs : 0 < steps) (hd : 0 < v.den) (hv : v.num ≤ v.den) :
    (cellWeight steps v).num ≤ (cellWeight steps v).den := by
  simp only [cellWeight]
  rw [Nat.sub_le_iff_le_add]
  rcases le_total (v.num * steps / v.den) (steps - 1) with h | h
  · rw [cellIndex, min_eq_left h]
    have := Nat.lt_div_mul_add (a := v.num * steps) hd
    omega
  · rw [cellIndex, min_eq_right h]
    calc v.num * steps ≤ v.den * steps := Nat.mul_le_mul_right _ hv
      _ = v.den + (steps - 1) * v.den := by
        rw [Nat.mul_comm]
        conv_lhs => rw [← Nat.sub_add_cancel hs]
        rw [Nat.succ_mul, Nat.add_comm]

theorem cellIndex_lt {steps : Nat} {v : Weight} (hs : 0 < steps) : cellIndex steps v < steps :=
  lt_of_le_of_lt (Nat.min_le_right _ _) (by omega)

/-! ### Built tables -/

theorem length_tabulate (g : Nat → Color) (start n : Nat) : (tabulate g start n).length = n := by
  induction n generalizing start with
  | zero => rfl
  | succ n ih => simp [tabulate, ih]

theorem getElem?_tabulate (g : Nat → Color) (start n k : Nat) (h : k < n) : (tabulate g start n)[k]? = some (g (start + k)) := by
  induction n generalizing start k with
  | zero => omega
  | succ n ih =>
    cases k with
    | zero => rfl
    | succ k => simpa [tabulate, Nat.add_assoc, Nat.add_comm 1] using ih (start + 1) k (by omega)

/-- Entry `k` of a built table is the generator's value at `k` (R86). -/
theorem tableEntry_buildTable (g : Nat → Color) {k : Nat} (h : k < tableSize) : tableEntry (buildTable g) k = g k := by
  simp [tableEntry, buildTable, List.getD_eq_getElem?_getD, getElem?_tabulate g 0 tableSize k h]

end Sys2Proof.Machine
end

