-- ==== Sys2Proof/Laws/Memory.lean ====
section
/-! SUPPORT. What the memory operations do: one byte after a write, the little-endian accesses, when an access fails, and that
every memory operation keeps the canonical form. -/

namespace Sys2Proof.Machine

/-! ### One byte -/

theorem get_putHead (m : Memory) (a : Nat) (b : Byte) (x : Nat) (h : ∀ y, y ≤ a → Memory.get m y = unlistedByte) :
    Memory.get (Memory.putHead a b m) x = if x = a then b else if x < a then unlistedByte else Memory.get m x := by
  unfold Memory.putHead
  split
  · by_cases hx : x = a
    · subst hx; simp_all
    · by_cases hl : x < a
      · simp [hx, hl, h x (by omega)]
      · simp [hx, hl]
  · simp only [Memory.get]
    by_cases hx : x = a
    · subst hx; simp
    · by_cases hl : x < a
      · simp [hl, hx]
      · simp [hl, hx, Ne.symm hx]

theorem get_dropWhile_le (m : Memory) (a x : Nat) :
    Memory.get (m.dropWhile fun c => decide (c.1 ≤ a)) x = if x ≤ a then unlistedByte else Memory.get m x := by
  induction m with
  | nil => simp [Memory.get]
  | cons c m ih =>
    obtain ⟨k, v⟩ := c
    by_cases hk : k ≤ a
    · simp only [List.dropWhile_cons, hk, decide_true, if_true, ih]
      by_cases hx : x ≤ a
      · simp [hx]
      · simp [hx, Memory.get, show ¬ x < k by omega, show k ≠ x by omega]
    · simp only [List.dropWhile_cons, hk, decide_false, Bool.false_eq_true, if_false]
      by_cases hx : x ≤ a
      · simp [hx, Memory.get, show x < k by omega]
      · simp [hx]

/-- Reading any byte after a write of one byte; no canonical form is needed. -/
theorem get_set (m : Memory) (a : Nat) (b : Byte) (x : Nat) :
    Memory.get (Memory.set m a b) x = if x = a then b else Memory.get m x := by
  induction m with
  | nil =>
    simp only [Memory.set]
    rw [get_putHead _ _ _ _ (by simp [Memory.get])]
    simp [Memory.get]
  | cons c m ih =>
    obtain ⟨k, v⟩ := c
    simp only [Memory.set]
    split
    · rename_i hak
      rw [get_putHead _ _ _ _ (fun y hy => by simp [Memory.get, show y < k by omega])]
      by_cases hx : x = a
      · simp [hx]
      · by_cases hl : x < a
        · simp [hx, hl, Memory.get, show x < k by omega]
        · simp [hx, hl]
    · split
      · rename_i hka
        subst hka
        rw [get_putHead _ _ _ _ (fun y hy => by simp [get_dropWhile_le, hy]), get_dropWhile_le]
        by_cases hx : x = k
        · simp [hx]
        · by_cases hl : x < k
          · simp [hx, hl, Memory.get]
          · simp [hx, hl, Memory.get, show ¬ x ≤ k by omega, Ne.symm hx]
      · simp only [Memory.get, ih]
        by_cases hl : x < k
        · simp [hl, show x ≠ a by omega]
        · by_cases hk : k = x
          · subst hk
            simp [show ¬ k = a by assumption]
          · simp [hl, hk]

@[simp] theorem get_set_self (m : Memory) (a : Nat) (b : Byte) : Memory.get (Memory.set m a b) a = b := by
  simp [get_set]

theorem get_set_of_ne (m : Memory) (a : Nat) (b : Byte) {x : Nat} (h : x ≠ a) :
    Memory.get (Memory.set m a b) x = Memory.get m x := by
  simp [get_set, h]

/-! ### Little-endian accesses -/

theorem readLE_congr {m m' : Memory} {a : Nat} :
    ∀ {n : Nat}, (∀ i, i < n → Memory.get m (a + i) = Memory.get m' (a + i)) → readLE m a n = readLE m' a n := by
  intro n
  induction n generalizing a with
  | zero => intro _; rfl
  | succ n ih =>
    intro h
    simp only [readLE]
    rw [show Memory.get m a = Memory.get m' a by simpa using h 0 (by omega),
      ih (a := a + 1) fun i hi => by simpa [Nat.add_assoc, Nat.add_comm 1] using h (i + 1) (by omega)]

theorem readLE_lt (m : Memory) (a n : Nat) : readLE m a n < 256 ^ n := by
  induction n generalizing a with
  | zero => simp [readLE]
  | succ n ih =>
    have h1 := ih (a + 1)
    have h2 := (Memory.get m a).isLt
    simp only [readLE, Nat.pow_succ]
    omega

/-- A byte of a little-endian value. -/
theorem get_eq_readLE_div (m : Memory) {a n i : Nat} (hi : i < n) :
    (Memory.get m (a + i)).toNat = readLE m a n / 256 ^ i % 256 := by
  induction n generalizing a i with
  | zero => omega
  | succ n ih =>
    have hb := (Memory.get m a).isLt
    simp only [readLE]
    cases i with
    | zero => simp only [Nat.add_zero, Nat.pow_zero, Nat.div_one]; omega
    | succ i =>
      rw [Nat.pow_succ', ← Nat.div_div_eq_div_mul, show ((Memory.get m a).toNat + 256 * readLE m (a + 1) n) / 256 =
        readLE m (a + 1) n by omega, ← ih (a := a + 1) (by omega), Nat.add_assoc, Nat.add_comm 1]

/-- Any byte after a little-endian write: the written byte inside the span, the old one outside. -/
theorem get_writeLE (m : Memory) (a n v x : Nat) :
    Memory.get (writeLE m a n v) x =
      if a ≤ x ∧ x < a + n then BitVec.ofNat 8 (v / 256 ^ (x - a)) else Memory.get m x := by
  induction n generalizing m a v with
  | zero => simp [writeLE, show ¬ (a ≤ x ∧ x < a) by omega]
  | succ n ih =>
    simp only [writeLE, ih, get_set]
    by_cases h1 : a + 1 ≤ x ∧ x < a + 1 + n
    · have h2 : a ≤ x ∧ x < a + (n + 1) := by omega
      rw [if_pos h1, if_pos h2, Nat.div_div_eq_div_mul, ← Nat.pow_succ', show (x - (a + 1)).succ = x - a by omega]
    · by_cases h3 : x = a
      · subst h3; simp
      · have h2 : ¬ (a ≤ x ∧ x < a + (n + 1)) := by omega
        rw [if_neg h1, if_neg h2, if_neg h3]

theorem get_writeLE_outside {m : Memory} {a n v x : Nat} (h : x < a ∨ a + n ≤ x) :
    Memory.get (writeLE m a n v) x = Memory.get m x := by
  rw [get_writeLE, if_neg (by omega)]

theorem readLE_writeLE_self (m : Memory) (a n v : Nat) : readLE (writeLE m a n v) a n = v % 256 ^ n := by
  induction n generalizing m a v with
  | zero => simp [readLE, Nat.mod_one]
  | succ n ih =>
    simp only [readLE, writeLE, ih]
    have h := Nat.mod_mul (a := 256) (b := 256 ^ n) (x := v)
    rw [get_writeLE_outside (by omega), get_set_self, BitVec.toNat_ofNat, Nat.pow_succ' (m := 256), h]

theorem readLE_writeLE_outside {m : Memory} {a n v x k : Nat} (h : x + k ≤ a ∨ a + n ≤ x) :
    readLE (writeLE m a n v) x k = readLE m x k :=
  readLE_congr fun i hi => get_writeLE_outside (by omega)

/-! ### When an access fails (R47) -/

theorem firstBad_eq_none {cfg : Config} {a n : Nat} :
    firstBad cfg a n = none ↔ ∀ i, i < n → memOK cfg (a + i) = true := by
  induction n generalizing a with
  | zero => simp [firstBad]
  | succ n ih =>
    simp only [firstBad]
    constructor
    · intro h i hi
      split at h
      · rcases i with _ | i
        · simpa
        · simpa [Nat.add_assoc, Nat.add_comm 1] using ih.1 h i (by omega)
      · cases h
    · intro h
      rw [if_pos (by simpa using h 0 (by omega))]
      exact ih.2 fun i hi => by simpa [Nat.add_assoc, Nat.add_comm 1] using h (i + 1) (by omega)

theorem firstBad_eq_some {cfg : Config} {a n x : Nat} :
    firstBad cfg a n = some x ↔
      a ≤ x ∧ x < a + n ∧ memOK cfg x = false ∧ ∀ y, a ≤ y → y < x → memOK cfg y = true := by
  induction n generalizing a with
  | zero => simp [firstBad]; omega
  | succ n ih =>
    simp only [firstBad]
    split
    · rename_i hok
      rw [ih]
      constructor
      · rintro ⟨h1, h2, h3, h4⟩
        refine ⟨by omega, by omega, h3, fun y hy hyx => ?_⟩
        by_cases h : y = a
        · exact h ▸ hok
        · exact h4 y (by omega) hyx
      · rintro ⟨h1, h2, h3, h4⟩
        have hne : x ≠ a := by rintro rfl; simp [hok] at h3
        exact ⟨by omega, by omega, h3, fun y hy => h4 y (by omega)⟩
    · rename_i hbad
      constructor
      · intro h
        cases h
        exact ⟨by omega, by omega, by simpa using hbad, fun y h1 h2 => by omega⟩
      · rintro ⟨h1, h2, h3, h4⟩
        by_cases h : a = x
        · rw [h]
        · exact absurd (h4 a (by omega) (by omega)) hbad

theorem memRead_ok_iff {cfg : Config} {m : Memory} {a n v : Nat} :
    memRead cfg m a n = .ok v ↔ (∀ i, i < n → memOK cfg (a + i) = true) ∧ v = readLE m a n := by
  unfold memRead
  rw [← firstBad_eq_none]
  cases firstBad cfg a n <;> simp [eq_comm]

theorem memRead_error_iff {cfg : Config} {m : Memory} {a n x : Nat} :
    memRead cfg m a n = .error x ↔ firstBad cfg a n = some x := by
  unfold memRead
  cases h : firstBad cfg a n <;> simp

theorem memWrite_ok_iff {cfg : Config} {m m' : Memory} {a n v : Nat} :
    memWrite cfg m a n v = .ok m' ↔ (∀ i, i < n → memOK cfg (a + i) = true) ∧ m' = writeLE m a n v := by
  unfold memWrite
  rw [← firstBad_eq_none]
  cases firstBad cfg a n <;> simp [eq_comm]

theorem memWrite_error_iff {cfg : Config} {m : Memory} {a n v x : Nat} :
    memWrite cfg m a n v = .error x ↔ firstBad cfg a n = some x := by
  unfold memWrite
  cases h : firstBad cfg a n <;> simp

theorem lt_addrSpace_of_memOK {cfg : Config} {a : Nat} (h : memOK cfg a = true) : a < addrSpace := by
  simp only [memOK, Bool.and_eq_true, decide_eq_true_eq] at h
  exact h.1

/-! ### The canonical form -/

theorem wfFrom_mono {lo lo' : Nat} {m : Memory} (h : lo' ≤ lo) (hm : Memory.wfFrom lo m = true) :
    Memory.wfFrom lo' m = true := by
  cases m with
  | nil => rfl
  | cons c m =>
    simp only [Memory.wfFrom, Bool.and_eq_true, decide_eq_true_eq] at hm ⊢
    exact ⟨⟨⟨by omega, hm.1.1.2⟩, hm.1.2⟩, hm.2⟩

theorem wfFrom_putHead {lo a : Nat} {b : Byte} {m : Memory} (h1 : lo ≤ a) (h2 : a < addrSpace)
    (hm : Memory.wfFrom (a + 1) m = true) : Memory.wfFrom lo (Memory.putHead a b m) = true := by
  unfold Memory.putHead
  split
  · exact wfFrom_mono (by omega) hm
  · simp_all [Memory.wfFrom]

theorem wfFrom_dropWhile_le {lo a : Nat} {m : Memory} (hm : Memory.wfFrom lo m = true) :
    Memory.wfFrom (a + 1) (m.dropWhile fun c => decide (c.1 ≤ a)) = true := by
  induction m generalizing lo with
  | nil => rfl
  | cons c m ih =>
    simp only [Memory.wfFrom, Bool.and_eq_true, decide_eq_true_eq] at hm
    by_cases hk : c.1 ≤ a
    · simpa [List.dropWhile_cons, hk] using ih hm.2
    · simp only [List.dropWhile_cons, hk, decide_false, Bool.false_eq_true, if_false, Memory.wfFrom, Bool.and_eq_true,
        decide_eq_true_eq]
      exact ⟨⟨⟨by omega, hm.1.1.2⟩, hm.1.2⟩, hm.2⟩

theorem wfFrom_set {lo a : Nat} {b : Byte} {m : Memory} (h1 : lo ≤ a) (h2 : a < addrSpace)
    (hm : Memory.wfFrom lo m = true) : Memory.wfFrom lo (Memory.set m a b) = true := by
  induction m generalizing lo with
  | nil => exact wfFrom_putHead h1 h2 rfl
  | cons c m ih =>
    obtain ⟨k, v⟩ := c
    simp only [Memory.set]
    have hm' := hm
    simp only [Memory.wfFrom, Bool.and_eq_true, decide_eq_true_eq] at hm'
    split
    · refine wfFrom_putHead h1 h2 ?_
      simp only [Memory.wfFrom, Bool.and_eq_true, decide_eq_true_eq]
      exact ⟨⟨⟨by omega, hm'.1.1.2⟩, hm'.1.2⟩, hm'.2⟩
    · split
      · exact wfFrom_putHead h1 h2 (wfFrom_dropWhile_le hm'.2)
      · simp only [Memory.wfFrom, Bool.and_eq_true, decide_eq_true_eq]
        exact ⟨hm'.1, ih (by omega) hm'.2⟩

/-- A write of one existing byte keeps the canonical form. -/
theorem wf_set {m : Memory} {a : Nat} {b : Byte} (h : a < addrSpace) (hm : Memory.wf m = true) :
    Memory.wf (Memory.set m a b) = true := wfFrom_set (Nat.zero_le a) h hm

theorem wf_writeLE {m : Memory} {a n v : Nat} (h : a + n ≤ addrSpace ∨ n = 0) (hm : Memory.wf m = true) :
    Memory.wf (writeLE m a n v) = true := by
  induction n generalizing m a v with
  | zero => exact hm
  | succ n ih => exact ih (by omega) (wf_set (by omega) hm)

/-- `MemWrite` keeps the canonical form. -/
theorem wf_memWrite {cfg : Config} {m m' : Memory} {a n v : Nat} (h : memWrite cfg m a n v = .ok m')
    (hm : Memory.wf m = true) : Memory.wf m' = true := by
  obtain ⟨hok, rfl⟩ := memWrite_ok_iff.1 h
  refine wf_writeLE ?_ hm
  rcases n with _ | n
  · exact .inr rfl
  · exact .inl (by have := lt_addrSpace_of_memOK (hok n (by omega)); omega)

/-- Below its first address a canonical memory reads as unlisted. -/
theorem get_below {lo x : Nat} {m : Memory} (hm : Memory.wfFrom lo m = true) (hx : x < lo) :
    Memory.get m x = unlistedByte := by
  cases m with
  | nil => rfl
  | cons c m =>
    simp only [Memory.wfFrom, Bool.and_eq_true, decide_eq_true_eq] at hm
    simp [Memory.get, show x < c.1 by omega]

/-- Canonical memories that read alike everywhere are equal data. -/
theorem eq_of_get_eq {lo : Nat} {m m' : Memory} (hm : Memory.wfFrom lo m = true) (hm' : Memory.wfFrom lo m' = true)
    (h : ∀ a, Memory.get m a = Memory.get m' a) : m = m' := by
  induction m generalizing lo m' with
  | nil =>
    cases m' with
    | nil => rfl
    | cons c m' =>
      simp only [Memory.wfFrom, Bool.and_eq_true, decide_eq_true_eq] at hm'
      exact absurd (by simpa [Memory.get] using (h c.1).symm) hm'.1.2
  | cons c m ih =>
    obtain ⟨k, v⟩ := c
    simp only [Memory.wfFrom, Bool.and_eq_true, decide_eq_true_eq] at hm
    cases m' with
    | nil => exact absurd (by simpa [Memory.get] using h k) hm.1.2
    | cons c' m' =>
      obtain ⟨k', v'⟩ := c'
      simp only [Memory.wfFrom, Bool.and_eq_true, decide_eq_true_eq] at hm'
      have hk : k = k' := by
        rcases Nat.lt_trichotomy k k' with hlt | heq | hgt
        · exact absurd (by simpa [Memory.get, hlt] using h k) hm.1.2
        · exact heq
        · exact absurd (by simpa [Memory.get, hgt] using (h k').symm) hm'.1.2
      subst hk
      have hv : v = v' := by simpa [Memory.get] using h k
      subst hv
      congr 1
      refine ih hm.2 hm'.2 fun a => ?_
      rcases Nat.lt_trichotomy a k with hlt | heq | hgt
      · rw [get_below hm.2 (by omega), get_below hm'.2 (by omega)]
      · rw [get_below hm.2 (by omega), get_below hm'.2 (by omega)]
      · simpa [Memory.get, show ¬ a < k by omega, show k ≠ a by omega] using h a

theorem wf_spoilRow {k a n : Nat} {m : Memory} (hm : Memory.wf m = true) : Memory.wf (spoilRow k m a n) = true := by
  induction n generalizing m a with
  | zero => exact hm
  | succ n ih =>
    unfold spoilRow
    split
    · exact ih (wf_set (by assumption) hm)
    · exact ih hm

theorem wf_spoilRows {k rows : Nat} {f : Footprint} {m : Memory} (hm : Memory.wf m = true) :
    Memory.wf (spoilRows k f m rows) = true := by
  induction rows with
  | zero => exact hm
  | succ r ih => exact wf_spoilRow ih

/-- Leaving an output footprint unspecified keeps the canonical form. -/
theorem wf_spoilOutput {f : Footprint} {s : State} (hm : Memory.wf s.mem = true) :
    Memory.wf (spoilOutput f s).mem = true := wf_spoilRows hm

end Sys2Proof.Machine
end

