-- ==== Sys2Proof/Laws/Footprint.lean ====
section
/-! SUPPORT. Footprints as sets of addresses (R48): membership, when two of them meet, which host duty is broken, and what
leaving one unspecified does to a byte. -/

namespace Sys2Proof.Machine

theorem anyBelow_iff {n : Nat} {p : Nat → Bool} : anyBelow n p = true ↔ ∃ k, k < n ∧ p k = true := by
  induction n with
  | zero => simp [anyBelow]
  | succ n ih =>
    simp only [anyBelow, Bool.or_eq_true, ih]
    constructor
    · rintro (h | ⟨k, hk, h⟩)
      · exact ⟨n, by omega, h⟩
      · exact ⟨k, by omega, h⟩
    · rintro ⟨k, hk, h⟩
      by_cases hkn : k = n
      · exact .inl (hkn ▸ h)
      · exact .inr ⟨k, by omega, h⟩

/-- A footprint holds exactly the addresses `base + r*stride + j` of R48. -/
theorem has_iff {f : Footprint} {a : Nat} :
    f.has a = true ↔ ∃ r j, r < f.rows ∧ j < f.span ∧ j % f.step = 0 ∧ a = f.addr r j := by
  unfold Footprint.has
  rw [anyBelow_iff]
  simp only [Bool.and_eq_true, decide_eq_true_eq]
  simp only [Footprint.addr]
  constructor
  · rintro ⟨r, hr, ⟨h1, h2⟩, h3⟩
    exact ⟨r, a - (f.base + r * f.stride + 0), hr, by omega, h3, by omega⟩
  · rintro ⟨r, j, hr, hj, h3, rfl⟩
    refine ⟨r, hr, ⟨by omega, by omega⟩, ?_⟩
    rwa [show f.base + r * f.stride + j - (f.base + r * f.stride + 0) = j by omega]

/-- A footprint of step 1 holds every byte of its row spans. -/
theorem has_iff_span {f : Footprint} (h : f.step = 1) {a : Nat} :
    f.has a = true ↔ ∃ r, r < f.rows ∧ f.addr r 0 ≤ a ∧ a < f.addr r f.span := by
  rw [has_iff]
  simp only [Footprint.addr]
  constructor
  · rintro ⟨r, j, hr, hj, -, rfl⟩
    exact ⟨r, hr, by omega, by omega⟩
  · rintro ⟨r, hr, h1, h2⟩
    exact ⟨r, a - (f.base + r * f.stride), hr, by omega, by rw [h]; exact Nat.mod_one _, by omega⟩

theorem firstOffset_mod (lo step x : Nat) : firstOffset lo step x % step = 0 := by
  simp [firstOffset]

theorem le_add_firstOffset {lo step x : Nat} (h : 0 < step) : x ≤ lo + firstOffset lo step x := by
  have h1 := Nat.div_add_mod (x - lo + step - 1) step
  have h2 := Nat.mod_lt (x - lo + step - 1) h
  have h3 : firstOffset lo step x = step * ((x - lo + step - 1) / step) := Nat.mul_comm _ _
  omega

theorem firstOffset_le {lo step x j : Nat} (h : 0 < step) (hj : j % step = 0) (hx : x ≤ lo + j) :
    firstOffset lo step x ≤ j := by
  obtain ⟨q, rfl⟩ := Nat.dvd_of_mod_eq_zero hj
  have h1 : (x - lo + step - 1) / step ≤ q := by
    rw [Nat.div_le_iff_le_mul_add_pred h]
    omega
  calc firstOffset lo step x = step * ((x - lo + step - 1) / step) := Nat.mul_comm _ _
    _ ≤ step * q := Nat.mul_le_mul_left _ h1

theorem rowsMeet_iff {f g : Footprint} (hf : 0 < f.step) {r q : Nat} :
    rowsMeet f g r q = true ↔
      ∃ j, j < f.span ∧ j % f.step = 0 ∧ g.addr q 0 ≤ f.addr r j ∧ f.addr r j < g.addr q g.span := by
  simp only [rowsMeet, Bool.and_eq_true, decide_eq_true_eq]
  have hadd : ∀ j, f.addr r j = f.addr r 0 + j := fun j => by simp [Footprint.addr]
  constructor
  · rintro ⟨h1, h2⟩
    exact ⟨_, h1, firstOffset_mod _ _ _, (hadd _).symm ▸ le_add_firstOffset hf, h2⟩
  · rintro ⟨j, h1, h2, h3, h4⟩
    have h5 := firstOffset_le (lo := f.addr r 0) hf h2 (hadd j ▸ h3)
    have h6 := hadd j
    have h7 := hadd (firstOffset (f.addr r 0) f.step (g.addr q 0))
    exact ⟨by omega, by omega⟩

theorem addr_lt_limit {f : Footprint} {r j : Nat} (hr : r < f.rows) (hj : j < f.span) : f.addr r j < f.limit := by
  have : r * f.stride ≤ (f.rows - 1) * f.stride := Nat.mul_le_mul_right _ (by omega)
  simp only [Footprint.limit, Footprint.addr]
  omega

/-- `meets` tells exactly whether two footprints share an address (R160). -/
theorem meets_iff {f g : Footprint} (hf : 0 < f.step) (hg : g.step = 1) :
    f.meets g = true ↔ ∃ a, f.has a = true ∧ g.has a = true := by
  have key : (anyBelow f.rows fun r => anyBelow g.rows fun q => rowsMeet f g r q) = true ↔
      ∃ a, f.has a = true ∧ g.has a = true := by
    simp only [anyBelow_iff, rowsMeet_iff hf]
    constructor
    · rintro ⟨r, hr, q, hq, j, h1, h2, h3, h4⟩
      exact ⟨f.addr r j, has_iff.2 ⟨r, j, hr, h1, h2, rfl⟩, (has_iff_span hg).2 ⟨q, hq, h3, h4⟩⟩
    · rintro ⟨a, ha, hb⟩
      obtain ⟨r, j, hr, h1, h2, rfl⟩ := has_iff.1 ha
      obtain ⟨q, hq, h3, h4⟩ := (has_iff_span hg).1 hb
      exact ⟨r, hr, q, hq, j, h1, h2, h3, h4⟩
  unfold Footprint.meets
  split
  · rename_i hsep
    simp only [Bool.false_eq_true, false_iff]
    rintro ⟨a, ha, hb⟩
    obtain ⟨r, j, hr, hj, -, rfl⟩ := has_iff.1 ha
    obtain ⟨q, i, hq, hi, -, heq⟩ := has_iff.1 hb
    have h1 := addr_lt_limit hr hj
    have h2 := addr_lt_limit hq hi
    rw [heq] at h1
    have h3 : g.base ≤ g.addr q i := by simp only [Footprint.addr]; omega
    have h4 : f.base ≤ f.addr r j := by simp only [Footprint.addr]; omega
    omega
  · exact key

theorem rangeFootprint_has {r : Range} {a : Nat} : (rangeFootprint r).has a = r.has a := by
  rw [Bool.eq_iff_iff, has_iff_span rfl]
  simp only [rangeFootprint, Footprint.addr, Range.has, Bool.and_eq_true, decide_eq_true_eq]
  constructor
  · rintro ⟨q, hq, h1, h2⟩; omega
  · rintro ⟨h1, h2⟩; exact ⟨0, by omega, by omega, by omega⟩

theorem outputFootprint_step (op : Op) (w h : Nat) (b : Buffers) : (outputFootprint op w h b).step = 1 := by
  cases op <;> rfl

theorem inputFootprint_step_pos (op : Op) (w h : Nat) (b : Buffers) : 0 < (inputFootprint op w h b).step := by
  cases op <;> simp [inputFootprint, noFootprint]

/-- What no broken host duty means (R160, R161, R40, R53): strides reach over their row spans, the footprints share no address,
and neither has an address of the register file or a device. -/
theorem dutyBreach_none_iff {cfg : Config} {f g : Footprint} (hf : 0 < f.step) (hg : g.step = 1) :
    dutyBreach cfg f g = none ↔
      (1 < f.rows → f.span ≤ f.stride) ∧ (1 < g.rows → g.span ≤ g.stride) ∧
      (∀ a, ¬ (f.has a = true ∧ g.has a = true)) ∧
      (∀ r ∈ cfg.notMemory, ∀ a, r.has a = true → f.has a = false ∧ g.has a = false) := by
  have hs : ∀ f : Footprint, f.shortStride = true ↔ 1 < f.rows ∧ f.stride < f.span := by
    simp [Footprint.shortStride]
  have hb : ∀ f : Footprint, 0 < f.step → ∀ r : Range, f.meets (rangeFootprint r) = true ↔
      ∃ a, f.has a = true ∧ r.has a = true := fun f h r => by
    rw [meets_iff h rfl]; simp [rangeFootprint_has]
  unfold dutyBreach
  split
  · rename_i h
    simp only [Bool.or_eq_true, hs] at h
    simp only [reduceCtorEq, false_iff]
    rintro ⟨h1, h2, -⟩
    rcases h with h | h
    · have := h1 h.1; omega
    · have := h2 h.1; omega
  · rename_i h
    simp only [Bool.or_eq_true, hs, not_or, not_and, not_lt] at h
    split
    · rename_i hm
      simp only [reduceCtorEq, false_iff]
      rintro ⟨-, -, h3, -⟩
      obtain ⟨a, ha⟩ := (meets_iff hf hg).1 hm
      exact h3 a ha
    · rename_i hm
      have hm' : ∀ a, ¬ (f.has a = true ∧ g.has a = true) := fun a ha => hm ((meets_iff hf hg).2 ⟨a, ha⟩)
      split
      · rename_i hr
        simp only [reduceCtorEq, false_iff]
        rintro ⟨-, -, -, h4⟩
        obtain ⟨r, hr, hx⟩ := List.any_eq_true.1 hr
        simp only [Bool.or_eq_true, hb f hf, hb g (by omega)] at hx
        rcases hx with ⟨a, ha, hra⟩ | ⟨a, ha, hra⟩
        · simpa [ha] using (h4 r hr a hra).1
        · simpa [ha] using (h4 r hr a hra).2
      · rename_i hr
        simp only [true_iff]
        refine ⟨h.1, h.2, hm', fun r hrm a hra => ?_⟩
        have hno : ¬ ((∃ a, f.has a = true ∧ r.has a = true) ∨ ∃ a, g.has a = true ∧ r.has a = true) := fun hx =>
          hr (List.any_eq_true.2 ⟨r, hrm, by simpa only [Bool.or_eq_true, hb f hf, hb g (by omega)] using hx⟩)
        rw [not_or] at hno
        exact ⟨by by_contra hc; exact hno.1 ⟨a, by simpa using hc, hra⟩,
          by by_contra hc; exact hno.2 ⟨a, by simpa using hc, hra⟩⟩

/-! ### Leaving an output footprint unspecified -/

theorem get_spoilRow (k : Nat) (m : Memory) (a n x : Nat) :
    Memory.get (spoilRow k m a n) x =
      if a ≤ x ∧ x < a + n ∧ x < addrSpace then Config.freeByte k x else Memory.get m x := by
  induction n generalizing m a with
  | zero => rw [if_neg (by omega)]; rfl
  | succ n ih =>
    unfold spoilRow
    rw [ih]
    by_cases h : a + 1 ≤ x ∧ x < a + 1 + n ∧ x < addrSpace
    · rw [if_pos h, if_pos (by omega)]
    · rw [if_neg h]
      by_cases hx : x = a
      · subst hx
        by_cases hs : x < addrSpace
        · rw [if_pos hs, get_set_self, if_pos (by omega)]
        · rw [if_neg hs, if_neg (by omega)]
      · rw [if_neg (show ¬ (a ≤ x ∧ x < a + (n + 1) ∧ x < addrSpace) by omega)]
        split
        · rw [get_set_of_ne _ _ _ hx]
        · rfl

theorem get_spoilRows (k : Nat) (f : Footprint) (m : Memory) (rows x : Nat) :
    Memory.get (spoilRows k f m rows) x =
      if (∃ r, r < rows ∧ f.addr r 0 ≤ x ∧ x < f.addr r f.span) ∧ x < addrSpace then Config.freeByte k x
      else Memory.get m x := by
  induction rows with
  | zero => rw [if_neg (by rintro ⟨⟨r, hr, -⟩, -⟩; omega)]; rfl
  | succ n ih =>
    unfold spoilRows
    rw [get_spoilRow, ih]
    have hadd : f.addr n 0 + f.span = f.addr n f.span := by simp [Footprint.addr]
    rw [hadd]
    by_cases h : f.addr n 0 ≤ x ∧ x < f.addr n f.span ∧ x < addrSpace
    · rw [if_pos h, if_pos ⟨⟨n, by omega, h.1, h.2.1⟩, h.2.2⟩]
    · rw [if_neg h]
      congr 1
      rw [eq_iff_iff]
      constructor
      · rintro ⟨⟨r, hr, h1, h2⟩, h3⟩
        exact ⟨⟨r, by omega, h1, h2⟩, h3⟩
      · rintro ⟨⟨r, hr, h1, h2⟩, h3⟩
        by_cases hrn : r = n
        · subst hrn; exact absurd ⟨h1, h2, h3⟩ h
        · exact ⟨⟨r, by omega, h1, h2⟩, h3⟩

/-- A byte after an output footprint was left unspecified: a free value inside it, the old byte outside (U4). -/
theorem get_spoilOutput {f : Footprint} (hf : f.step = 1) (s : State) (x : Nat) :
    Memory.get (spoilOutput f s).mem x =
      if f.has x = true ∧ x < addrSpace then Config.freeByte s.freeCount x else Memory.get s.mem x := by
  simp only [spoilOutput, get_spoilRows, has_iff_span hf]

theorem get_spoilOutput_outside {f : Footprint} (hf : f.step = 1) {s : State} {x : Nat} (h : f.has x = false) :
    Memory.get (spoilOutput f s).mem x = Memory.get s.mem x := by
  rw [get_spoilOutput hf, if_neg (by simp [h])]

end Sys2Proof.Machine
end

