-- ==== Sys2Proof/Laws/PerInstr.lean ====
section
/-! SUPPORT. The family RoundTrip: what an instruction's encoding denotes, one lemma for each constructor of `Instr`. -/

namespace Sys2Proof.Laws

/-! ### Bytes of a descriptor -/

theorem length_bytesLE (n v : Nat) : (bytesLE n v).length = n := by
  induction n generalizing v with
  | zero => rfl
  | succ n ih => simp [bytesLE, ih]

theorem natOfLE_bytesLE (n v : Nat) : natOfLE (bytesLE n v) = v % 256 ^ n := by
  induction n generalizing v with
  | zero => simp [bytesLE, natOfLE, Nat.mod_one]
  | succ n ih =>
    have h := Nat.mod_mul (a := 256) (b := 256 ^ n) (x := v)
    simp only [bytesLE, natOfLE, ih]
    rw [BitVec.toNat_ofNat, Nat.pow_succ' (m := 256), h]

theorem length_toBytes (d : Descriptor) : d.toBytes.length = commandBytes := by
  simp [Descriptor.toBytes, length_bytesLE, commandBytes]

/-- The word read back where it was laid. -/
theorem wordAt_append {pre rest : List Byte} {i v : Nat} (hp : pre.length = 4 * i) (hv : v < 2 ^ 32) :
    wordAt (pre ++ (bytesLE 4 v ++ rest)) i = BitVec.ofNat 32 v := by
  unfold wordAt
  rw [← hp, List.drop_left, List.take_append_of_le_length (by simp [length_bytesLE]),
    List.take_of_length_le (by simp [length_bytesLE]), natOfLE_bytesLE,
    Nat.mod_eq_of_lt (show v < 256 ^ 4 by omega)]

theorem ofNat_setWidth_toNat {w : Nat} (x : BitVec w) (hw : w ≤ 32) : (BitVec.ofNat 32 x.toNat).setWidth w = x := by
  apply BitVec.eq_of_toNat_eq
  have h1 := x.isLt
  have h2 : 2 ^ w ≤ 2 ^ 32 := Nat.pow_le_pow_right (by omega) hw
  simp only [BitVec.toNat_setWidth, BitVec.toNat_ofNat]
  rw [Nat.mod_eq_of_lt (show x.toNat < 2 ^ 32 by omega), Nat.mod_eq_of_lt h1]

/-- A descriptor's bytes give the descriptor back, its reserved bits being 0 (R24). -/
theorem ofBytes_toBytes {d : Descriptor} (h : d.desc0 &&& desc0Mask = d.desc0) : Descriptor.ofBytes d.toBytes = d := by
  obtain ⟨d0, w, hh, ⟨ib, is, ob, os⟩, pr⟩ := d
  simp only at h
  have hw := w.isLt
  have hhh := hh.isLt
  have hpr := pr.isLt
  have e0 : wordAt (Descriptor.toBytes ⟨d0, w, hh, ⟨ib, is, ob, os⟩, pr⟩) 0 = d0 := by
    simp only [Descriptor.toBytes, List.append_assoc]
    rw [← List.nil_append (bytesLE 4 d0.toNat ++ _), wordAt_append rfl d0.isLt, BitVec.ofNat_toNat, BitVec.setWidth_eq]
  have e1 : wordAt (Descriptor.toBytes ⟨d0, w, hh, ⟨ib, is, ob, os⟩, pr⟩) 1 = BitVec.ofNat 32 w.toNat := by
    simp only [Descriptor.toBytes, List.append_assoc]
    rw [wordAt_append (by simp [length_bytesLE]) (by omega)]
  have e2 : wordAt (Descriptor.toBytes ⟨d0, w, hh, ⟨ib, is, ob, os⟩, pr⟩) 2 = BitVec.ofNat 32 hh.toNat := by
    simp only [Descriptor.toBytes, List.append_assoc]
    rw [← List.append_assoc, wordAt_append (by simp [length_bytesLE]) (by omega)]
  have e3 : wordAt (Descriptor.toBytes ⟨d0, w, hh, ⟨ib, is, ob, os⟩, pr⟩) 3 = ib := by
    simp only [Descriptor.toBytes, List.append_assoc]
    rw [← List.append_assoc, ← List.append_assoc, wordAt_append (by simp [length_bytesLE]) ib.isLt, BitVec.ofNat_toNat,
      BitVec.setWidth_eq]
  have e4 : wordAt (Descriptor.toBytes ⟨d0, w, hh, ⟨ib, is, ob, os⟩, pr⟩) 4 = is := by
    simp only [Descriptor.toBytes, List.append_assoc]
    rw [← List.append_assoc, ← List.append_assoc, ← List.append_assoc, wordAt_append (by simp [length_bytesLE]) is.isLt,
      BitVec.ofNat_toNat, BitVec.setWidth_eq]
  have e5 : wordAt (Descriptor.toBytes ⟨d0, w, hh, ⟨ib, is, ob, os⟩, pr⟩) 5 = ob := by
    simp only [Descriptor.toBytes, List.append_assoc]
    rw [← List.append_assoc, ← List.append_assoc, ← List.append_assoc, ← List.append_assoc,
      wordAt_append (by simp [length_bytesLE]) ob.isLt, BitVec.ofNat_toNat, BitVec.setWidth_eq]
  have e6 : wordAt (Descriptor.toBytes ⟨d0, w, hh, ⟨ib, is, ob, os⟩, pr⟩) 6 = os := by
    simp only [Descriptor.toBytes, List.append_assoc]
    rw [← List.append_assoc, ← List.append_assoc, ← List.append_assoc, ← List.append_assoc, ← List.append_assoc,
      wordAt_append (by simp [length_bytesLE]) os.isLt, BitVec.ofNat_toNat, BitVec.setWidth_eq]
  have e7 : wordAt (Descriptor.toBytes ⟨d0, w, hh, ⟨ib, is, ob, os⟩, pr⟩) 7 = BitVec.ofNat 32 pr.toNat := by
    simp only [Descriptor.toBytes, List.append_assoc]
    rw [← List.append_nil (bytesLE 4 pr.toNat), ← List.append_assoc, ← List.append_assoc, ← List.append_assoc,
      ← List.append_assoc, ← List.append_assoc, ← List.append_assoc, wordAt_append (by simp [length_bytesLE]) (by omega)]
  simp only [Descriptor.ofBytes, e0, e1, e2, e3, e4, e5, e6, e7, h, ofNat_setWidth_toNat w (by omega),
    ofNat_setWidth_toNat hh (by omega), ofNat_setWidth_toNat pr (by omega)]

/-- The bytes of a descriptor denote the descriptor's command. -/
theorem decode_toBytes {d : Descriptor} (h : d.desc0 &&& desc0Mask = d.desc0) : decode d.toBytes = .ok d.command := by
  simp [decode, length_toBytes, ofBytes_toBytes h]

/-! ### The opcode word -/

@[simp] theorem desc0Word_mask (p : Bool) (k : Kind) (f : Fmt) : desc0Word p k f &&& desc0Mask = desc0Word p k f := by
  cases p <;> cases k <;> cases f <;> rfl

@[simp] theorem presentOf_desc0Word (p : Bool) (k : Kind) (f : Fmt) : presentOf (desc0Word p k f) = p := by
  cases p <;> cases k <;> cases f <;> rfl

@[simp] theorem kindOf_desc0Word (p : Bool) (k : Kind) (f : Fmt) : kindOf (desc0Word p k f) = k := by
  cases p <;> cases k <;> cases f <;> rfl

@[simp] theorem fmtOf_desc0Word (p : Bool) (k : Kind) (f : Fmt) : fmtOf (desc0Word p k f) = f := by
  cases p <;> cases k <;> cases f <;> rfl

@[simp] theorem ofBit_bit (p : Profile) : Profile.ofBit p.bit = p := by cases p <;> rfl

/-- What the bytes of a command's operands and `DESC0` fields denote. -/
theorem decodeEncoding_encodeCommand (k : Kind) (f : Fmt) (w h : BitVec 16) (b : Buffers) (sel : BitVec 1) :
    decodeEncoding (encodeCommand k f w h b sel) =
      .ok (commandOf (decodeOp (desc0Word true k f) w h) ⟨desc0Word true k f, w, h, b, sel⟩) := by
  simp [decodeEncoding, encodeCommand, decode_toBytes, Descriptor.command]

/-! ### The register map -/

theorem ofIndex_offset (r : Reg) : r.offset % 4 = 0 ∧ Reg.ofIndex (r.offset / 4) = some r := by
  cases r with
  | reserved n =>
    have h : (0x34 + 4 * n.val) / 4 = n.val + 13 := by omega
    simp only [Reg.offset, h, Reg.ofIndex]
    exact ⟨by omega, by simp⟩
  | _ => exact ⟨rfl, rfl⟩

@[simp] theorem decodeBus_writeAccess (r : Reg) (v : Word) : decodeBus (writeAccess r v) = .ok (.wr r v) := by
  simp [decodeBus, writeAccess, ofIndex_offset]

@[simp] theorem decodeBus_readAccess (r : Reg) : decodeBus (readAccess r) = .ok (.rd r) := by
  simp [decodeBus, readAccess, ofIndex_offset]

namespace RoundTrip

/-- Decode of encode is the instruction, unless the instruction is ill-formed; a pseudo-instruction's accesses are, one by one, the host operations it stands for. -/
def Statement (i : Instr) : Prop :=
  match expansion i with
  | some is => ∃ xs, encode i = .bus xs ∧ xs.map decodeBus = is.map Except.ok
  | none => i.wf = false ∨ decodeEncoding (encode i) = .ok i

theorem depth16 (w h : BitVec 16) (b : Buffers) (sel : Profile) : Statement (.depth16 w h b sel) := .inr <| by
  simp [encode, decodeEncoding_encodeCommand, decodeOp, commandOf]

theorem ir16 (w h : BitVec 16) (b : Buffers) : Statement (.ir16 w h b) := .inr <| by
  simp [encode, decodeEncoding_encodeCommand, decodeOp, commandOf]

theorem ir8 (w h : BitVec 16) (b : Buffers) : Statement (.ir8 w h b) := .inr <| by
  simp [encode, decodeEncoding_encodeCommand, decodeOp, commandOf]

theorem copy (w h : BitVec 16) (b : Buffers) : Statement (.copy w h b) := by
  by_cases hw : w.toNat = dsW ∧ h.toNat = dsH
  · exact .inl (by simp [Instr.wf, hw])
  · exact .inr (by simp [encode, decodeEncoding_encodeCommand, decodeOp, commandOf, hw])

theorem dsrot (b : Buffers) : Statement (.dsrot b) := .inr <| by
  simp [encode, decodeEncoding_encodeCommand, decodeOp, commandOf, dsW, dsH]

theorem null : Statement .null := .inr (by decide)

theorem noneColorGray8 : Statement .noneColorGray8 := .inr <| by
  simp [encode, encodeNone, decodeEncoding_encodeCommand, decodeOp, commandOf, noneCell]

theorem noneColorGray16 : Statement .noneColorGray16 := .inr <| by
  simp [encode, encodeNone, decodeEncoding_encodeCommand, decodeOp, commandOf, noneCell]

theorem noneColorOther : Statement .noneColorOther := .inr <| by
  simp [encode, encodeNone, decodeEncoding_encodeCommand, decodeOp, commandOf, noneCell]

theorem noneDepthBgra8 : Statement .noneDepthBgra8 := .inr <| by
  simp [encode, encodeNone, decodeEncoding_encodeCommand, decodeOp, commandOf, noneCell]

theorem noneDepthGray8 : Statement .noneDepthGray8 := .inr <| by
  simp [encode, encodeNone, decodeEncoding_encodeCommand, decodeOp, commandOf, noneCell]

theorem noneDepthOther : Statement .noneDepthOther := .inr <| by
  simp [encode, encodeNone, decodeEncoding_encodeCommand, decodeOp, commandOf, noneCell]

theorem noneInfraredBgra8 : Statement .noneInfraredBgra8 := .inr <| by
  simp [encode, encodeNone, decodeEncoding_encodeCommand, decodeOp, commandOf, noneCell]

theorem noneInfraredOther : Statement .noneInfraredOther := .inr <| by
  simp [encode, encodeNone, decodeEncoding_encodeCommand, decodeOp, commandOf, noneCell]

theorem noneOtherBgra8 : Statement .noneOtherBgra8 := .inr <| by
  simp [encode, encodeNone, decodeEncoding_encodeCommand, decodeOp, commandOf, noneCell]

theorem noneOtherGray8 : Statement .noneOtherGray8 := .inr <| by
  simp [encode, encodeNone, decodeEncoding_encodeCommand, decodeOp, commandOf, noneCell]

theorem noneOtherGray16 : Statement .noneOtherGray16 := .inr <| by
  simp [encode, encodeNone, decodeEncoding_encodeCommand, decodeOp, commandOf, noneCell]

theorem noneOtherOther : Statement .noneOtherOther := .inr <| by
  simp [encode, encodeNone, decodeEncoding_encodeCommand, decodeOp, commandOf, noneCell]

theorem wr (r : Reg) (v : Word) : Statement (.wr r v) := .inr (decodeBus_writeAccess r v)

theorem rd (r : Reg) : Statement (.rd r) := .inr (decodeBus_readAccess r)

theorem cvt (kind : Kind) (fmt : Fmt) (w h : Word) (b : Buffers) (profile : Option Profile) (absent : Bool) :
    Statement (.cvt kind fmt w h b profile absent) :=
  ⟨cvtAccesses kind fmt w h b profile absent, rfl, by
    simp only [cvtAccesses, List.map_map]
    exact List.map_congr_left fun x _ => decodeBus_writeAccess x.1 x.2⟩

theorem wait : Statement .wait := ⟨[readAccess .status], rfl, rfl⟩

theorem ack : Statement .ack := ⟨[writeAccess .status ackWord], rfl, rfl⟩

end RoundTrip

end Sys2Proof.Laws
end

