-- ==== Sys2Proof/Laws/State.lean ====
section
/-! SUPPORT. One small lemma for each field of the state under each shared update, so that no later proof unfolds a record
update. -/

namespace Sys2Proof.Machine

/-! ### The parameters: every field but `faulting` is that of the platform's base, whichever conversion runs -/

@[simp] theorem during_palette (p : Platform) (k : Nat) : (p.during k).palette = p.base.palette := rfl
@[simp] theorem during_invalidColor (p : Platform) (k : Nat) : (p.during k).invalidColor = p.base.invalidColor := rfl
@[simp] theorem during_devices (p : Platform) (k : Nat) : (p.during k).devices = p.base.devices := rfl
@[simp] theorem during_regBase (p : Platform) (k : Nat) : (p.during k).regBase = p.base.regBase := rfl
@[simp] theorem during_faulting (p : Platform) (k : Nat) : (p.during k).faulting = p.faultingAt k := rfl
@[simp] theorem cfg_palette (s : State) : s.cfg.palette = s.env.base.palette := rfl
@[simp] theorem cfg_invalidColor (s : State) : s.cfg.invalidColor = s.env.base.invalidColor := rfl
@[simp] theorem cfg_devices (s : State) : s.cfg.devices = s.env.base.devices := rfl
@[simp] theorem cfg_regBase (s : State) : s.cfg.regBase = s.env.base.regBase := rfl
@[simp] theorem cfg_faulting (s : State) : s.cfg.faulting = s.env.faultingAt s.started := rfl

/-! ### `completeOk` -/

@[simp] theorem completeOk_busy (s : State) : (completeOk s).busy = false := rfl
@[simp] theorem completeOk_done (s : State) : (completeOk s).done = true := rfl
@[simp] theorem completeOk_dropped (s : State) : (completeOk s).dropped = s.dropped := rfl
@[simp] theorem completeOk_result (s : State) : (completeOk s).result = .ok := rfl
@[simp] theorem completeOk_dlutReady (s : State) : (completeOk s).dlutReady = s.dlutReady := rfl
@[simp] theorem completeOk_ilutReady (s : State) : (completeOk s).ilutReady = s.ilutReady := rfl
@[simp] theorem completeOk_desc (s : State) : (completeOk s).desc = s.desc := rfl
@[simp] theorem completeOk_log (s : State) : (completeOk s).log = s.log := rfl
@[simp] theorem completeOk_dlut (s : State) : (completeOk s).dlut = s.dlut := rfl
@[simp] theorem completeOk_ilut (s : State) : (completeOk s).ilut = s.ilut := rfl
@[simp] theorem completeOk_op (s : State) : (completeOk s).op = s.op := rfl
@[simp] theorem completeOk_row (s : State) : (completeOk s).row = s.row := rfl
@[simp] theorem completeOk_col (s : State) : (completeOk s).col = s.col := rfl
@[simp] theorem completeOk_mem (s : State) : (completeOk s).mem = s.mem := rfl
@[simp] theorem completeOk_cfg (s : State) : (completeOk s).cfg = s.cfg := rfl
@[simp] theorem completeOk_env (s : State) : (completeOk s).env = s.env := rfl
@[simp] theorem completeOk_started (s : State) : (completeOk s).started = s.started := rfl
@[simp] theorem completeOk_hostQueue (s : State) : (completeOk s).hostQueue = s.hostQueue := rfl
@[simp] theorem completeOk_schedule (s : State) : (completeOk s).schedule = s.schedule := rfl
@[simp] theorem completeOk_readData (s : State) : (completeOk s).readData = s.readData := rfl
@[simp] theorem completeOk_loadData (s : State) : (completeOk s).loadData = s.loadData := rfl
@[simp] theorem completeOk_freeCount (s : State) : (completeOk s).freeCount = s.freeCount := rfl

/-! ### `raiseNull` -/

@[simp] theorem raiseNull_busy (s : State) : (raiseCause .null s).busy = false := rfl
@[simp] theorem raiseNull_done (s : State) : (raiseCause .null s).done = true := rfl
@[simp] theorem raiseNull_dropped (s : State) : (raiseCause .null s).dropped = s.dropped := rfl
@[simp] theorem raiseNull_result (s : State) : (raiseCause .null s).result = .null := rfl
@[simp] theorem raiseNull_dlutReady (s : State) : (raiseCause .null s).dlutReady = s.dlutReady := rfl
@[simp] theorem raiseNull_ilutReady (s : State) : (raiseCause .null s).ilutReady = s.ilutReady := rfl
@[simp] theorem raiseNull_desc (s : State) : (raiseCause .null s).desc = s.desc := rfl
@[simp] theorem raiseNull_log (s : State) : (raiseCause .null s).log = s.log := rfl
@[simp] theorem raiseNull_dlut (s : State) : (raiseCause .null s).dlut = s.dlut := rfl
@[simp] theorem raiseNull_ilut (s : State) : (raiseCause .null s).ilut = s.ilut := rfl
@[simp] theorem raiseNull_op (s : State) : (raiseCause .null s).op = s.op := rfl
@[simp] theorem raiseNull_row (s : State) : (raiseCause .null s).row = s.row := rfl
@[simp] theorem raiseNull_col (s : State) : (raiseCause .null s).col = s.col := rfl
@[simp] theorem raiseNull_mem (s : State) : (raiseCause .null s).mem = s.mem := rfl
@[simp] theorem raiseNull_cfg (s : State) : (raiseCause .null s).cfg = s.cfg := rfl
@[simp] theorem raiseNull_env (s : State) : (raiseCause .null s).env = s.env := rfl
@[simp] theorem raiseNull_started (s : State) : (raiseCause .null s).started = s.started := rfl
@[simp] theorem raiseNull_hostQueue (s : State) : (raiseCause .null s).hostQueue = s.hostQueue := rfl
@[simp] theorem raiseNull_schedule (s : State) : (raiseCause .null s).schedule = s.schedule := rfl
@[simp] theorem raiseNull_readData (s : State) : (raiseCause .null s).readData = s.readData := rfl
@[simp] theorem raiseNull_loadData (s : State) : (raiseCause .null s).loadData = s.loadData := rfl
@[simp] theorem raiseNull_freeCount (s : State) : (raiseCause .null s).freeCount = s.freeCount := rfl

/-! ### `raiseUnsupported` -/

@[simp] theorem raiseUnsupported_busy (s : State) : (raiseCause .unsupported s).busy = false := rfl
@[simp] theorem raiseUnsupported_done (s : State) : (raiseCause .unsupported s).done = true := rfl
@[simp] theorem raiseUnsupported_dropped (s : State) : (raiseCause .unsupported s).dropped = s.dropped := rfl
@[simp] theorem raiseUnsupported_result (s : State) : (raiseCause .unsupported s).result = .unsupported := rfl
@[simp] theorem raiseUnsupported_dlutReady (s : State) : (raiseCause .unsupported s).dlutReady = s.dlutReady := rfl
@[simp] theorem raiseUnsupported_ilutReady (s : State) : (raiseCause .unsupported s).ilutReady = s.ilutReady := rfl
@[simp] theorem raiseUnsupported_desc (s : State) : (raiseCause .unsupported s).desc = s.desc := rfl
@[simp] theorem raiseUnsupported_log (s : State) : (raiseCause .unsupported s).log = { s.log with lastCause := .unsupported, aovf := false, logcnt := s.log.logcnt + 1 } := rfl
@[simp] theorem raiseUnsupported_dlut (s : State) : (raiseCause .unsupported s).dlut = s.dlut := rfl
@[simp] theorem raiseUnsupported_ilut (s : State) : (raiseCause .unsupported s).ilut = s.ilut := rfl
@[simp] theorem raiseUnsupported_op (s : State) : (raiseCause .unsupported s).op = s.op := rfl
@[simp] theorem raiseUnsupported_row (s : State) : (raiseCause .unsupported s).row = s.row := rfl
@[simp] theorem raiseUnsupported_col (s : State) : (raiseCause .unsupported s).col = s.col := rfl
@[simp] theorem raiseUnsupported_mem (s : State) : (raiseCause .unsupported s).mem = s.mem := rfl
@[simp] theorem raiseUnsupported_cfg (s : State) : (raiseCause .unsupported s).cfg = s.cfg := rfl
@[simp] theorem raiseUnsupported_env (s : State) : (raiseCause .unsupported s).env = s.env := rfl
@[simp] theorem raiseUnsupported_started (s : State) : (raiseCause .unsupported s).started = s.started := rfl
@[simp] theorem raiseUnsupported_hostQueue (s : State) : (raiseCause .unsupported s).hostQueue = s.hostQueue := rfl
@[simp] theorem raiseUnsupported_schedule (s : State) : (raiseCause .unsupported s).schedule = s.schedule := rfl
@[simp] theorem raiseUnsupported_readData (s : State) : (raiseCause .unsupported s).readData = s.readData := rfl
@[simp] theorem raiseUnsupported_loadData (s : State) : (raiseCause .unsupported s).loadData = s.loadData := rfl
@[simp] theorem raiseUnsupported_freeCount (s : State) : (raiseCause .unsupported s).freeCount = s.freeCount := rfl

/-! ### `raiseFault` -/

@[simp] theorem raiseFault_busy (a : Nat) (s : State) : (raiseCause (.fault a) s).busy = false := rfl
@[simp] theorem raiseFault_done (a : Nat) (s : State) : (raiseCause (.fault a) s).done = true := rfl
@[simp] theorem raiseFault_dropped (a : Nat) (s : State) : (raiseCause (.fault a) s).dropped = s.dropped := rfl
@[simp] theorem raiseFault_result (a : Nat) (s : State) : (raiseCause (.fault a) s).result = .fault := rfl
@[simp] theorem raiseFault_dlutReady (a : Nat) (s : State) : (raiseCause (.fault a) s).dlutReady = s.dlutReady := rfl
@[simp] theorem raiseFault_ilutReady (a : Nat) (s : State) : (raiseCause (.fault a) s).ilutReady = s.ilutReady := rfl
@[simp] theorem raiseFault_desc (a : Nat) (s : State) : (raiseCause (.fault a) s).desc = s.desc := rfl
@[simp] theorem raiseFault_log (a : Nat) (s : State) : (raiseCause (.fault a) s).log = 
    { lastCause := .fault, aovf := decide (addrSpace ≤ a), faultAddr := BitVec.ofNat 32 a, logcnt := s.log.logcnt + 1 } := rfl
@[simp] theorem raiseFault_dlut (a : Nat) (s : State) : (raiseCause (.fault a) s).dlut = s.dlut := rfl
@[simp] theorem raiseFault_ilut (a : Nat) (s : State) : (raiseCause (.fault a) s).ilut = s.ilut := rfl
@[simp] theorem raiseFault_op (a : Nat) (s : State) : (raiseCause (.fault a) s).op = s.op := rfl
@[simp] theorem raiseFault_row (a : Nat) (s : State) : (raiseCause (.fault a) s).row = s.row := rfl
@[simp] theorem raiseFault_col (a : Nat) (s : State) : (raiseCause (.fault a) s).col = s.col := rfl
@[simp] theorem raiseFault_mem (a : Nat) (s : State) : (raiseCause (.fault a) s).mem = s.mem := rfl
@[simp] theorem raiseFault_cfg (a : Nat) (s : State) : (raiseCause (.fault a) s).cfg = s.cfg := rfl
@[simp] theorem raiseFault_env (a : Nat) (s : State) : (raiseCause (.fault a) s).env = s.env := rfl
@[simp] theorem raiseFault_started (a : Nat) (s : State) : (raiseCause (.fault a) s).started = s.started := rfl
@[simp] theorem raiseFault_hostQueue (a : Nat) (s : State) : (raiseCause (.fault a) s).hostQueue = s.hostQueue := rfl
@[simp] theorem raiseFault_schedule (a : Nat) (s : State) : (raiseCause (.fault a) s).schedule = s.schedule := rfl
@[simp] theorem raiseFault_readData (a : Nat) (s : State) : (raiseCause (.fault a) s).readData = s.readData := rfl
@[simp] theorem raiseFault_loadData (a : Nat) (s : State) : (raiseCause (.fault a) s).loadData = s.loadData := rfl
@[simp] theorem raiseFault_freeCount (a : Nat) (s : State) : (raiseCause (.fault a) s).freeCount = s.freeCount := rfl

/-! ### `acceptStart` -/

@[simp] theorem acceptStart_busy (s : State) : (acceptStart s).busy = true := rfl
@[simp] theorem acceptStart_done (s : State) : (acceptStart s).done = false := rfl
@[simp] theorem acceptStart_dropped (s : State) : (acceptStart s).dropped = s.dropped := rfl
@[simp] theorem acceptStart_result (s : State) : (acceptStart s).result = .none := rfl
@[simp] theorem acceptStart_dlutReady (s : State) : (acceptStart s).dlutReady = s.dlutReady := rfl
@[simp] theorem acceptStart_ilutReady (s : State) : (acceptStart s).ilutReady = s.ilutReady := rfl
@[simp] theorem acceptStart_desc (s : State) : (acceptStart s).desc = s.desc := rfl
@[simp] theorem acceptStart_log (s : State) : (acceptStart s).log = s.log := rfl
@[simp] theorem acceptStart_dlut (s : State) : (acceptStart s).dlut = s.dlut := rfl
@[simp] theorem acceptStart_ilut (s : State) : (acceptStart s).ilut = s.ilut := rfl
@[simp] theorem acceptStart_op (s : State) : (acceptStart s).op = decodeOp s.desc.desc0 s.desc.width s.desc.height := rfl
@[simp] theorem acceptStart_row (s : State) : (acceptStart s).row = 0 := rfl
@[simp] theorem acceptStart_col (s : State) : (acceptStart s).col = 0 := rfl
@[simp] theorem acceptStart_mem (s : State) : (acceptStart s).mem = s.mem := rfl
@[simp] theorem acceptStart_cfg (s : State) : (acceptStart s).cfg = s.env.during (s.started + 1) := rfl
@[simp] theorem acceptStart_env (s : State) : (acceptStart s).env = s.env := rfl
@[simp] theorem acceptStart_started (s : State) : (acceptStart s).started = s.started + 1 := rfl
@[simp] theorem acceptStart_hostQueue (s : State) : (acceptStart s).hostQueue = s.hostQueue := rfl
@[simp] theorem acceptStart_schedule (s : State) : (acceptStart s).schedule = s.schedule := rfl
@[simp] theorem acceptStart_readData (s : State) : (acceptStart s).readData = s.readData := rfl
@[simp] theorem acceptStart_loadData (s : State) : (acceptStart s).loadData = s.loadData := rfl
@[simp] theorem acceptStart_freeCount (s : State) : (acceptStart s).freeCount = s.freeCount := rfl

/-! ### `acknowledge` -/

@[simp] theorem acknowledge_busy (v : Word) (s : State) : (acknowledge v s).busy = s.busy := rfl
@[simp] theorem acknowledge_done (v : Word) (s : State) : (acknowledge v s).done = (s.done && !v.getLsbD 1) := rfl
@[simp] theorem acknowledge_dropped (v : Word) (s : State) : (acknowledge v s).dropped = (s.dropped && !v.getLsbD 12) := rfl
@[simp] theorem acknowledge_result (v : Word) (s : State) : (acknowledge v s).result = s.result := rfl
@[simp] theorem acknowledge_dlutReady (v : Word) (s : State) : (acknowledge v s).dlutReady = s.dlutReady := rfl
@[simp] theorem acknowledge_ilutReady (v : Word) (s : State) : (acknowledge v s).ilutReady = s.ilutReady := rfl
@[simp] theorem acknowledge_desc (v : Word) (s : State) : (acknowledge v s).desc = s.desc := rfl
@[simp] theorem acknowledge_log (v : Word) (s : State) : (acknowledge v s).log = s.log := rfl
@[simp] theorem acknowledge_dlut (v : Word) (s : State) : (acknowledge v s).dlut = s.dlut := rfl
@[simp] theorem acknowledge_ilut (v : Word) (s : State) : (acknowledge v s).ilut = s.ilut := rfl
@[simp] theorem acknowledge_op (v : Word) (s : State) : (acknowledge v s).op = s.op := rfl
@[simp] theorem acknowledge_row (v : Word) (s : State) : (acknowledge v s).row = s.row := rfl
@[simp] theorem acknowledge_col (v : Word) (s : State) : (acknowledge v s).col = s.col := rfl
@[simp] theorem acknowledge_mem (v : Word) (s : State) : (acknowledge v s).mem = s.mem := rfl
@[simp] theorem acknowledge_cfg (v : Word) (s : State) : (acknowledge v s).cfg = s.cfg := rfl
@[simp] theorem acknowledge_env (v : Word) (s : State) : (acknowledge v s).env = s.env := rfl
@[simp] theorem acknowledge_started (v : Word) (s : State) : (acknowledge v s).started = s.started := rfl
@[simp] theorem acknowledge_hostQueue (v : Word) (s : State) : (acknowledge v s).hostQueue = s.hostQueue := rfl
@[simp] theorem acknowledge_schedule (v : Word) (s : State) : (acknowledge v s).schedule = s.schedule := rfl
@[simp] theorem acknowledge_readData (v : Word) (s : State) : (acknowledge v s).readData = s.readData := rfl
@[simp] theorem acknowledge_loadData (v : Word) (s : State) : (acknowledge v s).loadData = s.loadData := rfl
@[simp] theorem acknowledge_freeCount (v : Word) (s : State) : (acknowledge v s).freeCount = s.freeCount := rfl

/-! ### `spoilOutput` -/

@[simp] theorem spoilOutput_busy (f : Footprint) (s : State) : (spoilOutput f s).busy = s.busy := rfl
@[simp] theorem spoilOutput_done (f : Footprint) (s : State) : (spoilOutput f s).done = s.done := rfl
@[simp] theorem spoilOutput_dropped (f : Footprint) (s : State) : (spoilOutput f s).dropped = s.dropped := rfl
@[simp] theorem spoilOutput_result (f : Footprint) (s : State) : (spoilOutput f s).result = s.result := rfl
@[simp] theorem spoilOutput_dlutReady (f : Footprint) (s : State) : (spoilOutput f s).dlutReady = s.dlutReady := rfl
@[simp] theorem spoilOutput_ilutReady (f : Footprint) (s : State) : (spoilOutput f s).ilutReady = s.ilutReady := rfl
@[simp] theorem spoilOutput_desc (f : Footprint) (s : State) : (spoilOutput f s).desc = s.desc := rfl
@[simp] theorem spoilOutput_log (f : Footprint) (s : State) : (spoilOutput f s).log = s.log := rfl
@[simp] theorem spoilOutput_dlut (f : Footprint) (s : State) : (spoilOutput f s).dlut = s.dlut := rfl
@[simp] theorem spoilOutput_ilut (f : Footprint) (s : State) : (spoilOutput f s).ilut = s.ilut := rfl
@[simp] theorem spoilOutput_op (f : Footprint) (s : State) : (spoilOutput f s).op = s.op := rfl
@[simp] theorem spoilOutput_row (f : Footprint) (s : State) : (spoilOutput f s).row = s.row := rfl
@[simp] theorem spoilOutput_col (f : Footprint) (s : State) : (spoilOutput f s).col = s.col := rfl
@[simp] theorem spoilOutput_mem (f : Footprint) (s : State) : (spoilOutput f s).mem = spoilRows s.freeCount f s.mem f.rows := rfl
@[simp] theorem spoilOutput_cfg (f : Footprint) (s : State) : (spoilOutput f s).cfg = s.cfg := rfl
@[simp] theorem spoilOutput_env (f : Footprint) (s : State) : (spoilOutput f s).env = s.env := rfl
@[simp] theorem spoilOutput_started (f : Footprint) (s : State) : (spoilOutput f s).started = s.started := rfl
@[simp] theorem spoilOutput_hostQueue (f : Footprint) (s : State) : (spoilOutput f s).hostQueue = s.hostQueue := rfl
@[simp] theorem spoilOutput_schedule (f : Footprint) (s : State) : (spoilOutput f s).schedule = s.schedule := rfl
@[simp] theorem spoilOutput_readData (f : Footprint) (s : State) : (spoilOutput f s).readData = s.readData := rfl
@[simp] theorem spoilOutput_loadData (f : Footprint) (s : State) : (spoilOutput f s).loadData = s.loadData := rfl
@[simp] theorem spoilOutput_freeCount (f : Footprint) (s : State) : (spoilOutput f s).freeCount = s.freeCount + 1 := rfl

/-! ### `popSchedule` -/

@[simp] theorem popSchedule_busy (s : State) : (popSchedule s).busy = s.busy := rfl
@[simp] theorem popSchedule_done (s : State) : (popSchedule s).done = s.done := rfl
@[simp] theorem popSchedule_dropped (s : State) : (popSchedule s).dropped = s.dropped := rfl
@[simp] theorem popSchedule_result (s : State) : (popSchedule s).result = s.result := rfl
@[simp] theorem popSchedule_dlutReady (s : State) : (popSchedule s).dlutReady = s.dlutReady := rfl
@[simp] theorem popSchedule_ilutReady (s : State) : (popSchedule s).ilutReady = s.ilutReady := rfl
@[simp] theorem popSchedule_desc (s : State) : (popSchedule s).desc = s.desc := rfl
@[simp] theorem popSchedule_log (s : State) : (popSchedule s).log = s.log := rfl
@[simp] theorem popSchedule_dlut (s : State) : (popSchedule s).dlut = s.dlut := rfl
@[simp] theorem popSchedule_ilut (s : State) : (popSchedule s).ilut = s.ilut := rfl
@[simp] theorem popSchedule_op (s : State) : (popSchedule s).op = s.op := rfl
@[simp] theorem popSchedule_row (s : State) : (popSchedule s).row = s.row := rfl
@[simp] theorem popSchedule_col (s : State) : (popSchedule s).col = s.col := rfl
@[simp] theorem popSchedule_mem (s : State) : (popSchedule s).mem = s.mem := rfl
@[simp] theorem popSchedule_cfg (s : State) : (popSchedule s).cfg = s.cfg := rfl
@[simp] theorem popSchedule_env (s : State) : (popSchedule s).env = s.env := rfl
@[simp] theorem popSchedule_started (s : State) : (popSchedule s).started = s.started := rfl
@[simp] theorem popSchedule_hostQueue (s : State) : (popSchedule s).hostQueue = s.hostQueue := rfl
@[simp] theorem popSchedule_schedule (s : State) : (popSchedule s).schedule = s.schedule.tail := rfl
@[simp] theorem popSchedule_readData (s : State) : (popSchedule s).readData = s.readData := rfl
@[simp] theorem popSchedule_loadData (s : State) : (popSchedule s).loadData = s.loadData := rfl
@[simp] theorem popSchedule_freeCount (s : State) : (popSchedule s).freeCount = s.freeCount := rfl

/-! ### `resetCrr` -/

@[simp] theorem resetCrr_busy (s : State) : (resetCrr s).busy = false := rfl
@[simp] theorem resetCrr_done (s : State) : (resetCrr s).done = false := rfl
@[simp] theorem resetCrr_dropped (s : State) : (resetCrr s).dropped = false := rfl
@[simp] theorem resetCrr_result (s : State) : (resetCrr s).result = .none := rfl
@[simp] theorem resetCrr_dlutReady (s : State) : (resetCrr s).dlutReady = false := rfl
@[simp] theorem resetCrr_ilutReady (s : State) : (resetCrr s).ilutReady = false := rfl
@[simp] theorem resetCrr_desc (s : State) : (resetCrr s).desc = zeroDescriptor := rfl
@[simp] theorem resetCrr_log (s : State) : (resetCrr s).log = ⟨.none, false, 0, 0⟩ := rfl
@[simp] theorem resetCrr_dlut (s : State) : (resetCrr s).dlut = unbuiltTable := rfl
@[simp] theorem resetCrr_ilut (s : State) : (resetCrr s).ilut = unbuiltTable := rfl
@[simp] theorem resetCrr_op (s : State) : (resetCrr s).op = .null := rfl
@[simp] theorem resetCrr_row (s : State) : (resetCrr s).row = 0 := rfl
@[simp] theorem resetCrr_col (s : State) : (resetCrr s).col = 0 := rfl
@[simp] theorem resetCrr_mem (s : State) : (resetCrr s).mem = s.mem := rfl
@[simp] theorem resetCrr_cfg (s : State) : (resetCrr s).cfg = s.cfg := rfl
@[simp] theorem resetCrr_env (s : State) : (resetCrr s).env = s.env := rfl
@[simp] theorem resetCrr_started (s : State) : (resetCrr s).started = s.started := rfl
@[simp] theorem resetCrr_hostQueue (s : State) : (resetCrr s).hostQueue = s.hostQueue := rfl
@[simp] theorem resetCrr_schedule (s : State) : (resetCrr s).schedule = s.schedule := rfl
@[simp] theorem resetCrr_readData (s : State) : (resetCrr s).readData = s.readData := rfl
@[simp] theorem resetCrr_loadData (s : State) : (resetCrr s).loadData = s.loadData := rfl
@[simp] theorem resetCrr_freeCount (s : State) : (resetCrr s).freeCount = s.freeCount := rfl

/-! ### `ensureDlut` -/

@[simp] theorem ensureDlut_busy (s : State) : (ensureDlut s).busy = s.busy := by
  unfold ensureDlut; split <;> simp_all
@[simp] theorem ensureDlut_done (s : State) : (ensureDlut s).done = s.done := by
  unfold ensureDlut; split <;> simp_all
@[simp] theorem ensureDlut_dropped (s : State) : (ensureDlut s).dropped = s.dropped := by
  unfold ensureDlut; split <;> simp_all
@[simp] theorem ensureDlut_result (s : State) : (ensureDlut s).result = s.result := by
  unfold ensureDlut; split <;> simp_all
@[simp] theorem ensureDlut_dlutReady (s : State) : (ensureDlut s).dlutReady = true := by
  unfold ensureDlut; split <;> simp_all
@[simp] theorem ensureDlut_ilutReady (s : State) : (ensureDlut s).ilutReady = s.ilutReady := by
  unfold ensureDlut; split <;> simp_all
@[simp] theorem ensureDlut_desc (s : State) : (ensureDlut s).desc = s.desc := by
  unfold ensureDlut; split <;> simp_all
@[simp] theorem ensureDlut_log (s : State) : (ensureDlut s).log = s.log := by
  unfold ensureDlut; split <;> simp_all
@[simp] theorem ensureDlut_dlut (s : State) : (ensureDlut s).dlut = if s.dlutReady then s.dlut else buildTable (genDepth s.cfg.palette) := by
  unfold ensureDlut; split <;> simp_all
@[simp] theorem ensureDlut_ilut (s : State) : (ensureDlut s).ilut = s.ilut := by
  unfold ensureDlut; split <;> simp_all
@[simp] theorem ensureDlut_op (s : State) : (ensureDlut s).op = s.op := by
  unfold ensureDlut; split <;> simp_all
@[simp] theorem ensureDlut_row (s : State) : (ensureDlut s).row = s.row := by
  unfold ensureDlut; split <;> simp_all
@[simp] theorem ensureDlut_col (s : State) : (ensureDlut s).col = s.col := by
  unfold ensureDlut; split <;> simp_all
@[simp] theorem ensureDlut_mem (s : State) : (ensureDlut s).mem = s.mem := by
  unfold ensureDlut; split <;> simp_all
@[simp] theorem ensureDlut_env (s : State) : (ensureDlut s).env = s.env := by
  unfold ensureDlut; split <;> simp_all
@[simp] theorem ensureDlut_started (s : State) : (ensureDlut s).started = s.started := by
  unfold ensureDlut; split <;> simp_all
@[simp] theorem ensureDlut_cfg (s : State) : (ensureDlut s).cfg = s.cfg := by
  simp [State.cfg]
@[simp] theorem ensureDlut_hostQueue (s : State) : (ensureDlut s).hostQueue = s.hostQueue := by
  unfold ensureDlut; split <;> simp_all
@[simp] theorem ensureDlut_schedule (s : State) : (ensureDlut s).schedule = s.schedule := by
  unfold ensureDlut; split <;> simp_all
@[simp] theorem ensureDlut_readData (s : State) : (ensureDlut s).readData = s.readData := by
  unfold ensureDlut; split <;> simp_all
@[simp] theorem ensureDlut_loadData (s : State) : (ensureDlut s).loadData = s.loadData := by
  unfold ensureDlut; split <;> simp_all
@[simp] theorem ensureDlut_freeCount (s : State) : (ensureDlut s).freeCount = s.freeCount := by
  unfold ensureDlut; split <;> simp_all

/-! ### `ensureIlut` -/

@[simp] theorem ensureIlut_busy (s : State) : (ensureIlut s).busy = s.busy := by
  unfold ensureIlut; split <;> simp_all
@[simp] theorem ensureIlut_done (s : State) : (ensureIlut s).done = s.done := by
  unfold ensureIlut; split <;> simp_all
@[simp] theorem ensureIlut_dropped (s : State) : (ensureIlut s).dropped = s.dropped := by
  unfold ensureIlut; split <;> simp_all
@[simp] theorem ensureIlut_result (s : State) : (ensureIlut s).result = s.result := by
  unfold ensureIlut; split <;> simp_all
@[simp] theorem ensureIlut_dlutReady (s : State) : (ensureIlut s).dlutReady = s.dlutReady := by
  unfold ensureIlut; split <;> simp_all
@[simp] theorem ensureIlut_ilutReady (s : State) : (ensureIlut s).ilutReady = true := by
  unfold ensureIlut; split <;> simp_all
@[simp] theorem ensureIlut_desc (s : State) : (ensureIlut s).desc = s.desc := by
  unfold ensureIlut; split <;> simp_all
@[simp] theorem ensureIlut_log (s : State) : (ensureIlut s).log = s.log := by
  unfold ensureIlut; split <;> simp_all
@[simp] theorem ensureIlut_dlut (s : State) : (ensureIlut s).dlut = s.dlut := by
  unfold ensureIlut; split <;> simp_all
@[simp] theorem ensureIlut_ilut (s : State) : (ensureIlut s).ilut = if s.ilutReady then s.ilut else buildTable (genIr s.cfg.palette) := by
  unfold ensureIlut; split <;> simp_all
@[simp] theorem ensureIlut_op (s : State) : (ensureIlut s).op = s.op := by
  unfold ensureIlut; split <;> simp_all
@[simp] theorem ensureIlut_row (s : State) : (ensureIlut s).row = s.row := by
  unfold ensureIlut; split <;> simp_all
@[simp] theorem ensureIlut_col (s : State) : (ensureIlut s).col = s.col := by
  unfold ensureIlut; split <;> simp_all
@[simp] theorem ensureIlut_mem (s : State) : (ensureIlut s).mem = s.mem := by
  unfold ensureIlut; split <;> simp_all
@[simp] theorem ensureIlut_env (s : State) : (ensureIlut s).env = s.env := by
  unfold ensureIlut; split <;> simp_all
@[simp] theorem ensureIlut_started (s : State) : (ensureIlut s).started = s.started := by
  unfold ensureIlut; split <;> simp_all
@[simp] theorem ensureIlut_cfg (s : State) : (ensureIlut s).cfg = s.cfg := by
  simp [State.cfg]
@[simp] theorem ensureIlut_hostQueue (s : State) : (ensureIlut s).hostQueue = s.hostQueue := by
  unfold ensureIlut; split <;> simp_all
@[simp] theorem ensureIlut_schedule (s : State) : (ensureIlut s).schedule = s.schedule := by
  unfold ensureIlut; split <;> simp_all
@[simp] theorem ensureIlut_readData (s : State) : (ensureIlut s).readData = s.readData := by
  unfold ensureIlut; split <;> simp_all
@[simp] theorem ensureIlut_loadData (s : State) : (ensureIlut s).loadData = s.loadData := by
  unfold ensureIlut; split <;> simp_all
@[simp] theorem ensureIlut_freeCount (s : State) : (ensureIlut s).freeCount = s.freeCount := by
  unfold ensureIlut; split <;> simp_all

end Sys2Proof.Machine
end

