-- ==== Sys2Proof/Laws/Transfer.lean ====
section
/-! SUPPORT. What a transfer does: whether it fails and where (R54), what a completed one leaves in memory (R93, R111, R120,
R126), and that it keeps the canonical form. -/

namespace Sys2Proof.Machine

/-! ### Loops -/

/-- An invariant of the iterations of a loop holds when it completes. -/
theorem forCount_invariant {body : Nat → Memory → Except Nat Memory} (P : Nat → Memory → Prop) {n : Nat} :
    ∀ {i : Nat} {m m' : Memory}, P i m →
      (∀ j m m', i ≤ j → j < i + n → P j m → body j m = .ok m' → P (j + 1) m') →
      forCount body n i m = .ok m' → P (i + n) m' := by
  induction n with
  | zero =>
    intro i m m' h0 _ h
    cases h
    exact h0
  | succ n ih =>
    intro i m m' h0 hs h
    unfold forCount at h
    split at h
    · cases h
    · rename_i m1 h1
      have := ih (hs i m m1 (by omega) (by omega) h0 h1)
        (fun j m m' h1 h2 => hs j m m' (by omega) (by omega)) h
      rwa [show i + (n + 1) = i + 1 + n by omega]

/-- `t` performs the accesses `acc`: it fails exactly at the first of them for which `MemOK` is false (R54). -/
def Follows (cfg : Config) (t : Memory → Except Nat Memory) (acc : List Nat) : Prop :=
  (∀ a, acc.find? (fun a => !memOK cfg a) = some a → ∀ m, t m = .error a) ∧
  (acc.find? (fun a => !memOK cfg a) = none → ∀ m, ∃ m', t m = .ok m')

theorem mem_bytesFrom {a n x : Nat} : x ∈ bytesFrom a n ↔ a ≤ x ∧ x < a + n := by
  induction n generalizing a with
  | zero => simp only [bytesFrom, List.not_mem_nil, false_iff]; omega
  | succ n ih => simp only [bytesFrom, List.mem_cons, ih]; omega

theorem firstBad_eq_find? (cfg : Config) (a n : Nat) :
    firstBad cfg a n = (bytesFrom a n).find? (fun a => !memOK cfg a) := by
  induction n generalizing a with
  | zero => rfl
  | succ n ih =>
    simp only [firstBad, bytesFrom, List.find?_cons, ih]
    cases memOK cfg a <;> simp

theorem follows_forCount {cfg : Config} {body : Nat → Memory → Except Nat Memory} {acc : Nat → List Nat} {n : Nat} :
    ∀ {i : Nat}, (∀ j, i ≤ j → j < i + n → Follows cfg (body j) (acc j)) →
      Follows cfg (forCount body n i) ((List.range' i n).flatMap acc) := by
  induction n with
  | zero =>
    intro i _
    exact ⟨fun a h => by simp at h, fun _ m => ⟨m, rfl⟩⟩
  | succ n ih =>
    intro i h
    obtain ⟨hi1, hi2⟩ := h i (by omega) (by omega)
    obtain ⟨hr1, hr2⟩ := ih (i := i + 1) fun j h1 h2 => h j (by omega) (by omega)
    simp only [Follows, List.range'_succ, List.flatMap_cons, List.find?_append]
    cases hf : (acc i).find? (fun a => !memOK cfg a) with
    | some a =>
      refine ⟨fun b hb m => ?_, fun hb => by simp at hb⟩
      simp only [Option.some_or, Option.some.injEq] at hb
      subst hb
      simp [forCount, hi1 a hf m]
    | none =>
      simp only [Option.none_or]
      refine ⟨fun b hb m => ?_, fun hb m => ?_⟩
      · obtain ⟨m1, h1⟩ := hi2 hf m
        simp only [forCount, h1]
        exact hr1 b hb m1
      · obtain ⟨m1, h1⟩ := hi2 hf m
        simp only [forCount, h1]
        exact hr2 hb m1

theorem follows_movePixel (cfg : Config) (ibpp : Nat) (pixel : Nat → Word) (src dst : Nat) :
    Follows cfg (movePixel cfg ibpp pixel src dst) (bytesFrom src ibpp ++ bytesFrom dst 4) := by
  have h (m : Memory) (v : Nat) : memWrite cfg m dst 4 v =
      match firstBad cfg dst 4 with | some bad => .error bad | none => .ok (writeLE m dst 4 v) := rfl
  simp only [Follows, List.find?_append, ← firstBad_eq_find?, movePixel, memRead]
  cases firstBad cfg src ibpp with
  | some a => exact ⟨fun b hb m => by simp_all, fun hb => by simp at hb⟩
  | none =>
    cases hd : firstBad cfg dst 4 with
    | some a => exact ⟨fun b hb m => by simp_all, fun hb => by simp at hb⟩
    | none => exact ⟨fun b hb m => by simp at hb, fun hb m => by simp [h, hd]⟩

theorem follows_mapRow (cfg : Config) (ibpp : Nat) (pixel : Nat → Word) (w src dst : Nat) :
    Follows cfg (mapRow cfg ibpp pixel w src dst)
      (concatBelow w fun x => bytesFrom (src + x * ibpp) ibpp ++ bytesFrom (dst + 4 * x) 4) := by
  rw [concatBelow, List.range_eq_range']
  exact follows_forCount fun j _ _ => follows_movePixel ..

/-- A row-driven transfer performs exactly the accesses of R54, in that order. -/
theorem follows_rowDriver (cfg : Config) (ibpp : Nat) (pixel : Nat → Word) (w h : Nat) (b : Buffers) :
    Follows cfg (rowDriver (mapRow cfg ibpp pixel w) h b) (rowAccesses ibpp w h b) := by
  rw [rowAccesses, concatBelow, List.range_eq_range']
  exact follows_forCount fun j _ _ => follows_mapRow ..

theorem follows_downBlock (cfg : Config) (b : Buffers) (yb xb : Nat) :
    Follows cfg (downBlock cfg b yb xb)
      ([tapAddr b (2 * xb) (2 * yb), tapAddr b (2 * xb + 1) (2 * yb), tapAddr b (2 * xb) (2 * yb + 1),
        tapAddr b (2 * xb + 1) (2 * yb + 1)] ++ bytesFrom (downPixelAddr b xb (dsH / 2 - 1 - yb)) 4) := by
  simp only [Follows, List.find?_append, ← firstBad_eq_find?, downBlock, memRead, storeColor, memWrite, firstBad,
    List.find?_cons, List.find?_nil]
  cases memOK cfg (tapAddr b (2 * xb) (2 * yb)) <;> cases memOK cfg (tapAddr b (2 * xb + 1) (2 * yb)) <;>
    cases memOK cfg (tapAddr b (2 * xb) (2 * yb + 1)) <;> cases memOK cfg (tapAddr b (2 * xb + 1) (2 * yb + 1)) <;>
    simp
  split
  · simp_all
  · simp_all

/-- `DSROT` performs exactly the accesses of R130, in that order. -/
theorem follows_downsampleRotate (cfg : Config) (b : Buffers) :
    Follows cfg (downsampleRotate cfg b) (downAccesses b) := by
  rw [downAccesses, concatBelow, List.range_eq_range']
  refine follows_forCount fun j _ _ => ?_
  rw [concatBelow, List.range_eq_range']
  exact follows_forCount fun k _ _ => follows_downBlock ..

/-! ### What a completed loop of stores leaves in memory -/

/-- A loop that stores 4 bytes at `dst + 4*x`, the value not depending on the stored span, stores every value computed from the
memory it began with, and touches no other byte. -/
theorem forCount_stores {body : Nat → Memory → Except Nat Memory} {n dst : Nat} {val : Nat → Memory → Nat}
    (hbody : ∀ x m m', x < n → body x m = .ok m' → m' = writeLE m (dst + 4 * x) 4 (val x m))
    (hval : ∀ x m m', x < n → (∀ a, a < dst ∨ dst + 4 * n ≤ a → Memory.get m a = Memory.get m' a) → val x m = val x m')
    {m m' : Memory} (h : forCount body n 0 m = .ok m') :
    (∀ x, x < n → readLE m' (dst + 4 * x) 4 = val x m % 256 ^ 4) ∧
    (∀ a, a < dst ∨ dst + 4 * n ≤ a → Memory.get m' a = Memory.get m a) := by
  have key := forCount_invariant (body := body) (n := n) (i := 0) (m := m) (m' := m')
    (fun i m1 => (∀ x, x < i → readLE m1 (dst + 4 * x) 4 = val x m % 256 ^ 4) ∧
      (∀ a, a < dst ∨ dst + 4 * n ≤ a → Memory.get m1 a = Memory.get m a))
    ⟨fun x hx => by omega, fun a _ => rfl⟩ ?_ h
  · simpa using key
  · rintro j m1 m2 - hj ⟨h1, h2⟩ hb
    have hjn : j < n := by omega
    rw [hbody j m1 m2 hjn hb]
    refine ⟨fun x hx => ?_, fun a ha => ?_⟩
    · by_cases hxj : x = j
      · subst hxj
        rw [readLE_writeLE_self, hval x m1 m hjn h2]
      · rw [readLE_writeLE_outside (by omega)]
        exact h1 x (by omega)
    · rw [get_writeLE_outside (by omega)]
      exact h2 a ha

/-- A loop over rows, each of which stores `w` pixels in its own row and touches nothing else, stores every pixel computed from
the memory it began with. -/
theorem forCount_rows {body : Nat → Memory → Except Nat Memory} {n w : Nat} {dst : Nat → Nat}
    {val : Nat → Nat → Memory → Nat}
    (hrow : ∀ r m m', r < n → body r m = .ok m' →
      (∀ x, x < w → readLE m' (dst r + 4 * x) 4 = val r x m) ∧
      (∀ a, a < dst r ∨ dst r + 4 * w ≤ a → Memory.get m' a = Memory.get m a))
    (hval : ∀ r x m m', r < n → x < w →
      (∀ a, (∀ q, q < n → a < dst q ∨ dst q + 4 * w ≤ a) → Memory.get m a = Memory.get m' a) → val r x m = val r x m')
    (hdst : ∀ r q, r < n → q < n → r ≠ q → dst r + 4 * w ≤ dst q ∨ dst q + 4 * w ≤ dst r)
    {m m' : Memory} (h : forCount body n 0 m = .ok m') :
    (∀ r x, r < n → x < w → readLE m' (dst r + 4 * x) 4 = val r x m) ∧
    (∀ a, (∀ q, q < n → a < dst q ∨ dst q + 4 * w ≤ a) → Memory.get m' a = Memory.get m a) := by
  have key := forCount_invariant (body := body) (n := n) (i := 0) (m := m) (m' := m')
    (fun i m1 => (∀ r x, r < i → x < w → readLE m1 (dst r + 4 * x) 4 = val r x m) ∧
      (∀ a, (∀ q, q < n → a < dst q ∨ dst q + 4 * w ≤ a) → Memory.get m1 a = Memory.get m a))
    ⟨fun r x hr => by omega, fun a _ => rfl⟩ ?_ h
  · simpa using key
  · rintro j m1 m2 - hj ⟨h1, h2⟩ hb
    have hjn : j < n := by omega
    obtain ⟨h3, h4⟩ := hrow j m1 m2 hjn hb
    refine ⟨fun r x hr hx => ?_, fun a ha => ?_⟩
    · by_cases hrj : r = j
      · subst hrj
        rw [h3 x hx, hval r x m1 m hjn hx h2]
      · rw [← h1 r x (by omega) hx]
        refine readLE_congr fun i hi => h4 _ ?_
        rcases hdst r j (by omega) hjn hrj with hd | hd <;> omega
    · rw [h4 a (ha j hjn)]
      exact h2 a ha

theorem movePixel_ok {cfg : Config} {ibpp : Nat} {pixel : Nat → Word} {src dst : Nat} {m m' : Memory}
    (h : movePixel cfg ibpp pixel src dst m = .ok m') :
    m' = writeLE m dst 4 (pixel (readLE m src ibpp)).toNat := by
  unfold movePixel at h
  split at h
  · cases h
  · rename_i raw hr
    rw [(memWrite_ok_iff.1 h).2, (memRead_ok_iff.1 hr).2]

/-- A completed row-driven transfer (R93, R111, R120): pixel `(x, r)` of the output is the transform's value for the sample of
pixel `(x, r)` of the input as it was, and no byte outside the output rows changed. -/
theorem rowDriver_ok {cfg : Config} {ibpp : Nat} {pixel : Nat → Word} {w h : Nat} {b : Buffers} {m m' : Memory}
    (hstride : 1 < h → 4 * w ≤ b.outStride.toNat)
    (hdisj : ∀ r x i q j, r < h → x < w → i < ibpp → q < h → j < 4 * w →
      b.inBase.toNat + r * b.inStride.toNat + x * ibpp + i ≠ b.outBase.toNat + q * b.outStride.toNat + j)
    (hrun : rowDriver (mapRow cfg ibpp pixel w) h b m = .ok m') :
    (∀ r x, r < h → x < w →
      readLE m' (b.outBase.toNat + r * b.outStride.toNat + 4 * x) 4 =
        (pixel (readLE m (b.inBase.toNat + r * b.inStride.toNat + x * ibpp) ibpp)).toNat) ∧
    (∀ a, (∀ q, q < h → a < b.outBase.toNat + q * b.outStride.toNat ∨
        b.outBase.toNat + q * b.outStride.toNat + 4 * w ≤ a) → Memory.get m' a = Memory.get m a) := by
  refine forCount_rows (dst := fun r => b.outBase.toNat + r * b.outStride.toNat)
    (val := fun r x m => (pixel (readLE m (b.inBase.toNat + r * b.inStride.toNat + x * ibpp) ibpp)).toNat)
    ?_ ?_ ?_ hrun
  · intro r m1 m2 hr hb
    obtain ⟨h1, h2⟩ := forCount_stores (dst := b.outBase.toNat + r * b.outStride.toNat)
      (val := fun x m => (pixel (readLE m (b.inBase.toNat + r * b.inStride.toNat + x * ibpp) ibpp)).toNat)
      (fun x m m' _ hx => movePixel_ok hx)
      (fun x m m' hx hm => by
        rw [readLE_congr fun i hi => hm _ ?_]
        by_contra hc
        exact hdisj r x i r (b.inBase.toNat + r * b.inStride.toNat + x * ibpp + i -
          (b.outBase.toNat + r * b.outStride.toNat)) hr hx hi hr (by omega) (by omega)) hb
    refine ⟨fun x hx => (h1 x hx).trans (Nat.mod_eq_of_lt ?_), h2⟩
    exact (pixel _).isLt
  · intro r x m1 m2 hr hx hm
    rw [readLE_congr fun i hi => hm _ fun q hq => ?_]
    by_contra hc
    exact hdisj r x i q (b.inBase.toNat + r * b.inStride.toNat + x * ibpp + i -
      (b.outBase.toNat + q * b.outStride.toNat)) hr hx hi hq (by omega) (by omega)
  · intro r q hr hq hne
    have hs := hstride (by omega)
    rcases Nat.lt_or_gt_of_ne hne with hlt | hlt
    · have : (r + 1) * b.outStride.toNat ≤ q * b.outStride.toNat := Nat.mul_le_mul_right _ hlt
      rw [Nat.succ_mul] at this
      left; omega
    · have : (q + 1) * b.outStride.toNat ≤ r * b.outStride.toNat := Nat.mul_le_mul_right _ hlt
      rw [Nat.succ_mul] at this
      right; omega

/-- The four taps of a block, as bytes of a memory (R126). -/
def tapSum (b : Buffers) (m : Memory) (xb yb : Nat) : Nat :=
  (Memory.get m (tapAddr b (2 * xb) (2 * yb))).toNat + (Memory.get m (tapAddr b (2 * xb + 1) (2 * yb))).toNat +
    (Memory.get m (tapAddr b (2 * xb) (2 * yb + 1))).toNat + (Memory.get m (tapAddr b (2 * xb + 1) (2 * yb + 1))).toNat

theorem downBlock_ok {cfg : Config} {b : Buffers} {yb xb : Nat} {m m' : Memory} (h : downBlock cfg b yb xb m = .ok m') :
    m' = writeLE m (downPixelAddr b xb (dsH / 2 - 1 - yb)) 4 (greyOf (tapSum b m xb yb)).pack.toNat := by
  unfold downBlock at h
  split at h
  · cases h
  · split at h
    · cases h
    · split at h
      · cases h
      · split at h
        · cases h
        · rename_i s0 h0 _ s1 h1 _ s2 h2 _ s3 h3
          rw [(memWrite_ok_iff.1 h).2, (memRead_ok_iff.1 h0).2, (memRead_ok_iff.1 h1).2, (memRead_ok_iff.1 h2).2,
            (memRead_ok_iff.1 h3).2]
          simp [readLE, tapSum]

/-- A completed `DSROT` (R126 to R129): output pixel `(xb, 239 - yb)` is the grey of the block at `(2*xb, 2*yb)` as it was, and
no byte outside the output rows changed. -/
theorem downsampleRotate_ok {cfg : Config} {b : Buffers} {m m' : Memory}
    (hstride : 4 * (dsW / 2) ≤ b.outStride.toNat)
    (hdisj : ∀ x y q j, x < dsW → y < dsH → q < dsH / 2 → j < 4 * (dsW / 2) → tapAddr b x y ≠ downPixelAddr b 0 q + j)
    (hrun : downsampleRotate cfg b m = .ok m') :
    (∀ yb xb, yb < dsH / 2 → xb < dsW / 2 →
      readLE m' (downPixelAddr b xb (dsH / 2 - 1 - yb)) 4 = (greyOf (tapSum b m xb yb)).pack.toNat) ∧
    (∀ a, (∀ q, q < dsH / 2 → a < downPixelAddr b 0 q ∨ downPixelAddr b 0 q + 4 * (dsW / 2) ≤ a) →
      Memory.get m' a = Memory.get m a) := by
  have hpix : ∀ xb q, downPixelAddr b xb q = downPixelAddr b 0 q + 4 * xb := fun xb q => by simp [downPixelAddr]
  have htap : ∀ {xb yb : Nat} {m1 m2 : Memory}, xb < dsW / 2 → yb < dsH / 2 →
      (∀ x y, x < dsW → y < dsH → Memory.get m1 (tapAddr b x y) = Memory.get m2 (tapAddr b x y)) →
      tapSum b m1 xb yb = tapSum b m2 xb yb := by
    intro xb yb m1 m2 hx hy hm
    simp only [dsW, dsH] at hx hy hm
    simp only [tapSum]
    rw [hm _ _ (by omega) (by omega), hm _ _ (by omega) (by omega), hm _ _ (by omega) (by omega),
      hm _ _ (by omega) (by omega)]
  have key := forCount_rows (n := dsH / 2) (w := dsW / 2) (dst := fun yb => downPixelAddr b 0 (dsH / 2 - 1 - yb))
    (val := fun yb xb m => (greyOf (tapSum b m xb yb)).pack.toNat) ?_ ?_ ?_ hrun
  · refine ⟨fun yb xb hy hx => ?_, fun a ha => key.2 a fun q hq => ha _ (by omega)⟩
    rw [hpix]
    exact key.1 yb xb hy hx
  · intro yb m1 m2 hy hb
    obtain ⟨h1, h2⟩ := forCount_stores (dst := downPixelAddr b 0 (dsH / 2 - 1 - yb))
      (val := fun xb m => (greyOf (tapSum b m xb yb)).pack.toNat)
      (fun x m m' _ hx => by rw [← hpix]; exact downBlock_ok hx)
      (fun xb m m' hx hm => by
        rw [htap hx hy fun x y hx hy => hm _ ?_]
        by_contra hc
        exact hdisj x y (dsH / 2 - 1 - yb) (tapAddr b x y - downPixelAddr b 0 (dsH / 2 - 1 - yb)) hx hy (by omega)
          (by omega) (by omega)) hb
    refine ⟨fun x hx => (h1 x hx).trans (Nat.mod_eq_of_lt ?_), h2⟩
    exact ((greyOf _).pack).isLt
  · intro yb xb m1 m2 hy hx hm
    rw [htap hx hy fun x y hx hy => hm _ fun q hq => ?_]
    by_contra hc
    exact hdisj x y (dsH / 2 - 1 - q) (tapAddr b x y - downPixelAddr b 0 (dsH / 2 - 1 - q)) hx hy (by omega)
      (by omega) (by omega)
  · intro r q hr hq hne
    simp only [downPixelAddr, dsH, dsW] at *
    rcases Nat.lt_or_gt_of_ne hne with hlt | hlt
    · have : (480 / 2 - 1 - q + 1) * b.outStride.toNat ≤ (480 / 2 - 1 - r) * b.outStride.toNat :=
        Nat.mul_le_mul_right _ (by omega)
      rw [Nat.succ_mul] at this
      right; omega
    · have : (480 / 2 - 1 - r + 1) * b.outStride.toNat ≤ (480 / 2 - 1 - q) * b.outStride.toNat :=
        Nat.mul_le_mul_right _ (by omega)
      rw [Nat.succ_mul] at this
      left; omega

/-! ### The canonical form -/

theorem wf_forCount {body : Nat → Memory → Except Nat Memory} {n i : Nat}
    (hb : ∀ j m m', body j m = .ok m' → Memory.wf m = true → Memory.wf m' = true) {m m' : Memory}
    (h : forCount body n i m = .ok m') (hm : Memory.wf m = true) : Memory.wf m' = true :=
  forCount_invariant (fun _ m => Memory.wf m = true) hm (fun j m m' _ _ hm hj => hb j m m' hj hm) h

theorem wf_movePixel {cfg : Config} {ibpp : Nat} {pixel : Nat → Word} {src dst : Nat} {m m' : Memory}
    (h : movePixel cfg ibpp pixel src dst m = .ok m') (hm : Memory.wf m = true) : Memory.wf m' = true := by
  unfold movePixel at h
  split at h
  · cases h
  · exact wf_memWrite h hm

theorem wf_rowDriver {cfg : Config} {ibpp : Nat} {pixel : Nat → Word} {w h : Nat} {b : Buffers} {m m' : Memory}
    (hrun : rowDriver (mapRow cfg ibpp pixel w) h b m = .ok m') (hm : Memory.wf m = true) : Memory.wf m' = true :=
  wf_forCount (fun _ _ _ hr => wf_forCount (fun _ _ _ hx => wf_movePixel hx) hr) hrun hm

theorem wf_downsampleRotate {cfg : Config} {b : Buffers} {m m' : Memory}
    (hrun : downsampleRotate cfg b m = .ok m') (hm : Memory.wf m = true) : Memory.wf m' = true := by
  refine wf_forCount (fun _ _ _ hr => wf_forCount (fun _ m m' hx hm => ?_) hr) hrun hm
  unfold downBlock at hx
  split at hx
  · cases hx
  · split at hx
    · cases hx
    · split at hx
      · cases hx
      · split at hx
        · cases hx
        · exact wf_memWrite hx hm

end Sys2Proof.Machine
end

