-- ==== Sys2Proof/Laws/Step.lean ====
section
/-! SUPPORT. Everything a step can do, said once: the cases of `endTransfer`, of `exec` and of `step`. -/

namespace Sys2Proof.Machine

theorem dutyBreach_none {cfg : Config} {op : Op} {w h : Nat} {b : Buffers} :
    dutyBreach cfg (inputFootprint op w h b) (outputFootprint op w h b) = none ↔
      HostDuties cfg (inputFootprint op w h b) (outputFootprint op w h b) :=
  dutyBreach_none_iff (inputFootprint_step_pos op w h b) (outputFootprint_step op w h b)

/-- The one way a transfer answers a next state: every duty kept, and either complete or a FAULT with the output unspecified. -/
theorem endTransfer_next {op : Op} {w h : Nat} {b : Buffers} {moved : Except Nat Memory} {s t : State} :
    endTransfer op w h b moved s = .next t ↔
      HostDuties s.cfg (inputFootprint op w h b) (outputFootprint op w h b) ∧
      ((∃ m, moved = .ok m ∧ t = completeOk { s with mem := m }) ∨
        ∃ a, moved = .error a ∧ t = raiseCause (.fault a) (spoilOutput (outputFootprint op w h b) s)) := by
  rw [← dutyBreach_none]
  unfold endTransfer
  cases dutyBreach s.cfg (inputFootprint op w h b) (outputFootprint op w h b) with
  | some why => simp
  | none => cases moved <;> simp [eq_comm]

theorem endTransfer_refused {op : Op} {w h : Nat} {b : Buffers} {moved : Except Nat Memory} {s : State} {why : Refusal} :
    endTransfer op w h b moved s = .refused why ↔
      dutyBreach s.cfg (inputFootprint op w h b) (outputFootprint op w h b) = some why := by
  unfold endTransfer
  cases dutyBreach s.cfg (inputFootprint op w h b) (outputFootprint op w h b) with
  | some x => simp
  | none => cases moved <;> simp

/-! ### The table build -/

/-- The pixel function of a row-driven transfer, from the state its table is ready in. -/
def pixelOf (i : Instr) (s : State) : Nat → Word :=
  match i with
  | .depth16 _ _ _ sel => fun raw =>
      (depthPixel s.cfg s.dlut depthScale (reliableMin sel) (reliableMax sel) raw).pack
  | .ir16 _ _ _ => fun raw => (infraredPixel s.cfg s.ilut ir16Full raw).pack
  | .ir8 _ _ _ => fun raw => (infraredPixel s.cfg s.ilut ir8Full raw).pack
  | _ => fun raw => BitVec.ofNat 32 raw

/-- The transfer of an instruction, from the state its table is ready in. -/
def moveOf (i : Instr) (op : Op) (w h : Nat) (b : Buffers) (s : State) : Except Nat Memory :=
  if op = .dsrot then downsampleRotate s.cfg b s.mem
  else rowDriver (mapRow s.cfg op.ibpp (pixelOf i s) w) h b s.mem

/-- Every transferring instruction is one shape: ensure the table, move, end. -/
theorem exec_transfer {i : Instr} {op : Op} {w h : Nat} {b : Buffers} (hi : transferOf i = some (op, w, h, b)) (s : State) :
    exec i s = endTransfer op w h b (moveOf i op w h b (tableEnsured i s)) (tableEnsured i s) := by
  cases i <;> simp only [transferOf, reduceCtorEq, Option.some.injEq, Prod.mk.injEq] at hi <;>
    (obtain ⟨rfl, rfl, rfl, rfl⟩ := hi; rfl)

theorem follows_moveOf (i : Instr) (op : Op) (w h : Nat) (b : Buffers) (s : State) (hop : op ≠ .null ∧ op ≠ .none) :
    (∀ a, firstFailing s.cfg op w h b = some a → moveOf i op w h b s = .error a) ∧
    (firstFailing s.cfg op w h b = none → ∃ m, moveOf i op w h b s = .ok m) := by
  unfold firstFailing moveOf
  by_cases hd : op = .dsrot
  · subst hd
    have h := follows_downsampleRotate s.cfg b
    exact ⟨fun a ha => h.1 a ha _, fun ha => h.2 ha _⟩
  · have ha : accessesOf op w h b = rowAccesses op.ibpp w h b := by
      cases op <;> simp_all [accessesOf]
    have h := follows_rowDriver s.cfg op.ibpp (pixelOf i s) w h b
    rw [if_neg hd, ha]
    exact ⟨fun a ha => h.1 a ha _, fun ha => h.2 ha _⟩

theorem transferOf_op {i : Instr} {op : Op} {w h : Nat} {b : Buffers} (hi : transferOf i = some (op, w, h, b)) :
    op ≠ .null ∧ op ≠ .none := by
  cases i <;> simp_all [transferOf] <;> simp_all [← hi.1]

theorem transferOf_dsrot {i : Instr} {w h : Nat} {b : Buffers} (hi : transferOf i = some (.dsrot, w, h, b)) :
    w = dsW ∧ h = dsH := by
  cases i <;> simp_all [transferOf]

theorem tableEnsured_eq (i : Instr) (s : State) : tableEnsured i s = s ∨ tableEnsured i s = ensureDlut s ∨ tableEnsured i s = ensureIlut s := by
  cases i <;> simp [tableEnsured]

@[simp] theorem tableEnsured_cfg (i : Instr) (s : State) : (tableEnsured i s).cfg = s.cfg := by
  rcases tableEnsured_eq i s with h | h | h <;> simp [h]

@[simp] theorem tableEnsured_env (i : Instr) (s : State) : (tableEnsured i s).env = s.env := by
  rcases tableEnsured_eq i s with h | h | h <;> simp [h]

@[simp] theorem tableEnsured_started (i : Instr) (s : State) : (tableEnsured i s).started = s.started := by
  rcases tableEnsured_eq i s with h | h | h <;> simp [h]

@[simp] theorem tableEnsured_mem (i : Instr) (s : State) : (tableEnsured i s).mem = s.mem := by
  rcases tableEnsured_eq i s with h | h | h <;> simp [h]

theorem wf_moveOf {i : Instr} {op : Op} {w h : Nat} {b : Buffers} {s : State} {m : Memory}
    (hm : moveOf i op w h b s = .ok m) (hs : Memory.wf s.mem = true) : Memory.wf m = true := by
  unfold moveOf at hm
  split at hm
  · exact wf_downsampleRotate hm hs
  · exact wf_rowDriver hm hs

/-- What a transfer of an instruction changes outside its output footprint when it completes: nothing. -/
theorem moveOf_outside {i : Instr} {op : Op} {w h : Nat} {b : Buffers} {s : State} {m : Memory} {cfg : Config}
    (hop : op ≠ .null ∧ op ≠ .none) (hd : op = .dsrot → w = dsW ∧ h = dsH)
    (hduty : HostDuties cfg (inputFootprint op w h b) (outputFootprint op w h b))
    (hm : moveOf i op w h b s = .ok m) (a : Nat) (ha : (outputFootprint op w h b).has a = false) :
    Memory.get m a = Memory.get s.mem a := by
  obtain ⟨-, hs2, hdis, -⟩ := hduty
  have hout := fun a => has_iff_span (outputFootprint_step op w h b) (a := a)
  unfold moveOf at hm
  split at hm
  · rename_i hop
    subst hop
    obtain ⟨rfl, rfl⟩ := hd rfl
    refine (downsampleRotate_ok (by simpa [outputFootprint, dsH, dsW] using hs2) ?_ hm).2 a ?_
    · intro x y q j hx hy hq hj heq
      refine hdis (tapAddr b x y) ⟨has_iff.2 ⟨y, 4 * x, hy, ?_, ?_, rfl⟩, (hout _).2 ⟨q, hq, ?_, ?_⟩⟩
      · show 4 * x < 4 * dsW
        omega
      · simp [inputFootprint]
      · rw [heq]; simp [Footprint.addr, outputFootprint, downPixelAddr]
      · rw [heq]; simp [Footprint.addr, outputFootprint, downPixelAddr]; omega
    · intro q hq
      by_contra hc
      refine absurd ((hout a).2 ⟨q, hq, ?_, ?_⟩) (by simp [ha])
      · simp [Footprint.addr, outputFootprint, downPixelAddr] at hc ⊢; omega
      · simp [Footprint.addr, outputFootprint, downPixelAddr] at hc ⊢; omega
  · rename_i hnd
    have hin : inputFootprint op w h b =
        { base := b.inBase.toNat, stride := b.inStride.toNat, rows := h, span := w * op.ibpp, step := 1 } := by
      cases op <;> simp_all [inputFootprint]
    have hou : outputFootprint op w h b =
        { base := b.outBase.toNat, stride := b.outStride.toNat, rows := h, span := 4 * w, step := 1 } := by
      cases op <;> simp_all [outputFootprint]
    rw [hin, hou] at hdis
    rw [hou] at hs2 ha hout
    refine (rowDriver_ok hs2 ?_ hm).2 a ?_
    · intro r x i q j hr hx hi hq hj heq
      refine hdis (b.inBase.toNat + r * b.inStride.toNat + x * op.ibpp + i) ⟨(has_iff_span rfl).2 ⟨r, hr, ?_, ?_⟩, (hout _).2 ⟨q, hq, ?_, ?_⟩⟩
      · simp only [Footprint.addr]; omega
      · have : (x + 1) * op.ibpp ≤ w * op.ibpp := Nat.mul_le_mul_right _ hx
        rw [Nat.succ_mul] at this
        simp only [Footprint.addr]; omega
      · simp only [Footprint.addr]; omega
      · simp only [Footprint.addr]; omega
    · intro q hq
      by_contra hc
      refine absurd ((hout a).2 ⟨q, hq, ?_, ?_⟩) (by simp [ha])
      · simp only [Footprint.addr]; omega
      · simp only [Footprint.addr]; omega

/-- A transfer whose host kept its duties and no access of which fails completes (R118). -/
theorem exec_complete {i : Instr} {op : Op} {w h : Nat} {b : Buffers} (hi : transferOf i = some (op, w, h, b)) {s : State}
    (hd : HostDuties s.cfg (inputFootprint op w h b) (outputFootprint op w h b)) (hf : firstFailing s.cfg op w h b = none) :
    ∃ m, moveOf i op w h b (tableEnsured i s) = .ok m ∧
      exec i s = .next (completeOk { tableEnsured i s with mem := m }) := by
  obtain ⟨m, hm⟩ := (follows_moveOf i op w h b (tableEnsured i s) (transferOf_op hi)).2 (by simpa using hf)
  refine ⟨m, hm, ?_⟩
  rw [exec_transfer hi, endTransfer_next]
  exact ⟨by simpa using hd, .inl ⟨m, hm, rfl⟩⟩

/-- One whose first failing access is at `a` ends in FAULT (R136). -/
theorem exec_fault {i : Instr} {op : Op} {w h : Nat} {b : Buffers} {a : Nat} (hi : transferOf i = some (op, w, h, b))
    {s : State} (hd : HostDuties s.cfg (inputFootprint op w h b) (outputFootprint op w h b))
    (hf : firstFailing s.cfg op w h b = some a) :
    exec i s = .next (raiseCause (.fault a) (spoilOutput (outputFootprint op w h b) (tableEnsured i s))) := by
  rw [exec_transfer hi, endTransfer_next]
  exact ⟨by simpa using hd, .inr ⟨a,
    (follows_moveOf i op w h b (tableEnsured i s) (transferOf_op hi)).1 a (by simpa using hf), rfl⟩⟩

/-- The pixels a completed row-driven transfer of an instruction leaves (R93, R111, R120). -/
theorem moveOf_pixels {i : Instr} {op : Op} {w h : Nat} {b : Buffers} {s : State} {m : Memory} {cfg : Config}
    (hop : op ≠ .null ∧ op ≠ .none) (hnd : op ≠ .dsrot)
    (hduty : HostDuties cfg (inputFootprint op w h b) (outputFootprint op w h b))
    (hm : moveOf i op w h b s = .ok m) {r x : Nat} (hr : r < h) (hx : x < w) :
    readLE m (b.outBase.toNat + r * b.outStride.toNat + 4 * x) 4 =
      (pixelOf i s (readLE s.mem (b.inBase.toNat + r * b.inStride.toNat + x * op.ibpp) op.ibpp)).toNat := by
  obtain ⟨-, hs2, hdis, -⟩ := hduty
  rw [moveOf, if_neg hnd] at hm
  have hin : inputFootprint op w h b =
      { base := b.inBase.toNat, stride := b.inStride.toNat, rows := h, span := w * op.ibpp, step := 1 } := by
    cases op <;> simp_all [inputFootprint]
  have hou : outputFootprint op w h b =
      { base := b.outBase.toNat, stride := b.outStride.toNat, rows := h, span := 4 * w, step := 1 } := by
    cases op <;> simp_all [outputFootprint]
  rw [hin, hou] at hdis
  rw [hou] at hs2
  refine (rowDriver_ok hs2 ?_ hm).1 r x hr hx
  intro r x i q j hr hx hi hq hj heq
  refine hdis (b.inBase.toNat + r * b.inStride.toNat + x * op.ibpp + i)
    ⟨(has_iff_span rfl).2 ⟨r, hr, ?_, ?_⟩, (has_iff_span rfl).2 ⟨q, hq, ?_, ?_⟩⟩
  · simp only [Footprint.addr]; omega
  · have : (x + 1) * op.ibpp ≤ w * op.ibpp := Nat.mul_le_mul_right _ hx
    rw [Nat.succ_mul] at this
    simp only [Footprint.addr]; omega
  · simp only [Footprint.addr]; omega
  · simp only [Footprint.addr]; omega

/-! ### What `exec` can answer -/

/-- Every next state of `exec`: a completed transfer, a FAULT, one of the two other no-image causes, or a host operation. -/
theorem exec_next {i : Instr} {s t : State} (h : exec i s = .next t) :
    (∃ op w hh b m, transferOf i = some (op, w, hh, b) ∧ moveOf i op w hh b (tableEnsured i s) = .ok m ∧
      HostDuties s.cfg (inputFootprint op w hh b) (outputFootprint op w hh b) ∧
      t = completeOk { tableEnsured i s with mem := m }) ∨
    (∃ op w hh b a, transferOf i = some (op, w, hh, b) ∧ moveOf i op w hh b (tableEnsured i s) = .error a ∧
      HostDuties s.cfg (inputFootprint op w hh b) (outputFootprint op w hh b) ∧
      t = raiseCause (.fault a) (spoilOutput (outputFootprint op w hh b) (tableEnsured i s))) ∨
    (i = .null ∧ t = raiseCause .null s) ∨
    (i ∈ noneRows ∧ t = raiseCause .unsupported s) ∨
    (∃ r v, (i = .wr r v ∨ (i = .ack ∧ r = .status ∧ v = ackWord)) ∧ t = writeReg r v s) ∨
    (transferOf i = none ∧ i ∉ noneRows ∧ ∃ v q, t = { s with readData := v, hostQueue := q }) := by
  cases hi : transferOf i with
  | some x =>
    obtain ⟨op, w, hh, b⟩ := x
    rw [exec_transfer hi, endTransfer_next] at h
    obtain ⟨hduty, h⟩ := h
    rw [tableEnsured_cfg] at hduty
    obtain ⟨m, hm, rfl⟩ | ⟨a, ha, rfl⟩ := h
    · exact .inl ⟨op, w, hh, b, m, rfl, hm, hduty, rfl⟩
    · exact .inr (.inl ⟨op, w, hh, b, a, rfl, ha, hduty, rfl⟩)
  | none =>
    right; right
    cases i <;> simp only [transferOf, reduceCtorEq] at hi
    case null => cases h; exact .inl ⟨rfl, rfl⟩
    case wr r v => cases h; exact .inr (.inr (.inl ⟨r, v, .inl rfl, rfl⟩))
    case ack => cases h; exact .inr (.inr (.inl ⟨.status, ackWord, .inr ⟨rfl, rfl, rfl⟩, rfl⟩))
    case rd r => cases h; exact .inr (.inr (.inr ⟨rfl, by simp [noneRows], readReg r s, s.hostQueue, rfl⟩))
    case cvt k f w h b p a =>
      cases h
      exact .inr (.inr (.inr ⟨rfl, by simp [noneRows], s.readData, (cvtAccesses k f w h b p a).map HostEvent.bus ++ s.hostQueue, rfl⟩))
    case wait =>
      cases h
      exact .inr (.inr (.inr ⟨rfl, by simp [noneRows], statusWord s, if s.busy then HostEvent.wait :: s.hostQueue else s.hostQueue, rfl⟩))
    all_goals cases h; exact .inr (.inl ⟨by simp [noneRows], rfl⟩)

/-- No instruction changes a parameter, and only an accepted START counts (R16, U14; R107). -/
theorem exec_env {i : Instr} {s t : State} (h : exec i s = .next t) :
    t.env = s.env ∧ (t.started = s.started ∨
      ((∃ v, i = .wr .ctrl v) ∧ s.busy = false ∧ t.busy = true ∧ t.started = s.started + 1)) := by
  rcases exec_next h with
    ⟨op, w, hh, b, m, hi, hmv, hd, rfl⟩ | ⟨op, w, hh, b, a, hi, hmv, hd, rfl⟩ |
    ⟨rfl, rfl⟩ | ⟨hn, rfl⟩ | ⟨r, v, hi, rfl⟩ | ⟨hno, hnr, v, q, rfl⟩
  · exact ⟨tableEnsured_env i s, .inl (tableEnsured_started i s)⟩
  · exact ⟨tableEnsured_env i s, .inl (tableEnsured_started i s)⟩
  · exact ⟨rfl, .inl rfl⟩
  · exact ⟨rfl, .inl rfl⟩
  · rcases hi with rfl | ⟨rfl, rfl, rfl⟩
    · cases r <;> simp only [writeReg, writeCtrl] <;> (try split) <;> (try split) <;> simp_all
    · exact ⟨rfl, .inl rfl⟩
  · exact ⟨rfl, .inl rfl⟩

/-! ### What a step can be -/

/-- The state the host's oldest pending action works from. -/
def afterPop (s : State) (rest : List HostEvent) : State := { popSchedule s with hostQueue := rest }

/-- Every next state of a step. -/
theorem step_next {s t : State} (h : step s = .next t) :
    (nextAgent s = .engine ∧ s.busy = false ∧ t = popSchedule s) ∨
    (nextAgent s = .engine ∧ s.busy = true ∧ exec s.command (popSchedule s) = .next t) ∨
    (nextAgent s = .host ∧ s.hostQueue = [] ∧ t = popSchedule s) ∨
    (∃ e rest, nextAgent s = .host ∧ s.hostQueue = e :: rest ∧
      ((∃ i, hostAction e (afterPop s rest) = .run i (afterPop s rest) ∧ exec i (afterPop s rest) = .next t) ∨
        (∃ a v, e = .store a v ∧ hostStore a v (afterPop s rest) = .next t) ∨
        (∃ a, e = .load a ∧ hostLoad a (afterPop s rest) = .next t) ∨
        (e = .reset ∧ applyReset (afterPop s rest) = .next t))) := by
  unfold step nextTurn at h
  cases hg : nextAgent s with
  | engine =>
    rw [hg] at h
    cases hb : s.busy with
    | false =>
      have he : engineTurn (popSchedule s) = .answer (.next (popSchedule s)) := if_neg (by simp [hb])
      change (match engineTurn (popSchedule s) with | .run i s' => exec i s' | .answer o => o) = .next t at h
      rw [he] at h
      cases h
      exact .inl ⟨rfl, rfl, rfl⟩
    | true =>
      have he : engineTurn (popSchedule s) = .run s.command (popSchedule s) := if_pos (by simp [hb])
      change (match engineTurn (popSchedule s) with | .run i s' => exec i s' | .answer o => o) = .next t at h
      rw [he] at h
      exact .inr (.inl ⟨rfl, rfl, h⟩)
  | host =>
    rw [hg] at h
    right; right
    change (match hostTurn (popSchedule s) with | .run i s' => exec i s' | .answer o => o) = .next t at h
    cases hq : s.hostQueue with
    | nil =>
      have he : hostTurn (popSchedule s) = .answer (.next (popSchedule s)) := by simp [hostTurn, hq]
      rw [he] at h
      cases h
      exact .inl ⟨rfl, rfl, rfl⟩
    | cons e rest =>
      have he : hostTurn (popSchedule s) = hostAction e (afterPop s rest) := by simp [hostTurn, hq, afterPop]
      rw [he] at h
      refine .inr ⟨e, rest, rfl, rfl, ?_⟩
      cases e with
      | bus x =>
        cases hx : decodeBus x with
        | ok i =>
          have ha : hostAction (.bus x) (afterPop s rest) = .run i (afterPop s rest) := by simp [hostAction, hx]
          rw [ha] at h
          exact .inl ⟨i, ha, h⟩
        | error why =>
          simp [hostAction, hx] at h
      | cvt k f w hh b p a => exact .inl ⟨.cvt k f w hh b p a, rfl, h⟩
      | wait => exact .inl ⟨.wait, rfl, h⟩
      | ack => exact .inl ⟨.ack, rfl, h⟩
      | store a v => exact .inr (.inl ⟨a, v, rfl, h⟩)
      | load a => exact .inr (.inr (.inl ⟨a, rfl, h⟩))
      | platform fs => cases h
      | reset => exact .inr (.inr (.inr ⟨rfl, h⟩))

/-- A run of the machine goes on from the next state of its first step. -/
theorem run_succ {s t : State} {k : Nat} (h : step s = .next t) : Sys2Proof.core.run (k + 1) s = Sys2Proof.core.run k t := by
  have : Sys2Proof.core.step s = .next t := h
  simp [Host.Core.run, this]

theorem run_zero (s : State) : Sys2Proof.core.run 0 s = .next s := rfl

/-- A host action that runs an instruction runs a host operation. -/
theorem hostAction_run {e : HostEvent} {s s' : State} {i : Instr} (h : hostAction e s = .run i s') :
    (∃ r v, i = .wr r v) ∨ (∃ r, i = .rd r) ∨ (∃ k f w hh b p a, i = .cvt k f w hh b p a) ∨ i = .wait ∨ i = .ack := by
  cases e with
  | bus x =>
    simp only [hostAction] at h
    split at h
    · rename_i j hj
      cases h
      unfold decodeBus at hj
      split at hj
      · cases hj
      · split at hj
        · cases hj
        · split at hj <;> cases hj
          · exact .inl ⟨_, _, rfl⟩
          · exact .inr (.inl ⟨_, rfl⟩)
    · cases h
  | cvt k f w hh b p a => cases h; exact .inr (.inr (.inl ⟨_, _, _, _, _, _, _, rfl⟩))
  | wait => cases h; simp
  | ack => cases h; simp
  | _ => simp [hostAction] at h

end Sys2Proof.Machine
end

