-- ==== Sys2Proof/Tests/Slice0.lean ====
section
/-! SUPPORT. The model's own tests: expected results from 95_test_vectors.md and the rules' examples, words written out from
the encodings, and a witness for the hypotheses of every statement. -/

namespace Sys2Proof.Tests

open Sys2Proof.Machine

/-! ### Helpers -/

/-- The next state of an outcome. -/
def next? : Host.Outcome State Fault Refusal → Option State
  | .next s => some s
  | _ => none

/-- The refusal of an outcome. -/
def refusal? : Host.Outcome State Fault Refusal → Option Refusal
  | .refused r => some r
  | _ => none

/-- The fault of an outcome. -/
def fault? : Host.Outcome State Fault Refusal → Option Fault
  | .fault r => some r
  | _ => none

/-- A memory with some bytes at an address. -/
def bytesAt (a : Nat) (bs : List Byte) (m : Memory) : Memory :=
  match bs with
  | [] => m
  | b :: bs => bytesAt (a + 1) bs (Memory.set m a b)

/-- The bytes of a memory from an address. -/
def peek (m : Memory) (a n : Nat) : List Byte := (bytesFrom a n).map (Memory.get m)

/-- The reset state with a memory. -/
def withMem (m : Memory) : State := { State.reset with mem := m }

/-- Buffers at 0x100 and 0x200. -/
def bufs (inStride outStride : Word) : Buffers := ⟨0x100, inStride, 0x200, outStride⟩

/-- A busy state: the descriptor of a table word, `WIDTH = w`, `HEIGHT = h`, its START just accepted. -/
def busyWith (desc0 : Word) (w h : BitVec 16) (b : Buffers) (s : State) : State :=
  loadCommand { desc0 := desc0, width := w, height := h, bufs := b, profile := 0 } s

/-! ### Well-formed terms -/

/-- R68: a COPY of exactly 640 by 480 has no encoding; the check refuses it. -/
theorem test_wf_refuses_copy_640_480 : Instr.wf (.copy 640 480 ⟨0, 0, 0, 0⟩) = false := by decide

theorem test_wf_accepts_copy_480_640 : Instr.wf (.copy 480 640 ⟨0, 0, 0, 0⟩) = true ∧ Instr.wf (.copy 639 480 ⟨0, 0, 0, 0⟩) = true ∧
    expansion (.copy 480 640 ⟨0, 0, 0, 0⟩) = none ∧ expansion .ack = some [.wr .status 0x1002#32] := by decide

/-! ### Decoding: the table of 95_test_vectors.md 2.9, each word from R60's bit positions -/

/-- The operation of a written DESC0 (reserved bits dropped, R24) at a size. -/
def opOf (written : Word) (w h : BitVec 16) : Op := decodeOp (written &&& desc0Mask) w h

theorem test_decode_null : opOf 0x00 4 4 = .null ∧ opOf 0x24 4 4 = .null ∧ opOf 0x02 4 4 = .null := by decide

theorem test_decode_color : opOf 0x01 4 4 = .copy ∧ opOf 0x01 640 480 = .dsrot ∧ opOf 0x01 480 640 = .copy ∧
    opOf 0x01 639 480 = .copy ∧ opOf 0x01 640 479 = .copy ∧ opOf 0x01 160 120 = .copy ∧ opOf 0x01 0 0 = .copy ∧
    opOf 0x03 4 4 = .copy := by decide

theorem test_decode_depth : opOf 0x25 4 4 = .depth16 ∧ opOf 0x25 640 480 = .depth16 ∧ opOf 0xFFFFFFE7 4 4 = .depth16 := by
  decide

theorem test_decode_infrared : opOf 0x19 4 4 = .ir8 ∧ opOf 0x29 4 4 = .ir16 := by decide

theorem test_decode_none : [0x11#32, 0x21#32, 0x31#32, 0x05#32, 0x15#32, 0x35#32, 0x09#32, 0x39#32, 0x0D#32, 0x1D#32, 0x2D#32,
    0x3D#32].all (fun d => opOf d 4 4 == .none) = true := by decide

/-- The twelve NONE rows in the table's order, bit by bit: FMT in bits 5:4, KIND in 3:2, PRESENT in bit 0. -/
theorem test_decode_none_rows :
    [0b010001, 0b100001, 0b110001, 0b000101, 0b010101, 0b110101, 0b001001, 0b111001, 0b001101, 0b011101, 0b101101,
      0b111101].map (decodeTableWord 32) = noneRows.map some := by decide +kernel

/-- A whole depth command, word by word (R59): DESC0, WIDTH 2, HEIGHT 3, the four buffer words, PROFILE 1 = NARROW. -/
theorem test_decode_depth_command :
    decode ([0x25, 0, 0, 0] ++ [2, 0, 0, 0] ++ [3, 0, 0, 0] ++ [0, 0x10, 0, 0] ++ [6, 0, 0, 0] ++ [1, 0x20, 0, 0] ++
      [12, 0, 0, 0] ++ [1, 0, 0, 0]) = .ok (.depth16 2 3 ⟨0x1000, 6, 0x2001, 12⟩ .narrow) := by decide +kernel

/-- Commands of fewer than eight words are refused by name. -/
theorem test_decode_truncated : (List.replicate 31 (0 : Byte)).length < 32 ∧
    decode (List.replicate 31 0) = .error .truncated ∧ decode (List.replicate 32 0) = .ok .null := by decide +kernel

/-- R21, R34, U8: (offset, data) pairs of the listings, and accesses that are none. -/
theorem test_decode_bus : decodeBus ⟨0x08, 4, some 0x25#32⟩ = .ok (.wr .desc0 0x25) ∧
    decodeBus ⟨0x30, 4, none⟩ = .ok (.rd .logcnt) ∧ decodeBus ⟨0xFC, 4, none⟩ = .ok (.rd (.reserved 50)) ∧
    decodeBus ⟨0x100, 4, none⟩ = .error .outsideWindow ∧ decodeBus ⟨0x05, 4, none⟩ = .error .misaligned ∧
    decodeBus ⟨0x04, 2, none⟩ = .error .notWord ∧ decodeBus ⟨0x04, 8, some 0#32⟩ = .error .notWord := by decide +kernel

/-- P3 step 1: `CVT IR, GRAY8, 3, 1, 0x100, 3, 0x200, 12` as (offset, data) pairs. -/
theorem test_cvt_accesses : cvtAccesses .infrared .gray8 3 1 ⟨0x100, 3, 0x200, 12⟩ none false =
    [⟨0x08, 4, some 0x19⟩, ⟨0x0C, 4, some 3⟩, ⟨0x10, 4, some 1⟩, ⟨0x14, 4, some 0x100⟩, ⟨0x18, 4, some 3⟩,
      ⟨0x1C, 4, some 0x200⟩, ⟨0x20, 4, some 12⟩, ⟨0x00, 4, some 1⟩] := by decide

/-- Every constructor's encoding of the table: its DESC0 word. -/
theorem test_encode_desc0 :
    (encode (.depth16 2 1 (bufs 4 8) .narrow) = .command ([0x25, 0, 0, 0, 2, 0, 0, 0, 1, 0, 0, 0, 0, 1, 0, 0, 4, 0, 0, 0] ++
      [0, 2, 0, 0, 8, 0, 0, 0, 1, 0, 0, 0])) ∧
    (encode (.dsrot ⟨0, 0, 0, 0⟩) = .command ([1, 0, 0, 0, 0x80, 2, 0, 0, 0xE0, 1, 0, 0] ++ List.replicate 20 0)) ∧
    (encode .noneOtherOther = .command (0x3D :: List.replicate 31 0)) := by decide +kernel

/-! ### Arithmetic (2.1 to 2.4) -/

/-- The table of 2.1. -/
theorem test_blend : blend 0 255 ⟨1, 2⟩ = 128 ∧ blend 255 0 ⟨1, 2⟩ = 128 ∧ blend 0 1 ⟨1, 2⟩ = 1 ∧ blend 1 0 ⟨1, 2⟩ = 1 ∧
    blend 0 1 ⟨49, 100⟩ = 0 ∧ blend 127 255 ⟨1, 2⟩ = 191 ∧ blend 18 19 ⟨1, 7⟩ = 18 ∧ blend 200 100 ⟨1, 3⟩ = 167 ∧
    blend 7 7 ⟨3, 11⟩ = 7 ∧ blend 0 254 ⟨1999, 255000⟩ = 2 ∧ blend 0 255 ⟨0, 1⟩ = 0 ∧ blend 0 255 ⟨1, 1⟩ = 255 := by decide

/-- The REF column of 2.2. -/
theorem test_interpolate_ref :
    [⟨-1, 2⟩, ⟨0, 1⟩, ⟨1, 16⟩, ⟨1, 7⟩, ⟨9, 16⟩, ⟨1023, 1024⟩, ⟨1, 1⟩, ⟨3, 2⟩].map (fun v => (interpolate .ref v).pack) =
      [0xFF7F0000, 0xFF7F0000, 0xFFBF0000, 0xFFFF1200, 0xFF40FFBF, 0xFF000080, 0xFF00007F, 0xFF00007F] := by decide +kernel

/-- The T2 column of 2.2. -/
theorem test_interpolate_t2 : [⟨1, 16⟩, ⟨1, 7⟩, ⟨1, 2⟩, ⟨1, 1⟩].map (fun v => (interpolate .t2 v).pack) =
      [0xFF101010, 0xFF242424, 0xFF808080, 0xFFFFFFFF] := by decide +kernel

/-- Entries of 2.3. -/
theorem test_table_entries :
    [0, 1, 128, 147, 511, 1022, 1023].map (fun k => (genDepth .ref k).pack) =
      [0xFF7F0000, 0xFF800000, 0xFFFF0000, 0xFFFF1300, 0xFF80FF7F, 0xFF000080, 0xFF00007F] ∧
    [0, 1, 63, 128, 481, 482, 1023].map (fun k => (genIr .ref k).pack) =
      [0xFF00007F, 0xFF00008B, 0xFFA1FF5D, 0xFFFF4D00, 0xFF800000, 0xFF7F0000, 0xFF7F0000] ∧
    [1, 127, 414, 415].map (fun k => (genIr .t2 k).pack) = [0xFFFCFCFC, 0xFF343434, 0xFF010101, 0xFF000000] := by decide +kernel

/-- Rows of 2.4. -/
theorem test_getValue :
    [⟨-1, 1⟩, ⟨1, 2046⟩, ⟨1, 7⟩, ⟨1, 2⟩, ⟨2045, 2046⟩, ⟨2, 1⟩].map (fun v => (getValue (buildTable (genDepth .ref)) v).pack) =
      [0xFF7F0000, 0xFF800000, 0xFFFF1200, 0xFF80FF80, 0xFF000080, 0xFF00007F] ∧
    [⟨0, 1⟩, ⟨1, 2046⟩, ⟨1, 3⟩].map (fun v => (getValue (buildTable (genIr .ref)) v).pack) =
      [0xFF00007F, 0xFF000085, 0xFF870000] := by decide +kernel

/-! ### One conversion each: the examples of R112 to R115 and P1's padding -/

/-- R112's example: NARROW, raw 1000 and raw 4001. -/
theorem test_depth16_narrow : (next? (exec (.depth16 2 1 (bufs 4 8) .narrow)
      (withMem (bytesAt 0x100 [0xE8, 0x03, 0xA1, 0x0F] [])))).map (fun t => (peek t.mem 0x200 8, statusWord t)) =
    some ([0x00, 0x12, 0xFF, 0xFF, 0x00, 0x00, 0x80, 0x80], 0x112) := by decide +kernel

/-- WIDE rows of 2.5: raw 1000 the top of the range, raw 4000 valid, raw 1 the bottom. -/
theorem test_depth16_wide : (next? (exec (.depth16 3 1 (bufs 6 12) .wide)
      (withMem (bytesAt 0x100 [0xE8, 0x03, 0xA0, 0x0F, 0x01, 0x00] [])))).map (fun t => peek t.mem 0x200 12) =
    some [0x7F, 0, 0, 0xFF, 0x7F, 0, 0, 0xFF, 0, 0, 0x7F, 0xFF] := by decide +kernel

/-- R113's example, and raw 256 (bytes 00 01, little-endian) of 2.6. -/
theorem test_ir16 : (next? (exec (.ir16 3 1 (bufs 6 12))
      (withMem (bytesAt 0x100 [0x00, 0x00, 0xFF, 0xFF, 0x00, 0x01] [])))).map (fun t => (peek t.mem 0x200 12, statusWord t)) =
    some ([0, 0, 0x80, 0x80, 0, 0, 0x7F, 0xFF, 0xAE, 0, 0, 0xFF], 0x212) := by decide +kernel

/-- R114's example. -/
theorem test_ir8 : (next? (exec (.ir8 3 1 (bufs 3 12))
      (withMem (bytesAt 0x100 [0x00, 0x01, 0xFF] [])))).map (fun t => (peek t.mem 0x200 12, statusWord t)) =
    some ([0, 0, 0x80, 0x80, 0xAE, 0, 0, 0xFF, 0, 0, 0x7F, 0xFF], 0x212) := by decide +kernel

/-- P2 in small: two rows of one pixel, strides 6, padding neither read nor written. -/
theorem test_copy_padding : (next? (exec (.copy 1 2 (bufs 6 6)) (withMem (bytesAt 0x200 (List.replicate 12 0x55)
      (bytesAt 0x100 [0x10, 0x20, 0x30, 0xFF, 0xEE, 0xEE, 0, 0, 0, 0, 0xEE, 0xEE] []))))).map
      (fun t => (peek t.mem 0x200 12, statusWord t)) =
    some ([0x10, 0x20, 0x30, 0xFF, 0x55, 0x55, 0, 0, 0, 0, 0x55, 0x55], 0x12) := by decide +kernel

/-- R132: the block at (10, 20) of a DSROT, its G byte ignored, lands in column 5 of row 229. -/
theorem test_dsrot_block : ((downBlock .reference ⟨0x00100000, 2560, 0x00300000, 1280⟩ 10 5
      (bytesAt 0x10D22C [0x29] (bytesAt 0x10D228 [0x1E] (bytesAt 0x10C82C [0x14] (bytesAt 0x10C828 [0x0A, 0x77] []))))).toOption).map
      (fun m => peek m (0x00300000 + 229 * 1280 + 20) 4) = some [0x19, 0x19, 0x19, 0xFF] := by decide +kernel

/-- The first and last accesses P5 names, in one row of blocks each. -/
theorem test_dsrot_addresses : tapAddr ⟨0x100000, 2560, 0x300000, 1280⟩ 639 479 = 0x22BFFC ∧
    downPixelAddr ⟨0x100000, 2560, 0x300000, 1280⟩ 0 239 = 0x34AB00 ∧
    downPixelAddr ⟨0x100000, 2560, 0x300000, 1280⟩ 319 0 = 0x3004FC := by decide +kernel

/-- P1 step 10: the 24 accesses in order. -/
theorem test_access_order : accessesOf .depth16 2 2 ⟨0x1000, 6, 0x2001, 12⟩ =
    [0x1000, 0x1001, 0x2001, 0x2002, 0x2003, 0x2004, 0x1002, 0x1003, 0x2005, 0x2006, 0x2007, 0x2008, 0x1006, 0x1007, 0x200D,
      0x200E, 0x200F, 0x2010, 0x1008, 0x1009, 0x2011, 0x2012, 0x2013, 0x2014] := by decide +kernel

/-! ### No-image causes (2.12) -/

theorem test_null : (next? (exec .null State.reset)).map statusWord = some 0x22 := by decide

theorem test_none : (next? (exec .noneDepthBgra8 State.reset)).map (fun t => (statusWord t, diagWord t.log, t.log.logcnt)) =
    some (0x32, 0x3, 1) := by decide

/-- 2.12: a 1 by 1 depth frame whose second input byte fails; the table was built first. -/
theorem test_fault_read : (next? (exec (.depth16 1 1 (bufs 2 4) .wide)
      { State.reset with env := { base := { Config.reference with faulting := [⟨0x101, 1⟩] }, memOkPlan := [] } })).map
      (fun t => (statusWord t, diagWord t.log, t.log.faultAddr, t.log.logcnt)) = some (0x142, 0x4, 0x101, 1) := by
  decide +kernel

/-- 2.12: a 1 by 2 copy whose second row lies past the top of memory. -/
theorem test_fault_overflow : (next? (exec (.copy 1 2 ⟨0xFFFFFFFC, 4, 0x6000, 8⟩) State.reset)).map
      (fun t => (statusWord t, diagWord t.log, t.log.faultAddr)) = some (0x42, 0x104, 0x0) := by decide +kernel

/-- P4, steps 5 and 8: the same depth command as the second and as the third conversion of one platform, the write of `0x5006`
failing in one and the read of `0x502` in the other. -/
theorem test_p4_memok : [1, 2].map (fun n => (next? (step (loadCommand
      { desc0 := 0x25, width := 3, height := 1, bufs := ⟨0x500, 6, 0x5000, 12⟩, profile := 1 }
      { State.reset with mem := bytesAt 0x500 [0xE8, 0x03, 0xE8, 0x03, 0xE8, 0x03] [], started := n, ilutReady := true
                         env := { base := .reference, memOkPlan := [[], [⟨0x5006, 1⟩], [⟨0x502, 1⟩]] } }))).map
      (fun t => (statusWord t, t.log.faultAddr))) = [some (0x342, 0x5006), some (0x342, 0x502)] := by decide +kernel

/-! ### Register operations (2.10) -/

/-- A register's value after a write from the reset state. -/
def writeRead (r : Reg) (v : Word) : Option Word := (next? (exec (.wr r v) State.reset)).map (readReg r)

theorem test_wr_masks : writeRead .desc0 0xFFFFFFFF = some 0x3D ∧ writeRead .width 0x12345 = some 0x2345 ∧
    writeRead .height 0xFFFFFFFF = some 0xFFFF ∧ writeRead .profile 0xFFFFFFFE = some 0 ∧ writeRead .profile 3 = some 1 ∧
    writeRead .inBase 0xDEADBEEF = some 0xDEADBEEF ∧ writeRead .diag 0xFFFFFFFF = some 0 ∧ writeRead .logcnt 5 = some 0 ∧
    writeRead (.reserved 0) 0xFFFFFFFF = some 0 := by decide

theorem test_wr_ctrl : (next? (exec (.wr .ctrl 0xFFFFFFFE) State.reset)).map statusWord = some 0 ∧
    (next? (exec (.wr .ctrl 1) State.reset)).map statusWord = some 1 ∧
    (next? (exec (.wr .ctrl 1) { State.reset with busy := true })).map statusWord = some 0x1001 := by decide

theorem test_wr_status_and_ack :
    (next? (exec (.wr .status 0x2) { State.reset with done := true, result := .null })).map statusWord = some 0x20 ∧
    (next? (exec (.wr .status 0x1000) { State.reset with busy := true, dropped := true })).map statusWord = some 1 ∧
    (next? (exec .ack { State.reset with done := true, dropped := true, result := .ok, ilutReady := true })).map statusWord =
      some 0x210 := by decide

theorem test_rd : (next? (exec (.rd .status) { State.reset with done := true, result := .ok, dlutReady := true })).map
    (fun t => t.readData) = some 0x112 := by decide

theorem test_wait : (next? (exec .wait { State.reset with busy := true })).map (fun t => (t.readData, t.hostQueue)) =
    some (1, [.wait]) ∧ (next? (exec .wait State.reset)).map (fun t => t.hostQueue) = some [] := by decide

/-- P6 step 1 and P3 steps 13 to 15: a START from reset is NULL; a write and a START while BUSY. -/
theorem test_cvt : (next? (exec (.cvt .depth .gray16 1 1 (bufs 2 4) (some .narrow) false) State.reset)).map
    (fun t => t.hostQueue.length) = some 9 := by decide

/-! ### Witnesses: concrete states and operands that meet each statement's hypotheses -/

theorem duties_of {cfg : Config} {op : Op} {w h : Nat} {b : Buffers}
    (hx : dutyBreach cfg (inputFootprint op w h b) (outputFootprint op w h b) = none) :
    HostDuties cfg (inputFootprint op w h b) (outputFootprint op w h b) := dutyBreach_none.1 hx

/-- `Depth16Completes`, `Ir16Completes`, `Ir8Completes`, `CopyCompletes`: 2 by 2 frames with strides at the row spans. -/
theorem test_witness_row_transfers :
    (HostDuties Config.reference (inputFootprint .depth16 2 2 (bufs 4 8)) (outputFootprint .depth16 2 2 (bufs 4 8)) ∧
      firstFailing Config.reference .depth16 2 2 (bufs 4 8) = none) ∧
    (HostDuties Config.reference (inputFootprint .ir16 2 2 (bufs 4 8)) (outputFootprint .ir16 2 2 (bufs 4 8)) ∧
      firstFailing Config.reference .ir16 2 2 (bufs 4 8) = none) ∧
    (HostDuties Config.reference (inputFootprint .ir8 2 2 (bufs 2 8)) (outputFootprint .ir8 2 2 (bufs 2 8)) ∧
      firstFailing Config.reference .ir8 2 2 (bufs 2 8) = none) ∧
    (HostDuties Config.reference (inputFootprint .copy 2 2 (bufs 8 8)) (outputFootprint .copy 2 2 (bufs 8 8)) ∧
      firstFailing Config.reference .copy 2 2 (bufs 8 8) = none) :=
  ⟨⟨duties_of (by decide +kernel), by decide +kernel⟩, ⟨duties_of (by decide +kernel), by decide +kernel⟩,
    ⟨duties_of (by decide +kernel), by decide +kernel⟩, ⟨duties_of (by decide +kernel), by decide +kernel⟩⟩

/-- `DsrotCompletes`: P5's buffers. -/
theorem test_witness_dsrot :
    HostDuties Config.reference (inputFootprint .dsrot 640 480 ⟨0x100000, 2560, 0x300000, 1280⟩)
      (outputFootprint .dsrot 640 480 ⟨0x100000, 2560, 0x300000, 1280⟩) ∧
    firstFailing Config.reference .dsrot 640 480 ⟨0x100000, 2560, 0x300000, 1280⟩ = none := by
  refine ⟨duties_of (by decide +kernel), ?_⟩
  rw [firstFailing, List.find?_eq_none]
  intro a ha
  have hlt : a < addrSpace := by
    simp only [accessesOf, downAccesses, concatBelow, List.mem_flatMap, List.mem_range, List.mem_append, mem_bytesFrom, dsH,
      dsW, tapAddr, downPixelAddr, List.mem_cons, List.not_mem_nil, or_false] at ha
    have e1 : (0x100000 : Word).toNat = 1048576 := rfl
    have e2 : (2560 : Word).toNat = 2560 := rfl
    have e3 : (0x300000 : Word).toNat = 3145728 := rfl
    have e4 : (1280 : Word).toNat = 1280 := rfl
    simp only [e1, e2, e3, e4] at ha
    simp only [addrSpace]
    obtain ⟨yb, hy, xb, hx, (h | h | h | h) | ⟨h, h'⟩⟩ := ha <;> omega
  simp [memOK, hlt, Config.reference]

/-- `TransferFaults`: the two faults tested above. -/
theorem test_witness_faults :
    transferOf (.copy 1 2 ⟨0xFFFFFFFC, 4, 0x6000, 8⟩) = some (.copy, 1, 2, ⟨0xFFFFFFFC, 4, 0x6000, 8⟩) ∧
    HostDuties Config.reference (inputFootprint .copy 1 2 ⟨0xFFFFFFFC, 4, 0x6000, 8⟩)
      (outputFootprint .copy 1 2 ⟨0xFFFFFFFC, 4, 0x6000, 8⟩) ∧
    firstFailing Config.reference .copy 1 2 ⟨0xFFFFFFFC, 4, 0x6000, 8⟩ = some 0x100000000 :=
  ⟨rfl, duties_of (by decide +kernel), by decide +kernel⟩

/-- `RefusedExactlyOnMisuse`: a stride one short with two rows, footprints that share one byte, and a footprint over the register
file; a stride one short with one row is no misuse (R161). -/
theorem test_witness_misuse :
    refusal? (exec (.copy 2 2 (bufs 7 8)) State.reset) = some .strideBelowRowSpan ∧
    refusal? (exec (.copy 2 2 (bufs 8 7)) State.reset) = some .strideBelowRowSpan ∧
    (next? (exec (.copy 2 1 (bufs 7 7)) State.reset)).isSome = true ∧
    refusal? (exec (.copy 1 1 ⟨0x100, 4, 0x103, 4⟩) State.reset) = some .footprintsOverlap ∧
    (next? (exec (.copy 1 1 ⟨0x100, 4, 0x104, 4⟩) State.reset)).isSome = true ∧
    refusal? (exec (.copy 1 1 (bufs 4 4)) { State.reset with env := { base := { Config.reference with regBase := some 0x1 }, memOkPlan := [] } }) =
      some .footprintNotMemory := by decide +kernel

/-- `EmptyFramesComplete`: 2.12's WIDTH = 0, HEIGHT = 5, and a copy of no rows over bad buffers. -/
theorem test_witness_empty : transferOf (.depth16 0 5 (bufs 0 0) .wide) = some (.depth16, 0, 5, bufs 0 0) ∧
    (next? (exec (.depth16 0 5 (bufs 0 0) .wide) State.reset)).map statusWord = some 0x112 ∧
    (next? (exec (.copy 9 0 ⟨0, 0, 0, 0⟩) State.reset)).map statusWord = some 0x12 := by decide +kernel

/-- `TablesBuiltOnce`: a conversion that builds each table, and one that builds none. -/
theorem test_witness_tables :
    (next? (exec (.depth16 0 0 (bufs 0 0) .wide) State.reset)).map (fun t => (t.dlutReady, t.ilutReady)) = some (true, false) ∧
    (next? (exec (.ir8 0 0 (bufs 0 0)) State.reset)).map (fun t => (t.dlutReady, t.ilutReady)) = some (false, true) ∧
    (next? (exec (.ir16 0 0 (bufs 0 0)) State.reset)).map (fun t => (t.dlutReady, t.ilutReady)) = some (false, true) ∧
    (next? (exec (.copy 0 0 (bufs 0 0)) State.reset)).map (fun t => (t.dlutReady, t.ilutReady)) = some (false, false) := by
  decide +kernel

/-- `StepRunsLatchedCommand`, `OneResultPerConversion`, `BusyUntilTheEngineEnds`, `EveryConversionEnds`: a busy state whose host
has register operations pending and moves twice before the engine. -/
def running : State :=
  { busyWith 0x01 1 1 (bufs 4 4) State.reset with
      hostQueue := [.bus ⟨0x0C, 4, some 7⟩, .wait, .ack], schedule := [.host, .host] }

theorem test_witness_running : running.busy = true ∧ LatchedOp running ∧
    HostDuties running.cfg running.inFootprint running.outFootprint ∧
    (∀ e ∈ running.hostQueue, e.isRegisterOp = true) ∧ nextAgent running = .host ∧ (next? (step running)).isSome = true :=
  ⟨rfl, fun _ => by decide, dutyBreach_none.1 (by decide +kernel), by decide, rfl, by decide +kernel⟩

theorem test_witness_engine : nextAgent { running with schedule := [] } = .engine ∧
    nextAgent { running with schedule := [.engine] } = .engine ∧
    (next? (step { running with schedule := [] })).map statusWord = some 0x12 := by decide +kernel

/-- `StepRunsHostOperation`: each kind of pending action. -/
theorem test_witness_host_actions :
    [HostEvent.bus ⟨0x04, 4, none⟩, .cvt .color .bgra8 1 1 (bufs 4 4) none false, 
      .wait, .ack, .store 0x10 1, .load 0x10].all (fun e =>
      nextAgent { State.reset with hostQueue := [e] } == .host &&
        (next? (step { State.reset with hostQueue := [e] })).isSome) = true ∧
    refusal? (step { State.reset with hostQueue := [.bus ⟨0x06, 4, none⟩] }) = some (.notARegisterAccess .misaligned) := by
  decide +kernel

/-- `IdleTurnsChangeNothing`: both of its cases. -/
theorem test_witness_idle : nextAgent { State.reset with schedule := [.engine] } = .engine ∧ State.reset.busy = false ∧
    nextAgent State.reset = .host ∧ State.reset.hostQueue = [] := by decide

/-- `PlacedCommandRuns`: a word of every table row that has a descriptor, the NULL row among them. -/
theorem test_witness_placed : [0x25, 0x29, 0x19, 0x01, 0x00, 0x3D].all (fun w => (decodeTableWord 32 w).isSome &&
    (next? (step (State.reset.withFetchWord 32 w))).isSome) = true := by decide +kernel

/-- `ResetWhileIdle`, `ResetWhileBusy`: P6 steps 1 and 3. -/
theorem test_witness_reset :
    nextAgent { State.reset with hostQueue := [.reset], done := true } = .host ∧
    nextAgent { running with hostQueue := [.reset], schedule := [.host] } = .host ∧
    (next? (step { running with hostQueue := [.reset], schedule := [.host] })).map
      (fun t => (statusWord t, readReg .width t)) = some (0, 0) := by decide +kernel

/-- `WriteEffect`, `WriteThenRead`, `ReadEffect`: a word with and without bit 0, an idle and a busy state, reserved bits 0. -/
theorem test_witness_registers : (1#32).getLsbD 0 = true ∧ (0xFFFFFFFE#32).getLsbD 0 = false ∧ State.reset.busy = false ∧
    running.busy = true ∧ ReservedBitsZero running := by decide

/-- `CvtProgramsAndStarts`: P3 step 1 from reset, with and without a profile. -/
theorem test_witness_cvt : State.reset.busy = false ∧ State.reset.schedule = [] ∧
    (next? (Sys2Proof.core.run 9 { State.reset with
      hostQueue := [.cvt .infrared .gray8 3 1 ⟨0x100, 3, 0x200, 12⟩ none false, .wait] })).map
      (fun t => (statusWord t, t.hostQueue)) = some (1, [.wait]) ∧
    (next? (Sys2Proof.core.run 10 { State.reset with
      hostQueue := [.cvt .depth .gray16 3 1 ⟨0x500, 6, 0x5000, 12⟩ (some .narrow) false] })).map
      (fun t => (statusWord t, readReg .profile t, t.op)) = some (1, 1, .depth16) := by decide +kernel

/-- `HostMemoryAccess`: inside and outside the footprints of a running conversion, and the last byte of memory. -/
theorem test_witness_host_memory : running.inFootprint.has 0x103 = true ∧ running.inFootprint.has 0x104 = false ∧
    running.outFootprint.has 0x200 = true ∧ running.outFootprint.has 0x1FF = false ∧ running.cfg.regBase = none ∧
    running.cfg.devices = [] ∧ refusal? (hostStore 0x103 1 running) = some .bufferTouchedWhileBusy ∧
    refusal? (hostLoad 0x200 running) = some .bufferTouchedWhileBusy ∧
    (next? (hostStore 0xFFFFFFFF 1 running)).isSome = true ∧
    fault? (hostStore 0x100000000 1 State.reset) = some (.noSuchByte 0x100000000) := by decide +kernel

/-- `HostAccessStops`: the first and the last byte of a mapped register file, a device's byte, and a byte next to both; and a
byte whose `MemOK` is false, which the host writes (log 18). -/
theorem test_witness_host_stops :
    let mapped : State := { State.reset with env := { memOkPlan := [], base := { Config.reference with
      regBase := some 0x1000, devices := [⟨0x1100, 1⟩], faulting := [⟨0x1101, 1⟩] } } }
    refusal? (hostStore 0x1000 1 mapped) = some (.notARegisterAccess .notWord) ∧
    refusal? (hostLoad 0x10FF mapped) = some (.notARegisterAccess .notWord) ∧
    refusal? (hostLoad 0x1100 mapped) = some .deviceAccess ∧ (next? (hostStore 0xFFF 1 mapped)).isSome = true ∧
    memOK mapped.cfg 0x1101 = false ∧ (next? (hostStore 0x1101 1 mapped)).isSome = true := by decide +kernel

/-- `NullConversion`, `UnsupportedConversion`: a descriptor of each. -/
theorem test_witness_no_image : (0x3C#32 &&& 1#32 = 0#32) ∧ presentOf 0x05 = true ∧
    (kindOf 0x05, fmtOf 0x05) ∉
      [(Kind.color, Fmt.bgra8), (.depth, .gray16), (.infrared, .gray8), (.infrared, .gray16)] := by decide

/-- `StepKeepsLegal`, `ReadyTablesNeverChange`, `ConfigurationIsConstant`: steps from legal states, one of them an accepted
START; and the change of `MemOK` that is refused, idle or BUSY. -/
theorem test_witness_steps : (next? (step State.reset)).isSome = true ∧
    (next? (step { State.reset with hostQueue := [.bus ⟨0x00, 4, some 1⟩] })).map (fun t => (t.busy, t.started)) =
      some (true, 1) ∧
    refusal? (step { State.reset with hostQueue := [.platform [⟨0x5006, 1⟩]] }) = some .memOkChanged ∧
    refusal? (step { running with hostQueue := [.platform []] }) = some .memOkChanged ∧
    (next? (step (State.reset.withFetchWord 32 0x25))).map (fun t => t.dlutReady) = some true := by decide +kernel

theorem test_witness_legal : Legal State.reset :=
  ⟨by decide, by decide, by decide, (fun h => by cases h), ⟨(fun h => by cases h), (fun h => by cases h)⟩, by decide⟩

/-- `ImageDependsOnInputFootprintOnly`: two memories that agree on the input footprint and differ outside it, no table ready. -/
theorem test_witness_image :
    (∀ a, (inputFootprint .ir8 1 1 (bufs 1 4)).has a = true →
      Memory.get (bytesAt 0x100 [0x55] []) a = Memory.get (bytesAt 0x100 [0x55, 0x77] []) a) ∧
    TablesBuilt (withMem (bytesAt 0x100 [0x55] [])) ∧ TablesBuilt (withMem (bytesAt 0x100 [0x55, 0x77] [])) ∧
    (next? (exec (.ir8 1 1 (bufs 1 4)) (withMem (bytesAt 0x100 [0x55] [])))).map (fun t => t.result) = some .ok := by
  refine ⟨fun a ha => ?_, ⟨fun h => (by cases h), fun h => (by cases h)⟩, ⟨fun h => (by cases h), fun h => (by cases h)⟩,
    by decide +kernel⟩
  have hx : a = 0x100 := by
    obtain ⟨r, h1, h2, h3⟩ := (has_iff_span rfl).1 ha
    have h1' : r < 1 := h1
    have h2' : 0x100 + r * 1 + 0 ≤ a := h2
    have h3' : a < 0x100 + r * 1 + 1 := h3
    omega
  subst hx
  decide

/-- `ConversionIsIdempotent`, `LogWrittenByLoggedEndsOnly`, `LogHasNoEffect`: a canonical memory and a conversion that ends OK. -/
theorem test_witness_idempotent : MemoryCanonical (withMem (bytesAt 0x100 [0x55] [])) ∧
    (transferOf (.ir8 1 1 (bufs 1 4))).isSome = true ∧ Instr.ir8 1 1 (bufs 1 4) ∉ [Instr.rd .diag, .rd .faultAddr, .rd .logcnt] := by
  decide

/-- The statements about weights and values: weights at both ends, values below, at and above the range, a value inside a cell. -/
theorem test_witness_values :
    (0 < (Weight.mk 0 1).den ∧ (Weight.mk 0 1).num ≤ (Weight.mk 0 1).den ∧ (Weight.mk 1 1).num ≤ (Weight.mk 1 1).den) ∧
    (Ratio.mk (-1) 2).toRat ≤ 0 ∧ 1 ≤ (Ratio.mk 3 2).toRat ∧ (Ratio.mk 0 1).toRat = 0 ∧ (Ratio.mk 1 1).toRat = 1 ∧
    (Ratio.mk 1023 1023).toRat = ((1023 : ℕ) : ℚ) / 1023 ∧
    ((1022 : ℕ) : ℚ) / 1023 ≤ (Ratio.mk 2045 2046).toRat ∧ (Ratio.mk 2045 2046).toRat ≤ (((1022 : ℕ) : ℚ) + 1) / 1023 := by
  refine ⟨by decide, ?_, ?_, ?_, ?_, ?_, ?_, ?_⟩ <;> norm_num [Ratio.toRat]

/-- `SentinelIsDistinct`, `ImagesArePremultiplied`: the reference configuration, every alpha 0xFF and the sentinel's 0x80. -/
theorem test_witness_palette : (∀ i, i < Palette.ref.size → (Palette.ref.entry i).a = 0xFF) ∧
    Config.reference.invalidColor.a ≠ 0xFF ∧
    (∀ i, i < Config.reference.palette.size → Premultiplied (Config.reference.palette.entry i)) ∧
    Premultiplied Config.reference.invalidColor := by
  unfold Premultiplied; decide +kernel

/-- `ColorImage`, `AccessesFailAtTheLowestAddress`: four good bytes at the top of memory; the lowest failing address of an access
that crosses it. -/
theorem test_witness_memory : (∀ i, i < 4 → memOK .reference (0xFFFFFFFC + i) = true) ∧
    memOK .reference 0x100000000 = false ∧
    (memRead .reference [] 0xFFFFFFFF 2).toOption = none ∧ firstBad .reference 0xFFFFFFFF 2 = some 0x100000000 := by decide

end Sys2Proof.Tests
end

section
/-! SUPPORT. The family Scope: what the host's turn runs, that a started conversion ends (R11, R123, R167), and how a memory
access fails (R9, R46, R47). -/

namespace Sys2Proof.Machine

/-! ### Whose turn it is, and what it comes to -/

theorem step_of_nextTurn_run {s s' : State} {i : Instr} (h : nextTurn s = .run i s') : step s = exec i s' := by
  simp [step, h]

theorem step_of_nextTurn_answer {s : State} {o : Host.Outcome State Fault Refusal} (h : nextTurn s = .answer o) :
    step s = o := by
  simp [step, h]

theorem nextTurn_host_cons {s : State} {e : HostEvent} {rest : List HostEvent} (hg : nextAgent s = .host)
    (hq : s.hostQueue = e :: rest) : nextTurn s = hostAction e (afterPop s rest) := by
  simp [nextTurn, hg, hostTurn, hq, afterPop]

theorem nextTurn_host_nil {s : State} (hg : nextAgent s = .host) (hq : s.hostQueue = []) :
    nextTurn s = .answer (.next (popSchedule s)) := by
  simp [nextTurn, hg, hostTurn, hq]

theorem nextTurn_engine_busy {s : State} (hg : nextAgent s = .engine) (hb : s.busy = true) :
    nextTurn s = .run s.command (popSchedule s) := by
  simp [nextTurn, hg, engineTurn, hb, State.command]

theorem hostAction_bus_ok {x : BusAccess} {i : Instr} (h : decodeBus x = .ok i) (s : State) :
    hostAction (.bus x) s = .run i s := by
  simp [hostAction, h]

theorem hostAction_bus_error {x : BusAccess} {why : DecodeError} (h : decodeBus x = .error why) (s : State) :
    hostAction (.bus x) s = .answer (.refused (.notARegisterAccess why)) := by
  simp [hostAction, h]

/-! ### The command of a latched operation -/

theorem noneCell_mem_noneRows (k : Kind) (f : Fmt) : noneCell k f ∈ noneRows := by
  cases k <;> cases f <;> decide

theorem exec_of_mem_noneRows {i : Instr} (hi : i ∈ noneRows) (s : State) :
    exec i s = .next (raiseCause .unsupported s) := by
  simp only [noneRows, List.mem_cons, List.not_mem_nil, or_false] at hi
  rcases hi with rfl | rfl | rfl | rfl | rfl | rfl | rfl | rfl | rfl | rfl | rfl | rfl <;> rfl

/-- The downsample path is selected for one size only (R66, R68). -/
theorem size_of_decodeOp_dsrot {desc0 : Word} {w h : BitVec 16} (hop : decodeOp desc0 w h = .dsrot) :
    w.toNat = dsW ∧ h.toNat = dsH := by
  by_cases hs : w.toNat = dsW ∧ h.toNat = dsH
  · exact hs
  · unfold decodeOp at hop
    rw [if_neg (c := kindOf desc0 = .color ∧ _) fun hc => hs hc.2.2] at hop
    split_ifs at hop

theorem transferOf_commandOf {op : Op} {d : Descriptor} (hnull : op ≠ .null) (hnone : op ≠ .none)
    (hsize : op = .dsrot → d.width.toNat = dsW ∧ d.height.toNat = dsH) :
    transferOf (commandOf op d) = some (op, d.width.toNat, d.height.toNat, d.bufs) := by
  cases op with
  | null => exact absurd rfl hnull
  | none => exact absurd rfl hnone
  | dsrot =>
    obtain ⟨hw, hh⟩ := hsize rfl
    simp [commandOf, transferOf, hw, hh]
  | _ => rfl

/-! ### The end of a conversion -/

/-- A conversion over the descriptor `d` has ended: BUSY clear, DONE set, a result, and the descriptor as it was (R118, R123, R141). -/
structure Ended (d : Descriptor) (t : State) : Prop where
  busy   : t.busy = false
  done   : t.done = true
  result : t.result ≠ .none
  desc   : t.desc = d

@[simp] theorem tableEnsured_desc (i : Instr) (s : State) : (tableEnsured i s).desc = s.desc := by
  rcases tableEnsured_eq i s with h | h | h <;> simp [h]

theorem ended_completeOk (s : State) : Ended s.desc (completeOk s) := ⟨rfl, rfl, nofun, rfl⟩

theorem ended_raiseCause (c : Cause) (s : State) : Ended s.desc (raiseCause c s) := by
  cases c <;> exact ⟨rfl, rfl, nofun, rfl⟩

/-- A transfer whose host kept its duties ends, in OK or in FAULT. -/
theorem exec_transfer_ends {i : Instr} {op : Op} {w h : Nat} {b : Buffers} (hi : transferOf i = some (op, w, h, b))
    {s : State} (hd : HostDuties s.cfg (inputFootprint op w h b) (outputFootprint op w h b)) :
    ∃ t, exec i s = .next t ∧ Ended s.desc t := by
  cases hf : firstFailing s.cfg op w h b with
  | none =>
    obtain ⟨m, -, hx⟩ := exec_complete hi hd hf
    exact ⟨_, hx, by simpa using ended_completeOk { tableEnsured i s with mem := m }⟩
  | some a =>
    exact ⟨_, exec_fault hi hd hf,
      by simpa using ended_raiseCause (.fault a) (spoilOutput (outputFootprint op w h b) (tableEnsured i s))⟩

/-- The latched command ends, whichever of the seven operations it is. -/
theorem exec_command_ends {s : State} (hb : s.busy = true) (hl : LatchedOp s)
    (hd : HostDuties s.cfg s.inFootprint s.outFootprint) :
    ∃ t, exec s.command (popSchedule s) = .next t ∧ Ended s.desc t := by
  by_cases hnull : s.op = .null
  · refine ⟨raiseCause .null (popSchedule s), ?_, ended_raiseCause .null (popSchedule s)⟩
    rw [State.command, hnull]
    rfl
  by_cases hnone : s.op = .none
  · refine ⟨raiseCause .unsupported (popSchedule s), ?_, ended_raiseCause .unsupported (popSchedule s)⟩
    rw [State.command, hnone]
    exact exec_of_mem_noneRows (noneCell_mem_noneRows _ _) _
  · have hsize : s.op = .dsrot → s.desc.width.toNat = dsW ∧ s.desc.height.toNat = dsH := fun hop =>
      size_of_decodeOp_dsrot ((hl hb).symm.trans hop)
    exact exec_transfer_ends (transferOf_commandOf hnull hnone hsize) (s := popSchedule s) hd

/-! ### The host's turns while a conversion runs -/

/-- What a register operation of the host leaves of a running conversion (R57, R158): the conversion and the schedule are as
they were, and whatever it queued is again a register operation. -/
structure KeepsConversion (s t : State) : Prop where
  busy     : t.busy = s.busy
  op       : t.op = s.op
  desc     : t.desc = s.desc
  cfg      : t.cfg = s.cfg
  schedule : t.schedule = s.schedule
  queue    : ∀ e ∈ t.hostQueue, e ∈ s.hostQueue ∨ e.isRegisterOp = true

theorem keepsConversion_refl (s : State) : KeepsConversion s s := ⟨rfl, rfl, rfl, rfl, rfl, fun _ he => .inl he⟩

/-- A register write while BUSY can set DROPPED or acknowledge, and nothing else (R105, R108, R158). -/
theorem writeReg_busy (r : Reg) (v : Word) {s : State} (hb : s.busy = true) :
    writeReg r v s = s ∨ writeReg r v s = { s with dropped := true } ∨ writeReg r v s = acknowledge v s := by
  cases r with
  | ctrl =>
    by_cases hv : v.getLsbD 0 = true
    · exact .inr (.inl ((if_pos hv).trans (if_pos hb)))
    · exact .inl (if_neg hv)
  | status => exact .inr (.inr rfl)
  | _ => exact .inl (if_pos hb)

theorem keepsConversion_writeReg (r : Reg) (v : Word) {s : State} (hb : s.busy = true) :
    KeepsConversion s (writeReg r v s) := by
  rcases writeReg_busy r v hb with h | h | h <;> rw [h]
  · exact keepsConversion_refl s
  · exact ⟨rfl, rfl, rfl, rfl, rfl, fun _ he => .inl he⟩
  · exact ⟨rfl, rfl, rfl, rfl, rfl, fun _ he => .inl he⟩

/-- The register writes of `CVT` are register operations (R73, R75). -/
theorem isRegisterOp_of_mem_cvtAccesses {k : Kind} {f : Fmt} {w h : Word} {b : Buffers} {p : Option Profile}
    {absent : Bool} {e : HostEvent} (he : e ∈ (cvtAccesses k f w h b p absent).map HostEvent.bus) :
    e.isRegisterOp = true := by
  simp only [cvtAccesses, List.mem_map] at he
  obtain ⟨_, ⟨x, -, rfl⟩, rfl⟩ := he
  simp [HostEvent.isRegisterOp, Laws.decodeBus_writeAccess, Except.toBool]

/-- While BUSY every host operation answers a next state that keeps the conversion (R57, R158, R163). -/
theorem exec_hostOperation_busy {i : Instr} {s : State} (hb : s.busy = true)
    (hi : (∃ r v, i = .wr r v) ∨ (∃ r, i = .rd r) ∨ (∃ k f w h b p a, i = .cvt k f w h b p a) ∨ i = .wait ∨ i = .ack) :
    ∃ t, exec i s = .next t ∧ KeepsConversion s t := by
  obtain ⟨r, v, rfl⟩ | ⟨r, rfl⟩ | ⟨k, f, w, h, b, p, a, rfl⟩ | rfl | rfl := hi
  · exact ⟨_, rfl, keepsConversion_writeReg r v hb⟩
  · exact ⟨_, rfl, rfl, rfl, rfl, rfl, rfl, fun _ he => .inl he⟩
  · refine ⟨_, rfl, rfl, rfl, rfl, rfl, rfl, fun e he => ?_⟩
    exact (List.mem_append.1 he).elim (.inr ∘ isRegisterOp_of_mem_cvtAccesses) .inl
  · refine ⟨_, rfl, rfl, rfl, rfl, rfl, rfl, fun e he => ?_⟩
    rw [if_pos hb, List.mem_cons] at he
    exact he.elim (fun h => .inr (h ▸ rfl)) .inl
  · exact ⟨_, rfl, keepsConversion_writeReg .status ackWord hb⟩

theorem hostAction_of_isRegisterOp {e : HostEvent} (he : e.isRegisterOp = true) (s : State) :
    ∃ i, hostAction e s = .run i s := by
  cases e with
  | bus x =>
    cases hx : decodeBus x with
    | ok i => exact ⟨i, hostAction_bus_ok hx s⟩
    | error why => simp [HostEvent.isRegisterOp, hx, Except.toBool] at he
  | cvt k f w h b p a => exact ⟨_, rfl⟩
  | wait => exact ⟨_, rfl⟩
  | ack => exact ⟨_, rfl⟩
  | _ => cases he

/-! ### A running conversion, and that it ends -/

/-- A conversion runs whose host kept its duties and has register operations pending only. -/
structure Converting (s : State) : Prop where
  busy    : s.busy = true
  latched : LatchedOp s
  duties  : HostDuties s.cfg s.inFootprint s.outFootprint
  queue   : ∀ e ∈ s.hostQueue, e.isRegisterOp = true

theorem Converting.popSchedule {s : State} (hs : Converting s) : Converting (popSchedule s) :=
  ⟨hs.busy, hs.latched, hs.duties, hs.queue⟩

theorem Converting.afterPop {s : State} {e : HostEvent} {rest : List HostEvent} (hs : Converting s)
    (hq : s.hostQueue = e :: rest) : Converting (afterPop s rest) :=
  ⟨hs.busy, hs.latched, hs.duties, fun x hx => hs.queue x (hq ▸ List.mem_cons_of_mem e hx)⟩

theorem Converting.of_keepsConversion {s t : State} (hs : Converting s) (h : KeepsConversion s t) : Converting t where
  busy := h.busy.trans hs.busy
  latched _ := by rw [h.op, h.desc]; exact hs.latched hs.busy
  duties := by
    simpa only [State.inFootprint, State.outFootprint, h.op, h.desc, h.cfg] using hs.duties
  queue e he := (h.queue e he).elim (hs.queue e) id

/-- On the host's turn the conversion goes on, one turn nearer the end of the schedule. -/
theorem Converting.step_host {s : State} (hs : Converting s) (hg : nextAgent s = .host) :
    ∃ t, step s = .next t ∧ Converting t ∧ t.desc = s.desc ∧ t.schedule = s.schedule.tail := by
  cases hq : s.hostQueue with
  | nil => exact ⟨_, step_of_nextTurn_answer (nextTurn_host_nil hg hq), hs.popSchedule, rfl, rfl⟩
  | cons e rest =>
    have hp := hs.afterPop hq
    obtain ⟨i, hi⟩ := hostAction_of_isRegisterOp (hs.queue e (by simp [hq])) (Machine.afterPop s rest)
    obtain ⟨t, hx, hk⟩ := exec_hostOperation_busy hp.busy (hostAction_run hi)
    have hstep : step s = .next t := (step_of_nextTurn_run ((nextTurn_host_cons hg hq).trans hi)).trans hx
    exact ⟨t, hstep, hp.of_keepsConversion hk, hk.desc, hk.schedule⟩

/-- On the engine's turn the conversion ends (R122, R123). -/
theorem Converting.step_engine {s : State} (hs : Converting s) (hg : nextAgent s = .engine) :
    ∃ t, step s = .next t ∧ Ended s.desc t := by
  obtain ⟨t, hx, ht⟩ := exec_command_ends hs.busy hs.latched hs.duties
  exact ⟨t, (step_of_nextTurn_run (nextTurn_engine_busy hg hs.busy)).trans hx, ht⟩

theorem Converting.run_one_ends {s : State} (hs : Converting s) (hg : nextAgent s = .engine) :
    ∃ t, core.run 1 s = .next t ∧ Ended s.desc t := by
  obtain ⟨t, hstep, ht⟩ := hs.step_engine hg
  exact ⟨t, by rw [run_succ hstep, run_zero], ht⟩

/-- A conversion ends within one turn more than the schedule is long (R167), by induction on the schedule: each of the host's
turns uses one of it up, and the engine's turn, which comes at its end at the latest, ends the conversion. -/
theorem Converting.ends {sched : List Agent} {s : State} (hs : Converting s) (hsched : s.schedule = sched) :
    ∃ n t, n ≤ sched.length + 1 ∧ core.run n s = .next t ∧ Ended s.desc t := by
  induction sched generalizing s with
  | nil =>
    obtain ⟨t, hrun, ht⟩ := hs.run_one_ends (by simp [nextAgent, hsched, hs.busy])
    exact ⟨1, t, by simp, hrun, ht⟩
  | cons g rest ih =>
    cases g with
    | engine =>
      obtain ⟨t, hrun, ht⟩ := hs.run_one_ends (by simp [nextAgent, hsched])
      exact ⟨1, t, by simp, hrun, ht⟩
    | host =>
      obtain ⟨u, hstep, hu, hdesc, hrest⟩ := hs.step_host (by simp [nextAgent, hsched])
      obtain ⟨n, t, hn, hrun, ht⟩ := ih hu (by rw [hrest, hsched, List.tail_cons])
      exact ⟨n + 1, t, by simpa using hn, (run_succ hstep).trans hrun, hdesc ▸ ht⟩

/-! ### Memory accesses -/

theorem memOK_of_addrSpace_le {cfg : Config} {a : Nat} (h : addrSpace ≤ a) : memOK cfg a = false := by
  simp [memOK, Nat.not_lt.2 h]

/-- The lowest failing address of an access, given as an offset. -/
theorem firstBad_eq_some_add {cfg : Config} {a n i : Nat} (hi : i < n) (hbad : memOK cfg (a + i) = false)
    (hok : ∀ j, j < i → memOK cfg (a + j) = true) : firstBad cfg a n = some (a + i) := by
  refine firstBad_eq_some.2 ⟨by omega, by omega, hbad, fun y hay hyi => ?_⟩
  simpa [Nat.add_sub_cancel' hay] using hok (y - a) (by omega)

/-- A byte a little-endian write stored. -/
theorem get_writeLE_inside {m : Memory} {a n v i : Nat} (hi : i < n) :
    (Memory.get (writeLE m a n v) (a + i)).toNat = v / 256 ^ i % 256 := by
  rw [get_writeLE, if_pos (by omega), Nat.add_sub_cancel_left, BitVec.toNat_ofNat]

/-! ### The statements -/

/-- Settles O7: on the host's turn the step is the host's oldest action, whichever it is. -/
theorem stepRunsHostOperation : Obligations.StepRunsHostOperation := by
  intro s e rest hg hq
  have hturn : nextTurn s = hostAction e (afterPop s rest) := nextTurn_host_cons hg hq
  refine ⟨?bus, ?barred, ?cvt, ?wait, ?ack, ?store, ?load, ?platform⟩
  case bus =>
    rintro x i rfl hx
    exact step_of_nextTurn_run (hturn.trans (hostAction_bus_ok hx _))
  case barred =>
    rintro x why rfl hx
    exact step_of_nextTurn_answer (hturn.trans (hostAction_bus_error hx _))
  case cvt =>
    rintro k f w h b p absent rfl
    exact step_of_nextTurn_run hturn
  case wait =>
    rintro rfl
    exact step_of_nextTurn_run hturn
  case ack =>
    rintro rfl
    exact step_of_nextTurn_run hturn
  case store =>
    rintro a v rfl
    exact step_of_nextTurn_answer hturn
  case load =>
    rintro a rfl
    exact step_of_nextTurn_answer hturn
  case platform =>
    rintro fs rfl
    exact step_of_nextTurn_answer hturn

/-- Settles O35, by `Converting.ends`: the induction on the schedule. -/
theorem everyConversionEnds : Obligations.EveryConversionEnds := by
  intro s hb hl hd hq
  have hs : Converting s := ⟨hb, hl, hd, hq⟩
  obtain ⟨n, t, hn, hrun, ht⟩ := hs.ends rfl
  exact ⟨n, t, hn, hrun, ht.busy, ht.done, ht.result, ht.desc⟩

/-- Settles O58: `firstBad` is the lowest failing address of the access, and an access that has none is `readLE` or `writeLE`. -/
theorem accessesFailAtTheLowestAddress : Obligations.AccessesFailAtTheLowestAddress := by
  intro cfg m a n
  refine ⟨fun h => memOK_of_addrSpace_le h, fun i hi hbad hok => ?fails, fun hok => ⟨?reads, fun v => ?writes⟩⟩
  case fails =>
    have hfirst := firstBad_eq_some_add hi hbad hok
    exact ⟨memRead_error_iff.2 hfirst, fun v => memWrite_error_iff.2 hfirst⟩
  case reads =>
    exact ⟨readLE m a n, memRead_ok_iff.2 ⟨hok, rfl⟩, readLE_lt m a n, fun i hi => get_eq_readLE_div m hi⟩
  case writes =>
    exact ⟨writeLE m a n v, memWrite_ok_iff.2 ⟨hok, rfl⟩, fun i hi => get_writeLE_inside hi,
      fun x hx => get_writeLE_outside hx⟩

end Sys2Proof.Machine
end

section
/-! SUPPORT. The family State: what every step keeps (legality, ready tables, the parameters, the log), the register map, the
memory image of a Color, and the sentinel (R6, R13, R16 to R39, R57, R159). -/

namespace Sys2Proof.Machine

/-! ### What a host byte access and a reset answer -/

/-- A host store that answers a next state wrote one existing byte (R41). -/
theorem hostStore_next {a : Nat} {v : Byte} {s t : State} (h : hostStore a v s = .next t) :
    a < addrSpace ∧ t = { s with mem := Memory.set s.mem a v } := by
  unfold hostStore at h
  split at h
  · cases h
  · split_ifs at h with ha
    cases h
    exact ⟨Nat.lt_of_not_le ha, rfl⟩

/-- A host load that answers a next state changed nothing but the byte the host holds. -/
theorem hostLoad_next {a : Nat} {s t : State} (h : hostLoad a s = .next t) :
    t = { s with loadData := Memory.get s.mem a } := by
  unfold hostLoad at h
  split at h
  · cases h
  · split_ifs at h
    cases h
    rfl

/-- A reset that answers a next state is that of an idle CRR (R153) or of an abandoned conversion (R155). -/
theorem applyReset_next {s t : State} (h : applyReset s = .next t) :
    t = resetCrr s ∨ t = resetCrr (spoilOutput s.outFootprint s) := by
  unfold applyReset at h
  split at h
  · split at h
    · cases h
    · cases h
      exact .inr rfl
  · cases h
    exact .inl rfl

/-- A write of an idle CRR to any register but `CTRL` and `STATUS` writes the descriptor (R105). -/
theorem writeReg_idle {r : Reg} (hctrl : r ≠ .ctrl) (hstatus : r ≠ .status) (v : Word) {s : State} (hb : s.busy = false) :
    writeReg r v s = { s with desc := writeDesc r v s.desc } := by
  cases r with
  | ctrl => exact absurd rfl hctrl
  | status => exact absurd rfl hstatus
  | _ => exact if_neg (ne_true_of_eq_false hb)

/-- What a register write can come to: nothing, DROPPED, an accepted START, an acknowledgement, or an idle CRR's descriptor
written (R105, R107, R108, R158). -/
theorem writeReg_cases (r : Reg) (v : Word) (s : State) :
    writeReg r v s = s ∨ writeReg r v s = { s with dropped := true } ∨ writeReg r v s = acceptStart s ∨
    writeReg r v s = acknowledge v s ∨ (s.busy = false ∧ writeReg r v s = { s with desc := writeDesc r v s.desc }) := by
  by_cases hb : s.busy = true
  · exact (writeReg_busy r v hb).imp_right (.imp_right (.inr ∘ .inl))
  by_cases hctrl : r = .ctrl
  · subst hctrl
    by_cases hv : v.getLsbD 0 = true
    · exact .inr (.inr (.inl ((if_pos hv).trans (if_neg hb))))
    · exact .inl (if_neg hv)
  by_cases hstatus : r = .status
  · exact .inr (.inr (.inr (.inl (hstatus ▸ rfl))))
  · have hidle := eq_false_of_ne_true hb
    exact .inr (.inr (.inr (.inr ⟨hidle, writeReg_idle hctrl hstatus v hidle⟩)))

/-! ### Legal states -/

theorem legal_withMem {s : State} {m : Memory} (hs : Legal s) (hm : Memory.wf m = true) : Legal { s with mem := m } :=
  ⟨hm, hs.reserved, hs.status, hs.latched, hs.tables, hs.log⟩

theorem legal_popSchedule {s : State} (hs : Legal s) : Legal (popSchedule s) :=
  ⟨hs.memory, hs.reserved, hs.status, hs.latched, hs.tables, hs.log⟩

theorem legal_afterPop {s : State} (rest : List HostEvent) (hs : Legal s) : Legal (afterPop s rest) :=
  ⟨hs.memory, hs.reserved, hs.status, hs.latched, hs.tables, hs.log⟩

theorem legal_spoilOutput {s : State} (f : Footprint) (hs : Legal s) : Legal (spoilOutput f s) :=
  ⟨wf_spoilOutput hs.memory, hs.reserved, hs.status, hs.latched, hs.tables, hs.log⟩

theorem legal_ensureDlut {s : State} (hs : Legal s) : Legal (ensureDlut s) := by
  unfold ensureDlut
  split
  · exact hs
  · exact ⟨hs.memory, hs.reserved, hs.status, hs.latched, ⟨fun _ => rfl, hs.tables.2⟩, hs.log⟩

theorem legal_ensureIlut {s : State} (hs : Legal s) : Legal (ensureIlut s) := by
  unfold ensureIlut
  split
  · exact hs
  · exact ⟨hs.memory, hs.reserved, hs.status, hs.latched, ⟨hs.tables.1, fun _ => rfl⟩, hs.log⟩

theorem legal_tableEnsured {s : State} (i : Instr) (hs : Legal s) : Legal (tableEnsured i s) := by
  rcases tableEnsured_eq i s with h | h | h <;> rw [h]
  · exact hs
  · exact legal_ensureDlut hs
  · exact legal_ensureIlut hs

theorem legal_completeOk {s : State} (hs : Legal s) : Legal (completeOk s) :=
  ⟨hs.memory, hs.reserved, by simp [StatusLegal], nofun, hs.tables, hs.log⟩

/-- The entry sequence leaves a legal state, its log consistent with the cause it records (R141). -/
theorem legal_raiseCause {s : State} (c : Cause) (hs : Legal s) : Legal (raiseCause c s) := by
  cases c with
  | null => exact ⟨hs.memory, hs.reserved, by simp [StatusLegal], nofun, hs.tables, hs.log⟩
  | unsupported => exact ⟨hs.memory, hs.reserved, by simp [StatusLegal], nofun, hs.tables, by simp [LogLegal]⟩
  | fault a => exact ⟨hs.memory, hs.reserved, by simp [StatusLegal], nofun, hs.tables, by simp [LogLegal]⟩

theorem legal_acceptStart {s : State} (hs : Legal s) : Legal (acceptStart s) :=
  ⟨hs.memory, hs.reserved, by simp [StatusLegal], fun _ => rfl, hs.tables, hs.log⟩

theorem legal_acknowledge {s : State} (v : Word) (hs : Legal s) : Legal (acknowledge v s) := by
  obtain ⟨hexcl, hbusy, hdone⟩ := hs.status
  have hstatus : StatusLegal (acknowledge v s) := by
    simp only [StatusLegal, acknowledge_busy, acknowledge_done, acknowledge_result, Bool.and_eq_true]
    exact ⟨fun h => hexcl ⟨h.1, h.2.1⟩, hbusy, fun h => hdone h.1⟩
  exact ⟨hs.memory, hs.reserved, hstatus, hs.latched, hs.tables, hs.log⟩

/-- A descriptor write drops the reserved bits of `DESC0` (R24, R34). -/
theorem writeDesc_reserved (r : Reg) (v : Word) {d : Descriptor} (hd : d.desc0 &&& desc0Mask = d.desc0) :
    (writeDesc r v d).desc0 &&& desc0Mask = (writeDesc r v d).desc0 := by
  cases r with
  | desc0 => simp only [writeDesc, BitVec.and_assoc, BitVec.and_self]
  | _ => exact hd

theorem legal_writeReg {s : State} (r : Reg) (v : Word) (hs : Legal s) : Legal (writeReg r v s) := by
  obtain h | h | h | h | ⟨hb, h⟩ := writeReg_cases r v s <;> rw [h]
  · exact hs
  · exact ⟨hs.memory, hs.reserved, hs.status, hs.latched, hs.tables, hs.log⟩
  · exact legal_acceptStart hs
  · exact legal_acknowledge v hs
  · exact ⟨hs.memory, writeDesc_reserved r v hs.reserved, hs.status, by simp [LatchedOp, hb], hs.tables, hs.log⟩

theorem zeroDescriptor_reserved : zeroDescriptor.desc0 &&& desc0Mask = zeroDescriptor.desc0 := by decide

theorem legal_resetCrr {s : State} (hm : MemoryCanonical s) : Legal (resetCrr s) :=
  ⟨hm, zeroDescriptor_reserved, by simp [StatusLegal], nofun, by simp [TablesBuilt], by simp [LogLegal]⟩

/-- Every instruction keeps a state legal. -/
theorem legal_exec {i : Instr} {s t : State} (hs : Legal s) (h : exec i s = .next t) : Legal t := by
  rcases exec_next h with
    ⟨op, w, hh, b, m, -, hmv, -, rfl⟩ | ⟨op, w, hh, b, a, -, -, -, rfl⟩ | ⟨-, rfl⟩ | ⟨-, rfl⟩ | ⟨r, v, -, rfl⟩ |
    ⟨-, -, v, q, rfl⟩
  · have he := legal_tableEnsured i hs
    exact legal_completeOk (legal_withMem he (wf_moveOf hmv he.memory))
  · exact legal_raiseCause _ (legal_spoilOutput _ (legal_tableEnsured i hs))
  · exact legal_raiseCause _ hs
  · exact legal_raiseCause _ hs
  · exact legal_writeReg r v hs
  · exact ⟨hs.memory, hs.reserved, hs.status, hs.latched, hs.tables, hs.log⟩

/-! ### The lookup tables -/

/-- `t` holds the tables of `s`, with the same ready flags. -/
structure SameTables (s t : State) : Prop where
  dlutReady : t.dlutReady = s.dlutReady
  dlut      : t.dlut = s.dlut
  ilutReady : t.ilutReady = s.ilutReady
  ilut      : t.ilut = s.ilut

theorem sameTables_writeReg (r : Reg) (v : Word) (s : State) : SameTables s (writeReg r v s) := by
  obtain h | h | h | h | ⟨-, h⟩ := writeReg_cases r v s <;> rw [h] <;> exact ⟨rfl, rfl, rfl, rfl⟩

theorem transferOf_of_mem_noneRows {i : Instr} (hi : i ∈ noneRows) : transferOf i = none := by
  revert i
  decide

theorem tableEnsured_of_transferOf_none {i : Instr} (hi : transferOf i = none) (s : State) : tableEnsured i s = s := by
  cases i with
  | depth16 | ir16 | ir8 => cases hi
  | _ => rfl

/-- An instruction ensures its table and touches none otherwise, whatever its end (R110). -/
theorem exec_sameTables {i : Instr} {s t : State} (h : exec i s = .next t) : SameTables (tableEnsured i s) t := by
  rcases exec_next h with
    ⟨op, w, hh, b, m, -, -, -, rfl⟩ | ⟨op, w, hh, b, a, -, -, -, rfl⟩ | ⟨rfl, rfl⟩ | ⟨hn, rfl⟩ | ⟨r, v, hi, rfl⟩ |
    ⟨hno, -, v, q, rfl⟩
  · exact ⟨rfl, rfl, rfl, rfl⟩
  · exact ⟨rfl, rfl, rfl, rfl⟩
  · exact ⟨rfl, rfl, rfl, rfl⟩
  · rw [tableEnsured_of_transferOf_none (transferOf_of_mem_noneRows hn)]
    exact ⟨rfl, rfl, rfl, rfl⟩
  · obtain rfl | ⟨rfl, rfl, rfl⟩ := hi <;> exact sameTables_writeReg _ _ s
  · rw [tableEnsured_of_transferOf_none hno]
    exact ⟨rfl, rfl, rfl, rfl⟩

/-- The instructions the host runs ensure no table. -/
theorem tableEnsured_of_hostAction {e : HostEvent} {s s' : State} {i : Instr} (h : hostAction e s = .run i s') (u : State) :
    tableEnsured i u = u := by
  obtain ⟨r, v, rfl⟩ | ⟨r, rfl⟩ | ⟨k, f, w, hh, b, p, a, rfl⟩ | rfl | rfl := hostAction_run h <;> rfl

/-- A step that is no reset leaves the tables alone, or is the engine's and ensures the table of its command. -/
theorem step_tables {s t : State} (h : step s = .next t)
    (hreset : ¬ ∃ rest, nextAgent s = .host ∧ s.hostQueue = .reset :: rest) :
    SameTables s t ∨ (nextAgent s = .engine ∧ SameTables (tableEnsured s.command (popSchedule s)) t) := by
  obtain ⟨-, -, rfl⟩ | ⟨hg, -, hx⟩ | ⟨-, -, rfl⟩ | ⟨e, rest, hg, hq, hact⟩ := step_next h
  · exact .inl ⟨rfl, rfl, rfl, rfl⟩
  · exact .inr ⟨hg, exec_sameTables hx⟩
  · exact .inl ⟨rfl, rfl, rfl, rfl⟩
  · left
    obtain ⟨i, hi, hx⟩ | ⟨a, v, -, hx⟩ | ⟨a, -, hx⟩ | ⟨rfl, -⟩ := hact
    · have hsame := exec_sameTables hx
      rw [tableEnsured_of_hostAction hi] at hsame
      exact ⟨hsame.dlutReady, hsame.dlut, hsame.ilutReady, hsame.ilut⟩
    · obtain ⟨-, rfl⟩ := hostStore_next hx
      exact ⟨rfl, rfl, rfl, rfl⟩
    · rw [hostLoad_next hx]
      exact ⟨rfl, rfl, rfl, rfl⟩
    · exact absurd ⟨rest, hg, hq⟩ hreset

/-- Ensuring a table keeps a ready one, and one that becomes ready holds the build's values (R86, R110). -/
theorem tableEnsured_tables (i : Instr) (s : State) :
    (s.dlutReady = true → (tableEnsured i s).dlutReady = true ∧ (tableEnsured i s).dlut = s.dlut) ∧
    (s.ilutReady = true → (tableEnsured i s).ilutReady = true ∧ (tableEnsured i s).ilut = s.ilut) ∧
    (s.dlutReady = false → (tableEnsured i s).dlutReady = true →
      (tableEnsured i s).dlut = buildTable (genDepth s.cfg.palette)) ∧
    (s.ilutReady = false → (tableEnsured i s).ilutReady = true →
      (tableEnsured i s).ilut = buildTable (genIr s.cfg.palette)) := by
  rcases tableEnsured_eq i s with h | h | h <;> simp +contextual [h]

/-! ### The log -/

theorem writeReg_log (r : Reg) (v : Word) (s : State) : (writeReg r v s).log = s.log := by
  obtain h | h | h | h | ⟨-, h⟩ := writeReg_cases r v s <;> rw [h] <;> rfl

@[simp] theorem tableEnsured_log (i : Instr) (s : State) : (tableEnsured i s).log = s.log := by
  rcases tableEnsured_eq i s with h | h | h <;> simp [h]

theorem not_mem_noneRows_of_transferOf {i : Instr} (hi : (transferOf i).isSome = true) : i ∉ noneRows := fun hn => by
  simp [transferOf_of_mem_noneRows hn] at hi

/-! ### The parameters -/

theorem cfg_eq_of_env {s t : State} (he : t.env = s.env) (hn : t.started = s.started) : t.cfg = s.cfg := by
  rw [State.cfg, he, hn, State.cfg]

/-- No step changes the platform, and only the host's START accepted by an idle CRR begins a conversion (R16, R107, U14). -/
theorem step_env {s t : State} (h : step s = .next t) :
    t.env = s.env ∧ (t.started = s.started ∨
      (s.busy = false ∧ t.busy = true ∧ nextAgent s = .host ∧ t.started = s.started + 1)) := by
  obtain ⟨-, -, rfl⟩ | ⟨-, hb, hx⟩ | ⟨-, -, rfl⟩ | ⟨e, rest, hg, -, hact⟩ := step_next h
  · exact ⟨rfl, .inl rfl⟩
  · obtain ⟨henv, hsame | ⟨-, hidle, -⟩⟩ := exec_env hx
    · exact ⟨henv, .inl hsame⟩
    · exact absurd hb (ne_true_of_eq_false hidle)
  · exact ⟨rfl, .inl rfl⟩
  · obtain ⟨i, -, hx⟩ | ⟨a, v, -, hx⟩ | ⟨a, -, hx⟩ | ⟨-, hx⟩ := hact
    · obtain ⟨henv, hsame | ⟨-, hidle, hbusy, hstart⟩⟩ := exec_env hx
      · exact ⟨henv, .inl hsame⟩
      · exact ⟨henv, .inr ⟨hidle, hbusy, hg, hstart⟩⟩
    · obtain ⟨-, rfl⟩ := hostStore_next hx
      exact ⟨rfl, .inl rfl⟩
    · rw [hostLoad_next hx]
      exact ⟨rfl, .inl rfl⟩
    · obtain rfl | rfl := applyReset_next hx <;> exact ⟨rfl, .inl rfl⟩

/-! ### The register map (R21, R34) -/

theorem ofIndex_isSome_iff {i : Nat} : (∃ r, Reg.ofIndex i = some r) ↔ i < 64 := by
  constructor
  · rintro ⟨r, hr⟩
    by_contra hi
    obtain ⟨n, rfl⟩ := Nat.exists_eq_add_of_le' (show 13 ≤ i by omega)
    simp [Reg.ofIndex, show ¬ n < 51 by omega] at hr
  · intro hi
    have hall : ∀ i : Fin 64, (Reg.ofIndex i).isSome = true := by decide
    exact Option.isSome_iff_exists.1 (hall ⟨i, hi⟩)

/-- A bus access is a register operation exactly when it is an aligned 32-bit access of the window. -/
theorem decodeBus_ok_iff {x : BusAccess} :
    (∃ i, decodeBus x = .ok i) ↔ x.size = 4 ∧ x.offset % 4 = 0 ∧ x.offset < 0x100 := by
  have hwindow : x.offset < 0x100 ↔ ∃ r, Reg.ofIndex (x.offset / 4) = some r := by
    rw [ofIndex_isSome_iff]
    omega
  rw [hwindow]
  unfold decodeBus
  by_cases hsize : x.size = 4
  · by_cases halign : x.offset % 4 = 0
    · cases hr : Reg.ofIndex (x.offset / 4) <;> cases x.data <;> simp [hsize, halign]
    · simp [hsize, halign]
  · simp [hsize]

/-! ### A descriptor register written and read back -/

/-- Narrowing a word and widening it again keeps its low bits. -/
theorem setWidth_setWidth_eq_and (v : Word) {k : Nat} (hk : k ≤ 32) :
    (v.setWidth k).setWidth 32 = v &&& BitVec.ofNat 32 (2 ^ k - 1) := by
  apply BitVec.eq_of_toNat_eq
  have hpow : 2 ^ k ≤ 2 ^ 32 := Nat.pow_le_pow_right (by omega) hk
  have hlow : v.toNat % 2 ^ k < 2 ^ k := Nat.mod_lt _ (Nat.two_pow_pos k)
  rw [BitVec.toNat_and, BitVec.toNat_ofNat, Nat.mod_eq_of_lt (by omega : 2 ^ k - 1 < 2 ^ 32),
    Nat.and_two_pow_sub_one_eq_mod, BitVec.toNat_setWidth, BitVec.toNat_setWidth, Nat.mod_eq_of_lt (by omega)]

/-- The descriptor registers with their implemented bits (R24 to R30). -/
def descriptorRegisters : List (Reg × Word) :=
  [(.desc0, 0x0000003D), (.width, 0x0000FFFF), (.height, 0x0000FFFF), (.inBase, 0xFFFFFFFF), (.inStride, 0xFFFFFFFF),
    (.outBase, 0xFFFFFFFF), (.outStride, 0xFFFFFFFF), (.profile, 0x00000001)]

/-- A descriptor register reads back what an idle CRR's write of it left: the word cut to the implemented bits. -/
theorem readReg_writeDesc_self {p : Reg × Word} (hp : p ∈ descriptorRegisters) (v : Word) (s : State) :
    readReg p.1 { s with desc := writeDesc p.1 v s.desc } = v &&& p.2 := by
  have hall : v = v &&& 0xFFFFFFFF#32 := BitVec.and_allOnes.symm
  simp only [descriptorRegisters, List.mem_cons, List.not_mem_nil, or_false] at hp
  rcases hp with rfl | rfl | rfl | rfl | rfl | rfl | rfl | rfl
  · exact (BitVec.and_assoc ..).trans (congrArg (v &&& ·) BitVec.and_self)
  · exact setWidth_setWidth_eq_and v (by omega)
  · exact setWidth_setWidth_eq_and v (by omega)
  · exact hall
  · exact hall
  · exact hall
  · exact hall
  · exact setWidth_setWidth_eq_and v (by omega)

/-- Every other register reads as before a descriptor write: over the pairs of registers, the write changes the field of `q`
alone and the read looks at the field of `r` alone. -/
theorem readReg_writeDesc_of_ne {r q : Reg} (hrq : r ≠ q) (v : Word) (s : State) :
    readReg r { s with desc := writeDesc q v s.desc } = readReg r s := by
  cases q <;> cases r <;> simp [readReg, writeDesc, statusWord] at hrq ⊢

/-! ### The sentinel -/

/-- A blend of a value with itself is that value (R80 (d)). -/
theorem blend_self (p : Byte) {f : Weight} (hd : 0 < f.den) (h : f.num ≤ f.den) : blend p p f = p := by
  apply BitVec.eq_of_toNat_eq
  have hsum : p.toNat * (f.den - f.num) + p.toNat * f.num = p.toNat * f.den := by
    rw [← Nat.mul_add, Nat.sub_add_cancel h]
  have hexpr : 2 * (p.toNat * f.den) + f.den = f.den + 2 * f.den * p.toNat := by ring
  rw [blend_toNat p p hd h, hsum, hexpr, Nat.add_mul_div_left _ _ (by omega), Nat.div_eq_of_lt (by omega), Nat.zero_add]

/-- Interpolating between points of one alpha yields that alpha, whatever the value. -/
theorem interpolateOver_alpha {entry : Nat → Color} {steps : Nat} {alpha : Byte} (hs : 0 < steps)
    (hentry : ∀ k, k ≤ steps → (entry k).a = alpha) {v : Ratio} (hv : 0 < v.den) :
    (interpolateOver entry steps v).a = alpha := by
  have hcell : cellIndex steps (clamp01 v) < steps := cellIndex_lt hs
  have hweight := cellWeight_le (v := clamp01 v) hs hv (clamp01_le v)
  simp only [interpolateOver, mix, hentry _ hcell.le, hentry _ hcell]
  exact blend_self alpha hv hweight

theorem interpolate_alpha {p : Palette} {alpha : Byte} (hp : ∀ i, i < p.size → (p.entry i).a = alpha) {v : Ratio}
    (hv : 0 < v.den) : (interpolate p v).a = alpha :=
  interpolateOver_alpha (by simp [Palette.size]) (fun k hk => hp k (by simp only [Palette.size] at hk ⊢; omega)) hv

/-- Every lookup of a table of one alpha yields that alpha. -/
theorem getValue_alpha {g : Nat → Color} {alpha : Byte} (hg : ∀ k, (g k).a = alpha) {v : Ratio} (hv : 0 < v.den) :
    (getValue (buildTable g) v).a = alpha :=
  interpolateOver_alpha (by decide)
    (fun k hk => by rw [tableEntry_buildTable g (by simp only [tableSize] at hk ⊢; omega), hg]) hv

theorem samplePoint_den_pos (k : Nat) : 0 < (samplePoint k).den := by simp [samplePoint, tableSize]

theorem gammaPoint_den_pos (k : Nat) : 0 < (gammaPoint k).den := by simp [gammaPoint, tableSize]

/-- The sentinel is distinct where one alpha is the whole palette's and another the sentinel's. -/
theorem sentinelDistinct_of_alpha {cfg : Config} {alpha : Byte}
    (hp : ∀ i, i < cfg.palette.size → (cfg.palette.entry i).a = alpha) (hne : cfg.invalidColor.a ≠ alpha) :
    SentinelDistinct cfg := by
  intro v hv
  have hdepth := getValue_alpha (fun k => interpolate_alpha hp (samplePoint_den_pos k)) hv
  have hir := getValue_alpha (fun k => interpolate_alpha hp (gammaPoint_den_pos k)) hv
  exact ⟨fun h => hne (h ▸ hdepth), fun h => hne (h ▸ hir)⟩

/-! ### The memory image of a Color -/

theorem toNat_append_eq_add {m n : Nat} (x : BitVec m) (y : BitVec n) :
    (x ++ y).toNat = x.toNat * 2 ^ n + y.toNat := by
  rw [BitVec.toNat_append, ← Nat.shiftLeft_add_eq_or_of_lt y.isLt, Nat.shiftLeft_eq]

theorem pack_toNat (c : Color) :
    c.pack.toNat = c.a.toNat * 2 ^ 24 + c.r.toNat * 2 ^ 16 + c.g.toNat * 2 ^ 8 + c.b.toNat := by
  rw [Color.pack, toNat_append_eq_add, toNat_append_eq_add, toNat_append_eq_add]
  ring

theorem toNat_extractByte (w : Word) (k : Nat) : (w.extractLsb' k 8).toNat = w.toNat / 2 ^ k % 256 := by
  rw [BitVec.extractLsb'_toNat, Nat.shiftRight_eq_div_pow]

theorem unpack_pack (c : Color) : Color.unpack c.pack = c := by
  have hpack := pack_toNat c
  have hr := c.r.isLt
  have hg := c.g.isLt
  have hb := c.b.isLt
  have hbyte : ∀ (k : Nat) (b : Byte), c.pack.toNat / 2 ^ k % 256 = b.toNat → c.pack.extractLsb' k 8 = b :=
    fun k b h => BitVec.eq_of_toNat_eq ((toNat_extractByte _ k).trans h)
  rw [Color.unpack, hbyte 24 c.a (by omega), hbyte 16 c.r (by omega), hbyte 8 c.g (by omega), hbyte 0 c.b (by omega)]

theorem pack_unpack (w : Word) : (Color.unpack w).pack = w := by
  apply BitVec.eq_of_toNat_eq
  have hw := w.isLt
  rw [pack_toNat]
  simp only [Color.unpack, toNat_extractByte]
  omega

/-- Byte `i` of a stored word, as a byte. -/
theorem get_writeLE_eq {m : Memory} {a n v i : Nat} {b : Byte} (hi : i < n) (hb : v / 256 ^ i % 256 = b.toNat) :
    Memory.get (writeLE m a n v) (a + i) = b :=
  BitVec.eq_of_toNat_eq ((get_writeLE_inside hi).trans hb)

/-! ### The command of a busy engine, and where a host byte access stops -/

/-- While BUSY the engine's command is the descriptor's, the latched operation being the descriptor's (R37, R109). -/
theorem command_of_latched {s : State} (hb : s.busy = true) (hl : LatchedOp s) : s.command = s.desc.command := by
  rw [State.command, hl hb, Descriptor.command]

theorem range_has_iff {r : Range} {a : Nat} : r.has a = true ↔ r.base ≤ a ∧ a < r.base + r.len := by
  simp [Range.has]

/-- A byte of the mapped register file is barred as no register access (U8). -/
theorem hostAccessBar_registerFile {cfg : Config} {base a : Nat} (hbase : cfg.regBase = some base) (hlo : base ≤ a)
    (hhi : a < base + 256) : hostAccessBar cfg a = some (.notARegisterAccess .notWord) := by
  have hin : (Range.mk base registerFileBytes).has a = true := range_has_iff.2 ⟨hlo, hhi⟩
  simp [hostAccessBar, hbase, hin]

/-- A byte of a device off the register file is barred as a device access (U3). -/
theorem hostAccessBar_device {cfg : Config} {a : Nat}
    (hoff : ∀ base, cfg.regBase = some base → a < base ∨ base + 256 ≤ a)
    (hdev : ∃ r ∈ cfg.devices, r.base ≤ a ∧ a < r.base + r.len) : hostAccessBar cfg a = some .deviceAccess := by
  have hfile : (cfg.regBase.any fun base => (Range.mk base registerFileBytes).has a) = false := by
    cases hbase : cfg.regBase with
    | none => rfl
    | some base =>
      have hout := hoff base hbase
      rw [Option.any_some, Bool.eq_false_iff, Ne, range_has_iff]
      simp only [registerFileBytes]
      omega
  have hany : (cfg.devices.any fun r => r.has a) = true := by
    obtain ⟨r, hr, hin⟩ := hdev
    exact List.any_eq_true.2 ⟨r, hr, range_has_iff.2 hin⟩
  simp only [hostAccessBar, hfile, hany, Bool.false_eq_true, if_false, if_true]

theorem hostStore_barred {a : Nat} {s : State} {why : Refusal} (h : hostAccessBar s.cfg a = some why) (v : Byte) :
    hostStore a v s = .refused why := by
  simp [hostStore, h]

theorem hostLoad_barred {a : Nat} {s : State} {why : Refusal} (h : hostAccessBar s.cfg a = some why) :
    hostLoad a s = .refused why := by
  simp [hostLoad, h]

/-! ### The statements -/

/-- Settles O33: the engine's turn by `legal_exec`, the host's by the action it takes. -/
theorem stepKeepsLegal : Obligations.StepKeepsLegal := by
  intro s t hs h
  obtain ⟨-, -, rfl⟩ | ⟨-, -, hx⟩ | ⟨-, -, rfl⟩ | ⟨e, rest, -, -, hact⟩ := step_next h
  · exact legal_popSchedule hs
  · exact legal_exec (legal_popSchedule hs) hx
  · exact legal_popSchedule hs
  · have hp := legal_afterPop rest hs
    obtain ⟨i, -, hx⟩ | ⟨a, v, -, hx⟩ | ⟨a, -, hx⟩ | ⟨-, hx⟩ := hact
    · exact legal_exec hp hx
    · obtain ⟨ha, rfl⟩ := hostStore_next hx
      exact legal_withMem hp (wf_set ha hp.memory)
    · rw [hostLoad_next hx]
      exact ⟨hp.memory, hp.reserved, hp.status, hp.latched, hp.tables, hp.log⟩
    · obtain rfl | rfl := applyReset_next hx
      · exact legal_resetCrr hp.memory
      · exact legal_resetCrr (legal_spoilOutput _ hp).memory

/-- Settles O36: the step leaves the tables alone, or is the engine's and ensures one. -/
theorem readyTablesNeverChange : Obligations.ReadyTablesNeverChange := by
  intro s t h hreset
  obtain hsame | ⟨hg, hsame⟩ := step_tables h hreset <;>
    rw [hsame.dlutReady, hsame.dlut, hsame.ilutReady, hsame.ilut]
  · simp +contextual
  · obtain ⟨hd, hi, hdb, hib⟩ := tableEnsured_tables s.command (popSchedule s)
    exact ⟨hd, hi, fun h0 h1 => ⟨hg, hdb h0 h1⟩, fun h0 h1 => ⟨hg, hib h0 h1⟩⟩

/-- Settles O5: the locations are `Reg.offset`, where an access decodes to its register operation. -/
theorem registerMap : Obligations.RegisterMap := by
  refine ⟨fun p hp v => ?_, fun n v => ⟨Laws.decodeBus_writeAccess (.reserved n) v, Laws.decodeBus_readAccess (.reserved n)⟩,
    fun x => decodeBus_ok_iff⟩
  have hoffset : p.1 = p.2.offset := by
    revert p
    decide
  rw [hoffset]
  exact ⟨Laws.decodeBus_writeAccess p.2 v, Laws.decodeBus_readAccess p.2⟩

/-- Settles O14: the written register by `readReg_writeDesc_self`, every other by `readReg_writeDesc_of_ne`. -/
theorem writeThenRead : Obligations.WriteThenRead := by
  intro p hp v s hb
  have hdesc : ∀ p ∈ descriptorRegisters, p.1 ≠ .ctrl ∧ p.1 ≠ .status := by decide
  obtain ⟨hctrl, hstatus⟩ := hdesc p hp
  have hexec : exec (.wr p.1 v) s = .next { s with desc := writeDesc p.1 v s.desc } :=
    congrArg Host.Outcome.next (writeReg_idle hctrl hstatus v hb)
  exact ⟨_, hexec, readReg_writeDesc_self hp v s, fun r hr => readReg_writeDesc_of_ne hr v s⟩

/-- Settles O38, by `exec_next`: an UNSUPPORTED end and a FAULT record what R139 says, every other end leaves the log. -/
theorem logWrittenByLoggedEndsOnly : Obligations.LogWrittenByLoggedEndsOnly := by
  intro i s t h
  rcases exec_next h with
    ⟨op, w, hh, b, m, hi, -, -, rfl⟩ | ⟨op, w, hh, b, a, hi, -, -, rfl⟩ | ⟨rfl, rfl⟩ | ⟨hn, rfl⟩ | ⟨r, v, hi, rfl⟩ |
    ⟨hno, hn, v, q, rfl⟩
  · have hsome : (transferOf i).isSome = true := by simp [hi]
    exact .inr (.inr ⟨not_mem_noneRows_of_transferOf hsome, fun _ => rfl, tableEnsured_log i s⟩)
  · refine .inr (.inl ⟨by simp [hi], rfl, a, ?_⟩)
    simp only [raiseFault_log, spoilOutput_log, tableEnsured_log]
    rfl
  · exact .inr (.inr ⟨by decide, nofun, rfl⟩)
  · exact .inl ⟨hn, rfl, rfl⟩
  · refine .inr (.inr ?_)
    obtain rfl | ⟨rfl, rfl, rfl⟩ := hi <;> exact ⟨by simp [noneRows], nofun, writeReg_log _ _ s⟩
  · exact .inr (.inr ⟨hn, by simp [hno], rfl⟩)

/-- Settles O42: the parameters are those of the platform, which `step_env` keeps. -/
theorem configurationIsConstant : Obligations.ConfigurationIsConstant := by
  intro s t h
  obtain ⟨henv, hstart⟩ := step_env h
  simp only [cfg_palette, cfg_invalidColor, cfg_devices, cfg_regBase, henv, true_and]
  exact hstart.imp_left fun hsame => ⟨hsame, cfg_eq_of_env henv hsame⟩

/-- Settles O55: alpha is kept by every blend of R80 (d), so it tells the sentinel apart. -/
theorem sentinelIsDistinct : Obligations.SentinelIsDistinct :=
  ⟨fun _ _ hp hne => sentinelDistinct_of_alpha hp hne,
    sentinelDistinct_of_alpha (alpha := 0xFF) (by decide) (by decide)⟩

/-- Settles O57: the word is the four channels put together, and its little-endian bytes are the channels again. -/
theorem colorImage : Obligations.ColorImage := by
  refine ⟨fun c => ⟨pack_toNat c, unpack_pack c⟩, pack_unpack, fun cfg m a c hok => ?_⟩
  have hpack := pack_toNat c
  have hr := c.r.isLt
  have hg := c.g.isLt
  have hb := c.b.isLt
  refine ⟨writeLE m a 4 c.pack.toNat, memWrite_ok_iff.2 ⟨hok, rfl⟩, ?b, ?g, ?r, ?a, fun x hx => get_writeLE_outside hx⟩
  case b => exact get_writeLE_eq (i := 0) (by omega) (by omega)
  case g => exact get_writeLE_eq (by omega) (by omega)
  case r => exact get_writeLE_eq (by omega) (by omega)
  case a => exact get_writeLE_eq (by omega) (by omega)

/-- Settles O1: the model decodes the ten words by evaluation. -/
theorem tableWordsDecode : Obligations.TableWordsDecode := by
  unfold Obligations.TableWordsDecode
  decide

/-- Settles O6: the engine's turn runs the latched command, which is the descriptor's. -/
theorem stepRunsLatchedCommand : Obligations.StepRunsLatchedCommand := by
  intro s hb hg hl
  rw [step_of_nextTurn_run (nextTurn_engine_busy hg hb), command_of_latched hb hl]
  rfl

/-- Settles O59: the access is barred, as the register file's or as a device's. -/
theorem hostAccessStops : Obligations.HostAccessStops := by
  refine fun a v s => ⟨?_, fun hoff hdev => ?_⟩
  · rintro ⟨base, hbase, hlo, hhi⟩
    have hbar := hostAccessBar_registerFile hbase hlo hhi
    exact ⟨hostStore_barred hbar v, hostLoad_barred hbar⟩
  · have hbar := hostAccessBar_device hoff hdev
    exact ⟨hostStore_barred hbar v, hostLoad_barred hbar⟩

end Sys2Proof.Machine
end

section
/-! SUPPORT. The family Memory: what is the engine's while BUSY (R57, R108, R123, R158), and that an image is a function of the
input footprint (R49, R50, R93, R104, R127). -/

namespace Sys2Proof.Machine

/-! ### What the command of a busy engine is, and that it ends the conversion -/

/-- The engine's command transfers, is NULL, or is a row of NONE (R66, R67); it is no operation of the host's. -/
theorem commandOf_cases (op : Op) (d : Descriptor) :
    (transferOf (commandOf op d)).isSome = true ∨ commandOf op d = .null ∨ commandOf op d ∈ noneRows := by
  cases op with
  | null => exact .inr (.inl rfl)
  | none => exact .inr (.inr (noneCell_mem_noneRows _ _))
  | _ => exact .inl rfl

/-- A transfer that answers a next state has ended, in OK or in FAULT (R118, R136). -/
theorem ended_of_transfer_next {i : Instr} {s t : State} (hi : (transferOf i).isSome = true) (h : exec i s = .next t) :
    Ended s.desc t := by
  obtain ⟨⟨op, w, hh, b⟩, hi⟩ := Option.isSome_iff_exists.1 hi
  rw [exec_transfer hi, endTransfer_next] at h
  obtain ⟨-, ⟨m, -, rfl⟩ | ⟨a, -, rfl⟩⟩ := h
  · simpa using ended_completeOk { tableEnsured i s with mem := m }
  · simpa using ended_raiseCause (.fault a) (spoilOutput (outputFootprint op w hh b) (tableEnsured i s))

/-- Whatever the latched operation, a next state of the engine's command is the end of the conversion (R123). -/
theorem ended_of_command_next {op : Op} {d : Descriptor} {s t : State} (h : exec (commandOf op d) s = .next t) :
    Ended s.desc t := by
  obtain hi | hi | hi := commandOf_cases op d
  · exact ended_of_transfer_next hi h
  · rw [hi] at h
    cases h
    exact ended_raiseCause .null s
  · rw [exec_of_mem_noneRows hi] at h
    cases h
    exact ended_raiseCause .unsupported s

/-! ### What the host's turn leaves of a running conversion -/

/-- From `s` to `t` the running conversion goes on: BUSY, the latched operation, the descriptor, and every byte of the two
footprints are as they were (R57, R123, R158). -/
structure GoesOn (s t : State) : Prop where
  busy  : t.busy = s.busy
  op    : t.op = s.op
  desc  : t.desc = s.desc
  bytes : ∀ a, s.inFootprint.has a = true ∨ s.outFootprint.has a = true → Memory.get t.mem a = Memory.get s.mem a

theorem writeReg_mem (r : Reg) (v : Word) (s : State) : (writeReg r v s).mem = s.mem := by
  obtain h | h | h | h | ⟨-, h⟩ := writeReg_cases r v s <;> rw [h] <;> rfl

/-- The instructions the host runs write no memory (R105, R106). -/
theorem exec_hostAction_mem {e : HostEvent} {i : Instr} {s t : State} (hi : hostAction e s = .run i s)
    (h : exec i s = .next t) : t.mem = s.mem := by
  obtain ⟨r, v, rfl⟩ | ⟨r, rfl⟩ | ⟨k, f, w, hh, b, p, a, rfl⟩ | rfl | rfl := hostAction_run hi <;> cases h
  · exact writeReg_mem r v s
  · rfl
  · rfl
  · rfl
  · exact writeReg_mem .status ackWord s

theorem goesOn_hostAction {e : HostEvent} {i : Instr} {s t : State} (hb : s.busy = true)
    (hi : hostAction e s = .run i s) (h : exec i s = .next t) : GoesOn s t := by
  obtain ⟨u, hu, hkeep⟩ := exec_hostOperation_busy hb (hostAction_run hi)
  obtain rfl : u = t := Host.Outcome.next.inj (hu.symm.trans h)
  exact ⟨hkeep.busy, hkeep.op, hkeep.desc, fun a _ => by rw [exec_hostAction_mem hi h]⟩

/-- While BUSY the host writes a byte of neither footprint: the model refuses it (R57, R159, U5). -/
theorem hostStore_off_footprints {a : Nat} {v : Byte} {s t : State} (hb : s.busy = true) (h : hostStore a v s = .next t) :
    ¬ (s.inFootprint.has a = true ∨ s.outFootprint.has a = true) := by
  unfold hostStore at h
  split at h
  · cases h
  · split_ifs at h with _ hown
    simpa [hb] using hown

theorem goesOn_hostStore {a : Nat} {v : Byte} {s t : State} (hb : s.busy = true) (h : hostStore a v s = .next t) :
    GoesOn s t := by
  have hoff := hostStore_off_footprints hb h
  obtain ⟨-, rfl⟩ := hostStore_next h
  exact ⟨rfl, rfl, rfl, fun x hx => get_set_of_ne _ _ _ fun hxa => hoff (hxa ▸ hx)⟩

/-- A step from a BUSY state that is no reset is the host's and the conversion goes on, or the engine's and it has ended. -/
theorem step_busy {s t : State} (hb : s.busy = true) (h : step s = .next t)
    (hreset : ¬ ∃ rest, nextAgent s = .host ∧ s.hostQueue = .reset :: rest) :
    (nextAgent s = .host ∧ GoesOn s t) ∨ (nextAgent s = .engine ∧ Ended s.desc t) := by
  obtain ⟨-, hidle, -⟩ | ⟨hg, -, hx⟩ | ⟨hg, -, rfl⟩ | ⟨e, rest, hg, hq, hact⟩ := step_next h
  · exact absurd hb (ne_true_of_eq_false hidle)
  · exact .inr ⟨hg, ended_of_command_next (s := popSchedule s) hx⟩
  · exact .inl ⟨hg, rfl, rfl, rfl, fun _ _ => rfl⟩
  · have hpop : GoesOn (afterPop s rest) t → GoesOn s t := fun k => ⟨k.busy, k.op, k.desc, k.bytes⟩
    refine .inl ⟨hg, hpop ?_⟩
    obtain ⟨i, hi, hx⟩ | ⟨a, v, -, hx⟩ | ⟨a, -, hx⟩ | ⟨rfl, -⟩ := hact
    · exact goesOn_hostAction hb hi hx
    · exact goesOn_hostStore hb hx
    · rw [hostLoad_next hx]
      exact ⟨rfl, rfl, rfl, fun _ _ => rfl⟩
    · exact absurd ⟨rest, hg, hq⟩ hreset

/-- While BUSY no step changes the parameters of the conversion (R47, U14). -/
theorem step_busy_cfg {s t : State} (hb : s.busy = true) (h : step s = .next t) : t.cfg = s.cfg := by
  obtain ⟨henv, hstarted | ⟨hidle, -⟩⟩ := step_env h
  · exact cfg_eq_of_env henv hstarted
  · exact absurd hb (ne_true_of_eq_false hidle)

/-! ### The footprints of a transfer, pixel by pixel -/

/-- Every byte of a sample is in the input footprint of a row-driven operation (R48). -/
theorem inputFootprint_has_sample {op : Op} (hop : op ≠ .null ∧ op ≠ .none) (hnd : op ≠ .dsrot) (b : Buffers)
    {w h r x i : Nat} (hr : r < h) (hx : x < w) (hi : i < op.ibpp) :
    (inputFootprint op w h b).has (b.inBase.toNat + r * b.inStride.toNat + x * op.ibpp + i) = true := by
  have hin : inputFootprint op w h b =
      { base := b.inBase.toNat, stride := b.inStride.toNat, rows := h, span := w * op.ibpp, step := 1 } := by
    cases op <;> simp_all [inputFootprint]
  have hspan : (x + 1) * op.ibpp ≤ w * op.ibpp := Nat.mul_le_mul_right _ hx
  rw [Nat.succ_mul] at hspan
  rw [hin]
  exact has_iff.2 ⟨r, x * op.ibpp + i, hr, Nat.lt_of_lt_of_le (by omega) hspan, Nat.mod_one _, Nat.add_assoc ..⟩

/-- Every byte of the output footprint of a row-driven operation is one of a pixel (R48). -/
theorem pixel_of_outputFootprint_has {op : Op} (hop : op ≠ .null ∧ op ≠ .none) (hnd : op ≠ .dsrot) {b : Buffers}
    {w h a : Nat} (ha : (outputFootprint op w h b).has a = true) :
    ∃ r x i, r < h ∧ x < w ∧ i < 4 ∧ a = b.outBase.toNat + r * b.outStride.toNat + 4 * x + i := by
  have hout : outputFootprint op w h b =
      { base := b.outBase.toNat, stride := b.outStride.toNat, rows := h, span := 4 * w, step := 1 } := by
    cases op <;> simp_all [outputFootprint]
  rw [hout] at ha
  obtain ⟨r, j, hr, hj, -, rfl⟩ := has_iff.1 ha
  have hj' : j < 4 * w := hj
  exact ⟨r, j / 4, j % 4, hr, by omega, by omega, by simp only [Footprint.addr]; omega⟩

/-- The first byte of every pixel is in the input footprint of `DSROT` (R127). -/
theorem inputFootprint_has_tap (b : Buffers) {x y : Nat} (hx : x < dsW) (hy : y < dsH) :
    (inputFootprint .dsrot dsW dsH b).has (tapAddr b x y) = true :=
  has_iff.2 ⟨y, 4 * x, hy, Nat.mul_lt_mul_of_pos_left hx (by decide), Nat.mul_mod_right 4 x, rfl⟩

/-- Every byte of the output footprint of `DSROT` is one of a pixel (R125, R129). -/
theorem downPixel_of_outputFootprint_has {b : Buffers} {a : Nat} (ha : (outputFootprint .dsrot dsW dsH b).has a = true) :
    ∃ yb xb i, yb < dsH / 2 ∧ xb < dsW / 2 ∧ i < 4 ∧ a = downPixelAddr b xb (dsH / 2 - 1 - yb) + i := by
  obtain ⟨q, j, hq, hj, -, rfl⟩ := has_iff.1 ha
  have hq' : q < dsH / 2 := hq
  have hj' : j < 4 * (dsW / 2) := hj
  refine ⟨dsH / 2 - 1 - q, j / 4, j % 4, by omega, by omega, by omega, ?_⟩
  rw [show dsH / 2 - 1 - (dsH / 2 - 1 - q) = q by omega]
  simp only [Footprint.addr, outputFootprint, downPixelAddr]
  omega

/-- Duties kept, no first byte of an input pixel of `DSROT` lies in an output row (R160). -/
theorem tapAddr_ne_downPixelAddr {cfg : Config} {b : Buffers}
    (hduty : HostDuties cfg (inputFootprint .dsrot dsW dsH b) (outputFootprint .dsrot dsW dsH b)) {x y q j : Nat}
    (hx : x < dsW) (hy : y < dsH) (hq : q < dsH / 2) (hj : j < 4 * (dsW / 2)) :
    tapAddr b x y ≠ downPixelAddr b 0 q + j := by
  obtain ⟨-, -, hdisj, -⟩ := hduty
  exact fun heq => hdisj _ ⟨inputFootprint_has_tap b hx hy, has_iff.2 ⟨q, j, hq, hj, Nat.mod_one j, heq⟩⟩

/-- The pixels a completed `DSROT` leaves (R126 to R129). -/
theorem downsampleRotate_pixels {cfg cfg' : Config} {b : Buffers} {m m' : Memory}
    (hduty : HostDuties cfg' (inputFootprint .dsrot dsW dsH b) (outputFootprint .dsrot dsW dsH b))
    (hrun : downsampleRotate cfg b m = .ok m') {yb xb : Nat} (hy : yb < dsH / 2) (hx : xb < dsW / 2) :
    readLE m' (downPixelAddr b xb (dsH / 2 - 1 - yb)) 4 = (greyOf (tapSum b m xb yb)).pack.toNat := by
  have hdisj := fun x y q j => tapAddr_ne_downPixelAddr hduty (x := x) (y := y) (q := q) (j := j)
  obtain ⟨-, hstride, -⟩ := hduty
  exact (downsampleRotate_ok (hstride (show 1 < dsH / 2 by decide)) hdisj hrun).1 yb xb hy hx

/-! ### The image as a function of the input footprint -/

/-- The ensured tables are the built ones, so two runs in one configuration compute pixels alike (R86, R110). -/
theorem pixelOf_tableEnsured_congr (i : Instr) {s s' : State} (hcfg : s.cfg = s'.cfg) (hs : TablesBuilt s)
    (hs' : TablesBuilt s') : pixelOf i (tableEnsured i s) = pixelOf i (tableEnsured i s') := by
  have hdlut : ∀ u : State, TablesBuilt u → (ensureDlut u).dlut = buildTable (genDepth u.cfg.palette) := fun u hu => by
    rw [ensureDlut_dlut]
    split
    · exact hu.1 ‹_›
    · rfl
  have hilut : ∀ u : State, TablesBuilt u → (ensureIlut u).ilut = buildTable (genIr u.cfg.palette) := fun u hu => by
    rw [ensureIlut_ilut]
    split
    · exact hu.2 ‹_›
    · rfl
  cases i with
  | depth16 => simp only [pixelOf, tableEnsured, ensureDlut_cfg, hdlut s hs, hdlut s' hs', hcfg]
  | ir16 => simp only [pixelOf, tableEnsured, ensureIlut_cfg, hilut s hs, hilut s' hs', hcfg]
  | ir8 => simp only [pixelOf, tableEnsured, ensureIlut_cfg, hilut s hs, hilut s' hs', hcfg]
  | _ => rfl

/-- Equal little-endian values have equal bytes. -/
theorem get_eq_of_readLE_eq {m m' : Memory} {a n i : Nat} (hi : i < n) (h : readLE m a n = readLE m' a n) :
    Memory.get m (a + i) = Memory.get m' (a + i) :=
  BitVec.eq_of_toNat_eq (by rw [get_eq_readLE_div m hi, get_eq_readLE_div m' hi, h])

theorem tapSum_congr {b : Buffers} {m m' : Memory}
    (hagree : ∀ a, (inputFootprint .dsrot dsW dsH b).has a = true → Memory.get m a = Memory.get m' a) {xb yb : Nat}
    (hx : xb < dsW / 2) (hy : yb < dsH / 2) : tapSum b m xb yb = tapSum b m' xb yb := by
  have htap : ∀ x y, x < dsW → y < dsH → Memory.get m (tapAddr b x y) = Memory.get m' (tapAddr b x y) :=
    fun x y hx hy => hagree _ (inputFootprint_has_tap b hx hy)
  simp only [dsW, dsH] at hx hy htap
  simp only [tapSum]
  rw [htap _ _ (by omega) (by omega), htap _ _ (by omega) (by omega), htap _ _ (by omega) (by omega),
    htap _ _ (by omega) (by omega)]

/-- Two completed transfers with one pixel function, from memories that agree on the input footprint, leave equal images. -/
theorem moveOf_image_congr {i : Instr} {op : Op} {w h : Nat} {b : Buffers} {s s' : State} {m m' : Memory} {cfg : Config}
    (hi : transferOf i = some (op, w, h, b)) (hduty : HostDuties cfg (inputFootprint op w h b) (outputFootprint op w h b))
    (hpix : pixelOf i s = pixelOf i s')
    (hagree : ∀ a, (inputFootprint op w h b).has a = true → Memory.get s.mem a = Memory.get s'.mem a)
    (hm : moveOf i op w h b s = .ok m) (hm' : moveOf i op w h b s' = .ok m') {a : Nat}
    (ha : (outputFootprint op w h b).has a = true) : Memory.get m a = Memory.get m' a := by
  have hop := transferOf_op hi
  by_cases hd : op = .dsrot
  · subst hd
    obtain ⟨rfl, rfl⟩ := transferOf_dsrot hi
    obtain ⟨yb, xb, k, hy, hx, hk, rfl⟩ := downPixel_of_outputFootprint_has ha
    refine get_eq_of_readLE_eq hk ?_
    rw [moveOf, if_pos rfl] at hm hm'
    rw [downsampleRotate_pixels hduty hm hy hx, downsampleRotate_pixels hduty hm' hy hx, tapSum_congr hagree hx hy]
  · obtain ⟨r, x, k, hr, hx, hk, rfl⟩ := pixel_of_outputFootprint_has hop hd ha
    refine get_eq_of_readLE_eq hk ?_
    rw [moveOf_pixels hop hd hduty hm hr hx, moveOf_pixels hop hd hduty hm' hr hx, hpix,
      readLE_congr fun j hj => hagree _ (inputFootprint_has_sample hop hd b hr hx hj)]

/-- A transfer that ends OK has moved every pixel, its host's duties kept and no access of it failing (R118). -/
theorem transfer_ok {i : Instr} {op : Op} {w h : Nat} {b : Buffers} {s t : State} (hi : transferOf i = some (op, w, h, b))
    (hx : exec i s = .next t) (hok : t.result = .ok) :
    HostDuties s.cfg (inputFootprint op w h b) (outputFootprint op w h b) ∧ firstFailing s.cfg op w h b = none ∧
      moveOf i op w h b (tableEnsured i s) = .ok t.mem := by
  rw [exec_transfer hi, endTransfer_next, tableEnsured_cfg] at hx
  obtain ⟨hduty, ⟨m, hm, rfl⟩ | ⟨a, -, rfl⟩⟩ := hx
  · refine ⟨hduty, ?_, hm⟩
    cases hf : firstFailing s.cfg op w h b with
    | none => rfl
    | some a =>
      have herr := (follows_moveOf i op w h b (tableEnsured i s) (transferOf_op hi)).1 a (by rw [tableEnsured_cfg, hf])
      cases hm.symm.trans herr
  · cases hok

/-! ### The statements -/

/-- Settles O34: whose turn it was tells the two cases apart, and the parameters stay either way. -/
theorem busyUntilTheEngineEnds : Obligations.BusyUntilTheEngineEnds := by
  intro s t hb h hreset
  have hcfg := step_busy_cfg hb h
  obtain ⟨hg, hon⟩ | ⟨hg, hend⟩ := step_busy hb h hreset
  · exact ⟨hon.desc, hcfg, .inl ⟨hon.busy.trans hb, hon.op, hg, hon.bytes⟩⟩
  · exact ⟨hend.desc, hcfg, .inr ⟨hend.busy, hend.done, hend.result, hg⟩⟩

/-- Settles O40: whether an access fails is the configuration's matter, and each pixel is computed from the input footprint. -/
theorem imageDependsOnInputFootprintOnly : Obligations.ImageDependsOnInputFootprintOnly := by
  intro i op w h b s s' t t' hi hcfg htab htab' hagree hx hx' hok
  obtain ⟨hduty, hnofail, hm⟩ := transfer_ok hi hx hok
  have hok' : t'.result = .ok := by
    obtain ⟨m', -, hdone⟩ := exec_complete hi (hcfg ▸ hduty) (hcfg ▸ hnofail)
    cases hx'.symm.trans hdone
    rfl
  obtain ⟨-, -, hm'⟩ := transfer_ok hi hx' hok'
  exact ⟨hok', fun a ha =>
    moveOf_image_congr hi hduty (pixelOf_tableEnsured_congr i hcfg htab htab') (by simpa using hagree) hm hm' ha⟩

end Sys2Proof.Machine
end

section
/-! SUPPORT. The family Encoding: dispatch by the opcode word (R60, R66, R67), the round trip of decode and encode (R69, R72 to
R75), a placed command, and the register writes of `CVT` run from an idle CRR (R73, R105, R107). -/

namespace Sys2Proof.Machine

/-! ### Dispatch by the implemented bits of `DESC0` (R24, R60, R66) -/

theorem presentOf_and {m : Word} (hm : presentOf m = true) (d : Word) : presentOf (d &&& m) = presentOf d := by
  simp only [presentOf] at hm
  simp [presentOf, hm]

/-- The kind is read through any mask that covers its bits. -/
theorem kindOf_and {m : Word} (hm : m.extractLsb' 2 2 = BitVec.allOnes 2) (d : Word) : kindOf (d &&& m) = kindOf d := by
  rw [kindOf, BitVec.extractLsb'_and, hm, BitVec.and_allOnes, kindOf]

/-- The format is read through any mask that covers its bits. -/
theorem fmtOf_and {m : Word} (hm : m.extractLsb' 4 2 = BitVec.allOnes 2) (d : Word) : fmtOf (d &&& m) = fmtOf d := by
  rw [fmtOf, BitVec.extractLsb'_and, hm, BitVec.and_allOnes, fmtOf]

/-- The reserved bits have no say in the dispatch (R60, R66). -/
theorem decodeOp_and_desc0Mask (d : Word) (w h : BitVec 16) : decodeOp (d &&& desc0Mask) w h = decodeOp d w h := by
  simp only [decodeOp, presentOf_and (m := desc0Mask) (by decide), kindOf_and (m := desc0Mask) (by decide),
    fmtOf_and (m := desc0Mask) (by decide)]

/-- Opcode words with the same implemented bits dispatch alike. -/
theorem decodeOp_of_and_desc0Mask {d v : Word} (hd : d &&& 0x3D#32 = v) (w h : BitVec 16) :
    decodeOp d w h = decodeOp v w h := by
  rw [← hd]
  exact (decodeOp_and_desc0Mask d w h).symm

theorem decodeOp_absent {d : Word} (hd : presentOf d = false) (w h : BitVec 16) : decodeOp d w h = .null := if_pos hd

/-- The four cells of R67 that convert. -/
def convertingCells : List (Kind × Fmt) :=
  [(.color, .bgra8), (.depth, .gray16), (.infrared, .gray8), (.infrared, .gray16)]

/-- Every other cell of R67 is a row of NONE, whatever the size. -/
theorem decodeOp_eq_none {d : Word} (hp : presentOf d = true) (hcell : (kindOf d, fmtOf d) ∉ convertingCells)
    (w h : BitVec 16) : decodeOp d w h = .none := by
  simp only [convertingCells, List.mem_cons, List.not_mem_nil, Prod.mk.injEq, not_or, or_false] at hcell
  obtain ⟨hcolor, hdepth, hir8, hir16⟩ := hcell
  have hsized : ¬ (kindOf d = .color ∧ fmtOf d = .bgra8 ∧ w.toNat = dsW ∧ h.toNat = dsH) :=
    fun ⟨hkind, hfmt, _⟩ => hcolor ⟨hkind, hfmt⟩
  rw [decodeOp, if_neg (ne_false_of_eq_true hp), if_neg hsized, if_neg hcolor, if_neg hdepth, if_neg hir8, if_neg hir16]

/-- The downsample size is never dispatched to COPY (R66, R68). -/
theorem size_of_decodeOp_copy {d : Word} {w h : BitVec 16} (hop : decodeOp d w h = .copy) :
    ¬ (w.toNat = dsW ∧ h.toNat = dsH) := by
  rintro ⟨hw, hh⟩
  simp only [decodeOp, hw, hh, and_true] at hop
  split_ifs at hop

/-! ### What a command's bytes denote -/

theorem wf_of_mem_noneRows {i : Instr} (hi : i ∈ noneRows) : i.WellFormed := by
  revert i
  decide

/-- Every descriptor denotes a well-formed command (R69). -/
theorem wf_command (d : Descriptor) : d.command.WellFormed := by
  rw [Descriptor.command]
  cases hop : decodeOp d.desc0 d.width d.height with
  | copy => simpa [commandOf, Instr.WellFormed, Instr.wf, imp_iff_not_or] using size_of_decodeOp_copy hop
  | none => exact wf_of_mem_noneRows (noneCell_mem_noneRows _ _)
  | _ => rfl

theorem expansion_of_mem_noneRows {i : Instr} (hi : i ∈ noneRows) : expansion i = none := by
  revert i
  decide

theorem expansion_of_transferOf {i : Instr} (hi : (transferOf i).isSome = true) : expansion i = none := by
  cases i with
  | cvt | wait | ack => cases hi
  | _ => rfl

/-- No descriptor denotes a pseudo-instruction (R75). -/
theorem expansion_command (d : Descriptor) : expansion d.command = none := by
  obtain hi | hi | hi := commandOf_cases (decodeOp d.desc0 d.width d.height) d
  · exact expansion_of_transferOf hi
  · rw [Descriptor.command, hi]
    rfl
  · exact expansion_of_mem_noneRows hi

theorem decode_of_length_ge {bs : List Byte} (h : commandBytes ≤ bs.length) :
    decode bs = .ok (Descriptor.ofBytes bs).command :=
  if_neg (Nat.not_lt.2 h)

theorem decode_of_length_lt {bs : List Byte} (h : bs.length < commandBytes) : decode bs = .error .truncated := if_pos h

/-- What bytes decode to is their descriptor's command. -/
theorem command_of_decode {bs : List Byte} {i : Instr} (h : decode bs = .ok i) : (Descriptor.ofBytes bs).command = i := by
  obtain hlt | hge := Nat.lt_or_ge bs.length commandBytes
  · cases (decode_of_length_lt hlt).symm.trans h
  · exact Except.ok.inj ((decode_of_length_ge hge).symm.trans h)

/-- A table word is always long enough to be a command. -/
theorem decodeTableWord_eq (nbits w : Nat) :
    decodeTableWord nbits w = some (Descriptor.ofBytes (bytesLE commandBytes (w % 2 ^ nbits))).command := by
  rw [decodeTableWord, decode_of_length_ge (Laws.length_bytesLE _ _).ge]
  rfl

/-! ### The round trip -/

/-- The round trip of every instruction, from its law for each constructor. -/
theorem roundTrip (i : Instr) : Laws.RoundTrip.Statement i := by
  cases i with
  | depth16 w h b sel => exact Laws.RoundTrip.depth16 w h b sel
  | ir16 w h b => exact Laws.RoundTrip.ir16 w h b
  | ir8 w h b => exact Laws.RoundTrip.ir8 w h b
  | copy w h b => exact Laws.RoundTrip.copy w h b
  | dsrot b => exact Laws.RoundTrip.dsrot b
  | null => exact Laws.RoundTrip.null
  | noneColorGray8 => exact Laws.RoundTrip.noneColorGray8
  | noneColorGray16 => exact Laws.RoundTrip.noneColorGray16
  | noneColorOther => exact Laws.RoundTrip.noneColorOther
  | noneDepthBgra8 => exact Laws.RoundTrip.noneDepthBgra8
  | noneDepthGray8 => exact Laws.RoundTrip.noneDepthGray8
  | noneDepthOther => exact Laws.RoundTrip.noneDepthOther
  | noneInfraredBgra8 => exact Laws.RoundTrip.noneInfraredBgra8
  | noneInfraredOther => exact Laws.RoundTrip.noneInfraredOther
  | noneOtherBgra8 => exact Laws.RoundTrip.noneOtherBgra8
  | noneOtherGray8 => exact Laws.RoundTrip.noneOtherGray8
  | noneOtherGray16 => exact Laws.RoundTrip.noneOtherGray16
  | noneOtherOther => exact Laws.RoundTrip.noneOtherOther
  | wr r v => exact Laws.RoundTrip.wr r v
  | rd r => exact Laws.RoundTrip.rd r
  | cvt kind fmt w h b profile absent => exact Laws.RoundTrip.cvt kind fmt w h b profile absent
  | wait => exact Laws.RoundTrip.wait
  | ack => exact Laws.RoundTrip.ack

/-- A well-formed instruction that is no pseudo-instruction is read back from its encoding. -/
theorem decodeEncoding_encode {i : Instr} (hwf : i.WellFormed) (hx : expansion i = none) :
    decodeEncoding (encode i) = .ok i := by
  have hlaw := roundTrip i
  simp only [Laws.RoundTrip.Statement, hx] at hlaw
  exact hlaw.resolve_left (ne_false_of_eq_true hwf)

/-- A pseudo-instruction's accesses decode to the host operations it stands for (R73 to R75). -/
theorem decodeBus_of_expansion {i : Instr} {is : List Instr} (hx : expansion i = some is) :
    ∃ xs, encode i = .bus xs ∧ xs.map decodeBus = is.map Except.ok := by
  have hlaw := roundTrip i
  simpa only [Laws.RoundTrip.Statement, hx] using hlaw

/-! ### A placed command -/

/-- A command just loaded is what the engine's next turn runs (R107, R109). -/
theorem step_loadCommand (d : Descriptor) (s : State) : step (loadCommand d s) = exec d.command (loadCommand d s) :=
  stepRunsLatchedCommand (loadCommand d s) rfl rfl fun _ => rfl

/-! ### The register writes of `CVT` (R73) -/

/-- The pending actions of some register writes. -/
def writeEvents (ws : List (Reg × Word)) : List HostEvent := ws.map fun x => .bus (writeAccess x.1 x.2)

/-- The descriptor after some register writes, in their order. -/
def writeDescs (ws : List (Reg × Word)) (d : Descriptor) : Descriptor := ws.foldl (fun d x => writeDesc x.1 x.2 d) d

/-- The writes of `CVT` before its START. -/
def cvtDescWrites (k : Kind) (f : Fmt) (w h : Word) (b : Buffers) (profile : Option Profile) (absent : Bool) :
    List (Reg × Word) :=
  (cvtWrites k f w h b profile absent).dropLast

/-- The descriptor `CVT` programs: its arguments, PROFILE as before when it gives none (R73). -/
def cvtDescriptor (k : Kind) (f : Fmt) (w h : Word) (b : Buffers) (profile : Option Profile) (absent : Bool)
    (d : Descriptor) : Descriptor :=
  { desc0 := desc0Word (!absent) k f, width := w.setWidth 16, height := h.setWidth 16, bufs := b
    profile := (profile.map Profile.bit).getD d.profile }

section
variable (k : Kind) (f : Fmt) (w h : Word) (b : Buffers) (profile : Option Profile) (absent : Bool)

/-- START comes last (R73). -/
theorem cvtWrites_eq : cvtWrites k f w h b profile absent = cvtDescWrites k f w h b profile absent ++ [(.ctrl, 1#32)] := by
  cases profile <;> rfl

theorem length_cvtDescWrites :
    (cvtDescWrites k f w h b profile absent).length = if profile.isSome then 8 else 7 := by
  cases profile <;> rfl

/-- Before START `CVT` writes descriptor registers only. -/
theorem cvtDescWrites_ne : ∀ x ∈ cvtDescWrites k f w h b profile absent, x.1 ≠ .ctrl ∧ x.1 ≠ .status := by
  cases profile <;> simp [cvtDescWrites, cvtWrites]

theorem writeDescs_cvtDescWrites (d : Descriptor) :
    writeDescs (cvtDescWrites k f w h b profile absent) d = cvtDescriptor k f w h b profile absent d := by
  cases profile with
  | none => simp [cvtDescWrites, cvtWrites, writeDescs, writeDesc, cvtDescriptor]
  | some p => cases p <;> simp [cvtDescWrites, cvtWrites, writeDescs, writeDesc, cvtDescriptor, Profile.bit]

end

/-- The host moves next when the CRR is idle and the schedule used up (log 6). -/
theorem nextAgent_idle {s : State} (hb : s.busy = false) (hsched : s.schedule = []) : nextAgent s = .host := by
  simp [nextAgent, hsched, hb]

/-- With the schedule used up, taking an action off the queue changes the queue alone. -/
theorem afterPop_of_schedule_nil {s : State} (hsched : s.schedule = []) (rest : List HostEvent) :
    afterPop s rest = { s with hostQueue := rest } := by
  simp [afterPop, popSchedule, hsched]

/-- START is accepted by an idle CRR (R107). -/
theorem writeReg_start {s : State} (hb : s.busy = false) : writeReg .ctrl 1#32 s = acceptStart s := by
  simp [writeReg, writeCtrl, hb]

/-- The step of an idle CRR whose host has a register write pending. -/
theorem step_writeAccess {s : State} {r : Reg} {v : Word} {rest : List HostEvent} (hb : s.busy = false)
    (hsched : s.schedule = []) (hq : s.hostQueue = .bus (writeAccess r v) :: rest) :
    step s = .next (writeReg r v { s with hostQueue := rest }) := by
  have hturn := nextTurn_host_cons (nextAgent_idle hb hsched) hq
  rw [hostAction_bus_ok (Laws.decodeBus_writeAccess r v), afterPop_of_schedule_nil hsched] at hturn
  exact step_of_nextTurn_run hturn

/-- An idle CRR takes its host's descriptor writes one after the other, by induction on them (R105). -/
theorem run_descriptorWrites {ws : List (Reg × Word)} {s : State} {rest : List HostEvent}
    (hws : ∀ x ∈ ws, x.1 ≠ .ctrl ∧ x.1 ≠ .status) (hb : s.busy = false) (hsched : s.schedule = [])
    (hq : s.hostQueue = writeEvents ws ++ rest) (n : Nat) :
    core.run (ws.length + n) s = core.run n { s with hostQueue := rest, desc := writeDescs ws s.desc } := by
  induction ws generalizing s with
  | nil =>
    subst hq
    exact congrArg (core.run · s) (Nat.zero_add n)
  | cons x ws ih =>
    obtain ⟨⟨hctrl, hstatus⟩, hws⟩ := List.forall_mem_cons.1 hws
    have hwrite := writeReg_idle hctrl hstatus x.2 (s := { s with hostQueue := writeEvents ws ++ rest }) hb
    have hstep := (step_writeAccess hb hsched hq).trans (congrArg Host.Outcome.next hwrite)
    rw [List.length_cons, Nat.add_right_comm, run_succ hstep]
    exact ih hws hb hsched rfl

/-- The step that takes a pending `CVT` queues its descriptor writes and its START (R73). -/
theorem step_cvt {s : State} {k : Kind} {f : Fmt} {w h : Word} {b : Buffers} {profile : Option Profile} {absent : Bool}
    {rest : List HostEvent} (hb : s.busy = false) (hsched : s.schedule = [])
    (hq : s.hostQueue = .cvt k f w h b profile absent :: rest) :
    step s = .next { s with
      hostQueue := writeEvents (cvtDescWrites k f w h b profile absent) ++ .bus (writeAccess .ctrl 1#32) :: rest } := by
  have hturn := nextTurn_host_cons (nextAgent_idle hb hsched) hq
  rw [afterPop_of_schedule_nil hsched] at hturn
  rw [step_of_nextTurn_run hturn, exec, execCvt, cvtAccesses, cvtWrites_eq]
  simp [writeEvents, Function.comp_def]

/-- Run from an idle CRR, `CVT` and its queued writes come to an accepted START over the descriptor it programs. -/
theorem run_cvt {s : State} {k : Kind} {f : Fmt} {w h : Word} {b : Buffers} {profile : Option Profile} {absent : Bool}
    {rest : List HostEvent} (hb : s.busy = false) (hsched : s.schedule = [])
    (hq : s.hostQueue = .cvt k f w h b profile absent :: rest) :
    core.run ((cvtDescWrites k f w h b profile absent).length + 1 + 1) s =
      .next (acceptStart { s with hostQueue := rest, desc := cvtDescriptor k f w h b profile absent s.desc }) := by
  have hprog := run_descriptorWrites (cvtDescWrites_ne k f w h b profile absent)
    (s := { s with hostQueue := writeEvents _ ++ .bus (writeAccess .ctrl 1#32) :: rest }) hb hsched rfl 1
  rw [writeDescs_cvtDescWrites] at hprog
  calc core.run _ s = core.run _ _ := run_succ (step_cvt hb hsched hq)
    _ = core.run 1 _ := hprog
    _ = .next (writeReg .ctrl 1#32 _) := run_succ (step_writeAccess hb hsched rfl)
    _ = .next (acceptStart _) := congrArg Host.Outcome.next (writeReg_start hb)

/-! ### The statements -/

/-- Settles O3: the laws of the constructors, and that a descriptor's command is well formed and no pseudo-instruction. -/
theorem decodeEncodeAgree : Obligations.DecodeEncodeAgree := by
  refine ⟨fun i hwf hx => decodeEncoding_encode hwf hx, fun i is hx => decodeBus_of_expansion hx, fun bs i h => ?_⟩
  rw [← command_of_decode h]
  have hwf := wf_command (Descriptor.ofBytes bs)
  exact ⟨hwf, decodeEncoding_encode hwf (expansion_command _)⟩

/-- Settles O2: only the implemented bits count, and each of their values is the word of one cell of R67. -/
theorem dispatchByOpcodeWord : Obligations.DispatchByOpcodeWord := by
  intro d w h
  refine ⟨fun hd => ?null, fun hd => ?color, fun hd => ?depth16, fun hd => ?ir8, fun hd => ?ir16, fun v hv hd => ?none⟩
  case null =>
    refine decodeOp_absent ?_ w h
    rw [← presentOf_and (m := 1#32) (by decide), hd]
    rfl
  case none =>
    obtain ⟨hp, hcell⟩ : presentOf v = true ∧ (kindOf v, fmtOf v) ∉ convertingCells := by
      fin_cases hv <;> decide
    rw [decodeOp_of_and_desc0Mask hd, decodeOp_eq_none hp hcell]
  all_goals rw [decodeOp_of_and_desc0Mask hd]
  case color =>
    rw [show 0x01#32 = desc0Word true .color .bgra8 by decide]
    simp [decodeOp, dsW, dsH]
  case depth16 =>
    rw [show 0x25#32 = desc0Word true .depth .gray16 by decide]
    simp [decodeOp]
  case ir8 =>
    rw [show 0x19#32 = desc0Word true .infrared .gray8 by decide]
    simp [decodeOp]
  case ir16 =>
    rw [show 0x29#32 = desc0Word true .infrared .gray16 by decide]
    simp [decodeOp]

/-- Settles O4: thirty-two bytes are a descriptor, and every descriptor denotes a conversion. -/
theorem everyCommandDecodes : Obligations.EveryCommandDecodes := by
  intro bs
  exact ⟨fun hlen => ⟨_, decode_of_length_ge hlen, wf_command _, commandOf_cases _ _⟩, decode_of_length_lt⟩

/-- Settles O17, by `run_cvt`: what is left is to read the fields of the accepted START's state. -/
theorem cvtProgramsAndStarts : Obligations.CvtProgramsAndStarts := by
  intro s rest k f w h b profile absent hb hsched hq
  have hrun := run_cvt hb hsched hq
  have hsteps : (cvtDescWrites k f w h b profile absent).length + 1 + 1 = if profile.isSome then 10 else 9 := by
    rw [length_cvtDescWrites]
    split <;> rfl
  rw [hsteps] at hrun
  refine ⟨_, hrun, rfl, rfl, rfl, Laws.presentOf_desc0Word _ k f, Laws.kindOf_desc0Word _ k f, Laws.fmtOf_desc0Word _ k f,
    BitVec.toNat_setWidth 16 w, BitVec.toNat_setWidth 16 h, rfl, ?sel, rfl, rfl, rfl, rfl, rfl, rfl, rfl⟩
  case sel => obtain _ | _ | _ := profile <;> rfl

/-- Settles O9: the word's descriptor is loaded, and its command is the one the next step runs. -/
theorem placedCommandRuns : Obligations.PlacedCommandRuns := by
  intro s nbits w i hi
  obtain rfl := Option.some.inj ((decodeTableWord_eq nbits w).symm.trans hi)
  exact ⟨wf_command _, rfl, step_loadCommand _ s⟩

end Sys2Proof.Machine
end

section
/-! SUPPORT. The family ColorRampLut: the blend and the two lookups in exact rational arithmetic (R78, R81, R88), and what the
built tables hold (R83 to R86). -/

namespace Sys2Proof.Machine

/-! ### Channels -/

theorem mix_channel {ch : Color → Byte} (hch : ch ∈ channels) (c d : Color) (f : Weight) :
    ch (mix c d f) = blend (ch c) (ch d) f := by
  simp only [channels, List.mem_cons, List.not_mem_nil, or_false] at hch
  rcases hch with rfl | rfl | rfl | rfl <;> rfl

/-- A Color is its four channels (R14). -/
theorem color_ext_channels {c d : Color} (h : ∀ ch ∈ channels, ch c = ch d) : c = d := by
  cases c
  cases d
  simpa [channels] using h

/-! ### The blend as a rational (R78) -/

/-- What the integer expression of R78 divides is the exact blend with a half added. -/
theorem blend_quotient_eq (p n : ℕ) {f : Weight} (hd : 0 < f.den) (h : f.num ≤ f.den) :
    ((2 * (p * (f.den - f.num) + n * f.num) + f.den : ℕ) : ℚ) / (2 * f.den : ℕ) =
      p * (1 - f.toRat) + n * f.toRat + 1 / 2 := by
  have hq : (f.den : ℚ) ≠ 0 := by exact_mod_cast hd.ne'
  push_cast [Nat.cast_sub h]
  unfold Weight.toRat
  field_simp

/-- Settles O43: the byte is the integer quotient of R78, a quotient of naturals is a floor, and the quotient is exact. -/
theorem blendRounds : Obligations.BlendRounds := by
  intro p n f hd h
  have hexact := blend_quotient_eq p.toNat n.toNat hd h
  rw [← hexact, ← Int.natCast_floor_eq_floor (by positivity), Nat.floor_div_eq_div, blend_toNat p n hd h]

/-! ### Interpolation as a rational (R81, R88) -/

/-- The one formula of R81 and R88, channel by channel: the rounded blend of the two ends of the cell the clamped value lies
in, by how far into the cell it stands. -/
theorem interpolateOver_channel (entry : ℕ → Color) {steps : ℕ} (hs : 0 < steps) {value : Ratio} (hd : 0 < value.den)
    {ch : Color → Byte} (hch : ch ∈ channels) :
    let scaled : ℚ := max 0 (min value.toRat 1) * steps
    let index : ℕ := min ⌊scaled⌋₊ (steps - 1)
    let frac : ℚ := scaled - index
    ((ch (interpolateOver entry steps value)).toNat : ℤ) =
      ⌊((ch (entry index)).toNat : ℚ) * (1 - frac) + ((ch (entry (index + 1))).toNat : ℚ) * frac + 1 / 2⌋ := by
  intro scaled index frac
  have hden : 0 < (clamp01 value).den := hd
  have hscaled : (clamp01 value).toRat * steps = scaled := by rw [clamp01_toRat hd]
  have hindex : cellIndex steps (clamp01 value) = index := by rw [cellIndex_eq, hscaled]
  have hfrac : (cellWeight steps (clamp01 value)).toRat = frac := by rw [cellWeight_toRat hden, hscaled, hindex]
  have hround := blendRounds (ch (entry index)) (ch (entry (index + 1))) (cellWeight steps (clamp01 value)) hden
    (cellWeight_le hs hden (clamp01_le value))
  rw [interpolateOver, mix_channel hch, hindex, hround, hfrac]

/-- Interpolation depends on the rational number alone, not on the fraction that writes it (R7). -/
theorem interpolateOver_congr (entry : ℕ → Color) {steps : ℕ} (hs : 0 < steps) {v w : Ratio} (hv : 0 < v.den)
    (hw : 0 < w.den) (h : v.toRat = w.toRat) : interpolateOver entry steps v = interpolateOver entry steps w := by
  refine color_ext_channels fun ch hch => BitVec.eq_of_toNat_eq (Int.ofNat_inj.1 ?_)
  have hrule := interpolateOver_channel entry hs hv hch
  rw [h] at hrule
  exact hrule.trans (interpolateOver_channel entry hs hw hch).symm

theorem palette_steps_pos (p : Palette) : 0 < p.size - 1 := Nat.succ_pos _

/-- Settles O46: the palette's points stand at `P - 1` equal steps. -/
theorem interpolateRule : Obligations.InterpolateRule := by
  intro p value hd ch hch
  have hsteps : ((p.size - 1 : ℕ) : ℚ) = (p.size : ℚ) - 1 := Nat.cast_pred (Nat.succ_pos _)
  have hrule := interpolateOver_channel p.entry (palette_steps_pos p) hd hch
  rwa [hsteps] at hrule

/-- Settles O48: the table's points stand at 1023 equal steps. -/
theorem getValueRule : Obligations.GetValueRule := fun T _ hd _ hch =>
  interpolateOver_channel (tableEntry T) (steps := 1023) (by decide) hd hch

/-! ### The built tables (R83 to R86) -/

theorem length_buildTable (g : ℕ → Color) : (buildTable g).length = 1024 := length_tabulate g 0 tableSize

theorem samplePoint_toRat (k : ℕ) : (samplePoint k).toRat = (k : ℚ) / 1023 := by
  simp [samplePoint, Ratio.toRat, tableSize]

theorem gammaPoint_toRat {k : ℕ} (hk : k < 1024) : (gammaPoint k).toRat = (1 - (k : ℚ) / 1023) ^ 12 := by
  have hsub : ((1023 - k : ℕ) : ℚ) = 1023 - k := Nat.cast_sub (by omega)
  have hpoint : (gammaPoint k).toRat = ((1023 - k : ℕ) : ℚ) ^ 12 / 1023 ^ 12 := by
    norm_num [gammaPoint, Ratio.toRat, tableSize, gammaExp]
  rw [hpoint, hsub, ← div_pow, sub_div, div_self (by norm_num)]

/-- Settles O50: an entry is its generator's value, and `Interpolate` does not see how its sample point is written. -/
theorem tableContents : Obligations.TableContents := by
  intro p
  refine ⟨length_buildTable _, length_buildTable _, fun k hk => ⟨fun v hv hval => ?depth, fun v hv hval => ?infrared⟩⟩
  case depth =>
    rw [tableEntry_buildTable _ hk]
    exact interpolateOver_congr _ (palette_steps_pos p) (samplePoint_den_pos k) hv ((samplePoint_toRat k).trans hval.symm)
  case infrared =>
    rw [tableEntry_buildTable _ hk]
    exact interpolateOver_congr _ (palette_steps_pos p) (gammaPoint_den_pos k) hv ((gammaPoint_toRat hk).trans hval.symm)

end Sys2Proof.Machine
end

section
/-! SUPPORT. The family ScanlineTransforms: the lookup at its sample points (R82, R89), the two gates of a depth pixel (R95, R96,
R103), infrared pixels (R97 to R100), and that a conversion repeated finds its own work done (R53, R104). -/

namespace Sys2Proof.Machine

/-! ### Interpolation at the points it goes through -/

/-- Rounding to the nearest integer, ties upward, leaves a natural number as it is (R78). -/
theorem floor_natCast_add_half (n : ℕ) : ⌊(n : ℚ) + 1 / 2⌋ = (n : ℤ) := by
  rw [Int.floor_natCast_add, show ⌊(1 / 2 : ℚ)⌋ = 0 by norm_num, add_zero]

/-- A clamped value that stands at point `k` yields the colour of that point: inside the range it begins the cell `k`, and the
last point ends the last cell (R82, R89). -/
theorem interpolateOver_at_point (entry : ℕ → Color) {steps k : ℕ} (hs : 0 < steps) {value : Ratio} (hd : 0 < value.den)
    (hk : k ≤ steps) (hpoint : max 0 (min value.toRat 1) * steps = k) : interpolateOver entry steps value = entry k := by
  refine color_ext_channels fun ch hch => BitVec.eq_of_toNat_eq (Int.ofNat_inj.1 ?_)
  have hrule := interpolateOver_channel entry hs hd hch
  simp only [hpoint, Nat.floor_natCast] at hrule
  rw [hrule]
  obtain hlt | rfl := Nat.lt_or_eq_of_le hk
  · have hcell : min k (steps - 1) = k := min_eq_left (by omega)
    simpa [hcell] using floor_natCast_add_half (ch (entry k)).toNat
  · have hcell : min k (k - 1) = k - 1 := min_eq_right (by omega)
    have hlast : k - 1 + 1 = k := Nat.sub_add_cancel hs
    have hfrac : (k : ℚ) - ((k - 1 : ℕ) : ℚ) = 1 := by rw [Nat.cast_pred hs]; ring
    simpa [hcell, hlast, hfrac] using floor_natCast_add_half (ch (entry k)).toNat

/-! ### The lookup -/

/-- The lookup depends on the rational number alone (R7, R88). -/
theorem getValue_congr (T : List Color) {v w : Ratio} (hv : 0 < v.den) (hw : 0 < w.den) (h : v.toRat = w.toRat) :
    getValue T v = getValue T w :=
  interpolateOver_congr _ (by decide) hv hw h

/-- A value at or below 0 shows entry 0 (R89 (a)). -/
theorem getValue_of_toRat_nonpos (T : List Color) {v : Ratio} (hv : 0 < v.den) (h : v.toRat ≤ 0) :
    getValue T v = tableEntry T 0 :=
  interpolateOver_at_point _ (by decide) hv (Nat.zero_le _) (by simp [min_le_of_left_le h])

/-- A value at or above 1 shows the last entry (R89 (a)). -/
theorem getValue_of_one_le_toRat (T : List Color) {v : Ratio} (hv : 0 < v.den) (h : 1 ≤ v.toRat) :
    getValue T v = tableEntry T 1023 :=
  interpolateOver_at_point _ (by decide) hv le_rfl (by simp [min_eq_right h, tableSize])

/-! ### Depth pixels -/

theorem depthPixel_invalid (cfg : Config) (T : List Color) (scale lo hi : Ratio) {raw : ℕ} (h : raw = 0 ∨ 4000 < raw) :
    depthPixel cfg T scale lo hi raw = cfg.invalidColor :=
  if_pos h

theorem depthPixel_valid (cfg : Config) (T : List Color) (scale lo hi : Ratio) {raw : ℕ} (hlo : 1 ≤ raw)
    (hhi : raw ≤ 4000) : depthPixel cfg T scale lo hi raw = getValue T (depthAlpha scale lo hi raw) :=
  if_neg (by simp only [depthRawMax]; omega)

/-- The presets with the ends of their ranges in raw units (R96). -/
def presetRanges : List (Profile × ℕ × ℕ) := [(.narrow, 500, 4000), (.wide, 200, 1000)]

theorem presetRanges_lt {p : Profile × ℕ × ℕ} (hp : p ∈ presetRanges) : p.2.1 < p.2.2 := by
  revert p
  decide

/-- `alpha` of R95 is the position in the preset's range. -/
theorem depthAlpha_toRat_presetRanges {p : Profile × ℕ × ℕ} (hp : p ∈ presetRanges) (raw : ℕ) :
    (depthAlpha depthScale (reliableMin p.1) (reliableMax p.1) raw).toRat =
      ((raw : ℚ) - (p.2.1 : ℕ)) / ((p.2.2 : ℕ) - (p.2.1 : ℕ)) := by
  rw [depthAlpha_toRat]
  simp only [presetRanges, List.mem_cons, List.not_mem_nil, or_false] at hp
  obtain rfl | rfl := hp <;> norm_num

/-! ### Infrared pixels -/

theorem infraredPixel_zero (cfg : Config) (T : List Color) (full : ℕ) : infraredPixel cfg T full 0 = cfg.invalidColor :=
  if_pos rfl

theorem infraredPixel_pos (cfg : Config) (T : List Color) (full : ℕ) {raw : ℕ} (h : 0 < raw) :
    infraredPixel cfg T full raw = getValue T (Ratio.over raw full) :=
  if_neg h.ne'

theorem over_toRat (n d : ℕ) : (Ratio.over n d).toRat = (n : ℚ) / d := rfl

/-- A sample and its full scale multiplied by one number give the same colour (R100). -/
theorem infraredPixel_mul (cfg : Config) (T : List Color) {k full : ℕ} (hk : 0 < k) (hfull : 0 < full) (raw : ℕ) :
    infraredPixel cfg T (k * full) (k * raw) = infraredPixel cfg T full raw := by
  obtain rfl | hraw := Nat.eq_zero_or_pos raw
  · rw [Nat.mul_zero, infraredPixel_zero, infraredPixel_zero]
  · have hratio : (Ratio.over (k * raw) (k * full)).toRat = (Ratio.over raw full).toRat := by
      simp only [over_toRat, Nat.cast_mul]
      exact mul_div_mul_left _ _ (by exact_mod_cast hk.ne')
    rw [infraredPixel_pos _ _ _ hraw, infraredPixel_pos _ _ _ (Nat.mul_pos hk hraw)]
    exact getValue_congr T (Nat.mul_pos hk hfull) hfull hratio

/-! ### A conversion run again -/

/-- A table once ensured is not built again (R86, R110). -/
theorem tableEnsured_completeOk (i : Instr) (s : State) (m : Memory) :
    tableEnsured i (completeOk { tableEnsured i s with mem := m }) = completeOk { tableEnsured i s with mem := m } := by
  cases i with
  | depth16 => exact if_pos (ensureDlut_dlutReady s)
  | ir16 | ir8 => exact if_pos (ensureIlut_ilutReady s)
  | _ => rfl

/-- The pixel function looks at the configuration and the tables only. -/
theorem pixelOf_completeOk (i : Instr) (s : State) (m : Memory) :
    pixelOf i (completeOk { s with mem := m }) = pixelOf i s := by
  cases i <;> rfl

/-- A transfer repeated on the memory it left leaves that memory: the input footprint still holds the old samples, so every
pixel is stored again as it stands (R53, R104). -/
theorem moveOf_again {i : Instr} {op : Op} {w h : Nat} {b : Buffers} {s t : State} {m : Memory} {cfg : Config}
    (hi : transferOf i = some (op, w, h, b)) (hduty : HostDuties cfg (inputFootprint op w h b) (outputFootprint op w h b))
    (hcanon : Memory.wf s.mem = true) (hpix : pixelOf i s = pixelOf i t) (hm : moveOf i op w h b s = .ok t.mem)
    (hm' : moveOf i op w h b t = .ok m) : m = t.mem := by
  have hop := transferOf_op hi
  have hsize : op = .dsrot → w = dsW ∧ h = dsH := fun hd => transferOf_dsrot (hd ▸ hi)
  have ⟨_, _, hdisj, _⟩ := hduty
  have hinput : ∀ a, (inputFootprint op w h b).has a = true → Memory.get s.mem a = Memory.get t.mem a := fun a ha =>
    (moveOf_outside hop hsize hduty hm a (eq_false_of_ne_true fun hout => hdisj a ⟨ha, hout⟩)).symm
  have hwf : Memory.wf t.mem = true := wf_moveOf hm hcanon
  refine eq_of_get_eq (wf_moveOf hm' hwf) hwf fun a => ?_
  cases hout : (outputFootprint op w h b).has a with
  | true => exact (moveOf_image_congr hi hduty hpix hinput hm hm' hout).symm
  | false => exact moveOf_outside hop hsize hduty hm' a hout

/-- A transfer that ends OK leaves the completed state of its ensured one, with the memory it moved (R118). -/
theorem transfer_ok_state {i : Instr} {op : Op} {w h : Nat} {b : Buffers} {s t : State}
    (hi : transferOf i = some (op, w, h, b)) (hx : exec i s = .next t) (hok : t.result = .ok) :
    t = completeOk { tableEnsured i s with mem := t.mem } := by
  rw [exec_transfer hi, endTransfer_next] at hx
  obtain ⟨-, ⟨m, -, rfl⟩ | ⟨a, -, rfl⟩⟩ := hx
  · rfl
  · cases hok

/-! ### The statements -/

/-- Settles O41: the repeated transfer completes, its table is ready, and by `moveOf_again` it stores what is there. -/
theorem conversionIsIdempotent : Obligations.ConversionIsIdempotent := by
  intro i s t hcanon hi hx hok
  obtain ⟨⟨op, w, h, b⟩, hi⟩ := Option.isSome_iff_exists.1 hi
  obtain ⟨hduty, hnofail, hm⟩ := transfer_ok hi hx hok
  have ht := transfer_ok_state hi hx hok
  have hready : tableEnsured i t = t := by
    rw [ht]
    exact tableEnsured_completeOk i s t.mem
  have hpix : pixelOf i (tableEnsured i s) = pixelOf i t := by
    rw [ht]
    exact (pixelOf_completeOk i _ _).symm
  have hcfg : t.cfg = s.cfg := by
    rw [ht]
    exact tableEnsured_cfg i s
  obtain ⟨m', hm', hagain⟩ := exec_complete hi (hcfg ▸ hduty) (hcfg ▸ hnofail)
  rw [hready] at hm' hagain
  have hmem : m' = t.mem := moveOf_again hi hduty (by simpa using hcanon) hpix hm hm'
  have hfix : completeOk { t with mem := m' } = t := by
    rw [hmem, ht]
    rfl
  rw [hagain, hfix]

/-- Settles O53: the validity gate is the branch of `depthPixel`, the range gate the clamp of the lookup. -/
theorem depthPixelGates : Obligations.DepthPixelGates := by
  intro cfg T p hp raw
  have hrat := depthAlpha_toRat_presetRanges hp raw
  have hden := depthAlpha_den_pos p.1 raw
  have hwidth : (0 : ℚ) < (p.2.2 : ℕ) - (p.2.1 : ℕ) := sub_pos.2 (by exact_mod_cast presetRanges_lt hp)
  refine ⟨fun hraw => depthPixel_invalid _ _ _ _ _ hraw, fun hlo hhi => ?_⟩
  simp only [depthPixel_valid cfg T _ _ _ hlo hhi]
  refine ⟨fun v hv hval => getValue_congr T hden hv (hrat.trans hval.symm), fun hbelow => ?below, fun habove => ?above⟩
  case below =>
    have hle : (raw : ℚ) - (p.2.1 : ℕ) ≤ 0 := sub_nonpos.2 (by exact_mod_cast hbelow)
    exact getValue_of_toRat_nonpos T hden (hrat.trans_le (div_nonpos_of_nonpos_of_nonneg hle hwidth.le))
  case above =>
    have hge : ((p.2.2 : ℕ) : ℚ) ≤ raw := by exact_mod_cast habove
    exact getValue_of_one_le_toRat T hden (((one_le_div hwidth).2 (sub_le_sub_right hge _)).trans_eq hrat.symm)

/-- Settles O54: the branch of `infraredPixel`, the upper end of the lookup, and 65535 = 257 * 255. -/
theorem infraredPixels : Obligations.InfraredPixels := by
  intro cfg T
  have hscaled := infraredPixel_mul cfg T (k := 257) (full := 255) (by decide) (by decide)
  refine ⟨fun full hfull raw => ?_, fun r _ => (hscaled r).symm⟩
  have hpos : 0 < full := by
    revert full
    decide
  refine ⟨fun hraw => ?zero, fun hlo _ v hv hval => ?lookup, fun hraw => ?full⟩
  case zero => exact hraw ▸ infraredPixel_zero cfg T full
  case lookup =>
    rw [infraredPixel_pos cfg T full hlo]
    exact getValue_congr T hpos hv hval.symm
  case full =>
    have hone : (Ratio.over full full).toRat = 1 := by
      rw [over_toRat, div_self (by exact_mod_cast hpos.ne')]
    rw [hraw, infraredPixel_pos cfg T full hpos]
    exact getValue_of_one_le_toRat T hpos hone.ge

end Sys2Proof.Machine
end

section
/-! SUPPORT. The family ConvertCommands: the whole effect of `WR` and `RD` (R105, R106), the ends without an image (R116,
R117), the completed row transfers (R112 to R115), the tables (R110), empty frames (R119), and the footprints as the accesses
of a conversion (R48, R54, R130). -/

namespace Sys2Proof.Machine

/-! ### Register writes and reads -/

/-- A write of an idle CRR to any register but `CTRL` and `STATUS` writes the descriptor (R105). -/
theorem exec_wr_idle {r : Reg} (hctrl : r ≠ .ctrl) (hstatus : r ≠ .status) (v : Word) {s : State} (hb : s.busy = false) :
    exec (.wr r v) s = .next { s with desc := writeDesc r v s.desc } :=
  congrArg Host.Outcome.next (writeReg_idle hctrl hstatus v hb)

/-- While BUSY a write to any register but `CTRL` and `STATUS` is ignored (R105, R158). -/
theorem exec_wr_busy {r : Reg} (hctrl : r ≠ .ctrl) (hstatus : r ≠ .status) (v : Word) {s : State} (hb : s.busy = true) :
    exec (.wr r v) s = .next s := by
  cases r with
  | ctrl => exact absurd rfl hctrl
  | status => exact absurd rfl hstatus
  | _ => exact congrArg Host.Outcome.next (if_pos hb)

/-- A write to a register that is no part of the descriptor, and neither `CTRL` nor `STATUS`, changes nothing (R31 to R34). -/
theorem exec_wr_readOnly {r : Reg} (hctrl : r ≠ .ctrl) (hstatus : r ≠ .status) {v : Word}
    (hdesc : ∀ d, writeDesc r v d = d) (s : State) : exec (.wr r v) s = .next s := by
  cases hb : s.busy with
  | false => rw [exec_wr_idle hctrl hstatus v hb, hdesc]
  | true => exact exec_wr_busy hctrl hstatus v hb

/-- The acknowledgement in the words of R105: a written 1 clears. -/
theorem acknowledge_eq (v : Word) (s : State) :
    acknowledge v s = { s with done := if v.getLsbD 1 = true then false else s.done
                               dropped := if v.getLsbD 12 = true then false else s.dropped } := by
  have hclear : ∀ flag bit : Bool, (flag && !bit) = if bit = true then false else flag := by decide
  simp only [acknowledge, hclear]

/-- `STATUS` as a number: each field at the weight of its lowest bit (R23, R106). -/
theorem statusWord_toNat (s : State) :
    (statusWord s).toNat =
      s.dropped.toNat * 4096 + s.ilutReady.toNat * 512 + s.dlutReady.toNat * 256 + (Result.code s.result).toNat * 16 +
        s.done.toNat * 2 + s.busy.toNat := by
  simp only [statusWord, toNat_append_eq_add, BitVec.toNat_ofBool, BitVec.toNat_zero]
  ring

/-- `DIAG` as a number (R31, R106). -/
theorem diagWord_toNat (l : Log) : (diagWord l).toNat = l.aovf.toNat * 256 + (LogCause.code l.lastCause).toNat := by
  simp only [diagWord, toNat_append_eq_add, BitVec.toNat_ofBool, BitVec.toNat_zero]
  ring

/-! ### Descriptors that denote no transfer -/

theorem presentOf_eq_false_of_and {d : Word} (hd : d &&& 1#32 = 0#32) : presentOf d = false := by
  rw [← presentOf_and (m := 1#32) (by decide), hd]
  rfl

theorem command_absent {d : Descriptor} (hd : presentOf d.desc0 = false) : d.command = .null := by
  rw [Descriptor.command, decodeOp_absent hd]
  rfl

/-- A present descriptor outside the converting cells is a row of NONE (R67). -/
theorem command_mem_noneRows {d : Descriptor} (hp : presentOf d.desc0 = true)
    (hcell : (kindOf d.desc0, fmtOf d.desc0) ∉ convertingCells) : d.command ∈ noneRows := by
  rw [Descriptor.command, decodeOp_eq_none hp hcell]
  exact noneCell_mem_noneRows _ _

/-! ### Completed row transfers -/

/-- A row-driven transfer whose host kept its duties and no access of which fails: the completed state, every pixel, and that
nothing outside the output footprint changed (R93, R111, R118, R120). -/
theorem exec_row_complete {i : Instr} {op : Op} {w h : Nat} {b : Buffers} (hi : transferOf i = some (op, w, h, b))
    (hnd : op ≠ .dsrot) {s : State} (hd : HostDuties s.cfg (inputFootprint op w h b) (outputFootprint op w h b))
    (hf : firstFailing s.cfg op w h b = none) :
    ∃ m, exec i s = .next (completeOk { tableEnsured i s with mem := m }) ∧
      (∀ r x, r < h → x < w →
        readLE m (b.outBase.toNat + r * b.outStride.toNat + 4 * x) 4 =
          (pixelOf i (tableEnsured i s)
            (readLE s.mem (b.inBase.toNat + r * b.inStride.toNat + x * op.ibpp) op.ibpp)).toNat) ∧
      ∀ a, (outputFootprint op w h b).has a = false → Memory.get m a = Memory.get s.mem a := by
  obtain ⟨m, hm, hx⟩ := exec_complete hi hd hf
  have hop := transferOf_op hi
  refine ⟨m, hx, fun r x hr hxw => ?_, fun a ha => ?_⟩
  · rw [moveOf_pixels hop hnd hd hm hr hxw, tableEnsured_mem]
  · rw [moveOf_outside hop (fun h => absurd h hnd) hd hm a ha, tableEnsured_mem]

/-- Equal little-endian values at two places have equal bytes. -/
theorem get_eq_get_of_readLE_eq {m m' : Memory} {a a' n i : Nat} (hi : i < n) (h : readLE m a n = readLE m' a' n) :
    Memory.get m (a + i) = Memory.get m' (a' + i) :=
  BitVec.eq_of_toNat_eq (by rw [get_eq_readLE_div m hi, get_eq_readLE_div m' hi, h])

theorem readLE_one (m : Memory) (a : Nat) : readLE m a 1 = (Memory.get m a).toNat := rfl

/-! ### Empty frames -/

/-- A loop each of whose iterations leaves the memory alone leaves it alone. -/
theorem forCount_eq_ok {body : Nat → Memory → Except Nat Memory} (hbody : ∀ i m, body i m = .ok m) (n i : Nat)
    (m : Memory) : forCount body n i m = .ok m := by
  induction n generalizing i with
  | zero => rfl
  | succ n ih =>
    simp only [forCount, hbody]
    exact ih (i + 1)

/-- A frame of no width or no height has no row to move or no pixel in any row (R119). -/
theorem rowDriver_empty (cfg : Config) (ibpp : Nat) (pixel : Nat → Word) {w h : Nat} (hempty : w = 0 ∨ h = 0)
    (b : Buffers) (m : Memory) : rowDriver (mapRow cfg ibpp pixel w) h b m = .ok m := by
  obtain rfl | rfl := hempty
  · exact forCount_eq_ok (fun _ _ => rfl) h 0 m
  · rfl

theorem has_eq_false_of_empty {f : Footprint} (hf : f.span = 0 ∨ f.rows = 0) (a : Nat) : f.has a = false := by
  refine eq_false_of_ne_true fun ha => ?_
  obtain ⟨r, j, hr, hj, -, -⟩ := has_iff.1 ha
  omega

@[simp] theorem noFootprint_has (a : Nat) : noFootprint.has a = false := rfl

/-- Empty footprints break no duty, wherever they lie (R119, R160, R161). -/
theorem hostDuties_of_empty (cfg : Config) {f g : Footprint} (hf : f.span = 0 ∨ f.rows = 0)
    (hg : g.span = 0 ∨ g.rows = 0) : HostDuties cfg f g :=
  ⟨fun _ => by omega, fun _ => by omega, fun a h => by simp [has_eq_false_of_empty hf a] at h,
    fun _ _ a _ => ⟨has_eq_false_of_empty hf a, has_eq_false_of_empty hg a⟩⟩

theorem inputFootprint_empty (op : Op) {w h : Nat} (hempty : w = 0 ∨ h = 0) (b : Buffers) :
    (inputFootprint op w h b).span = 0 ∨ (inputFootprint op w h b).rows = 0 := by
  obtain rfl | rfl := hempty <;> cases op <;> simp [inputFootprint, noFootprint]

theorem outputFootprint_empty (op : Op) {w h : Nat} (hempty : w = 0 ∨ h = 0) (b : Buffers) :
    (outputFootprint op w h b).span = 0 ∨ (outputFootprint op w h b).rows = 0 := by
  obtain rfl | rfl := hempty <;> cases op <;> simp [outputFootprint, noFootprint]

/-- The transfer of an empty frame leaves the memory as it is; `DSROT` never has one (R68, R119). -/
theorem moveOf_empty {i : Instr} {op : Op} {w h : Nat} {b : Buffers} (hi : transferOf i = some (op, w, h, b))
    (hempty : w = 0 ∨ h = 0) (s : State) : moveOf i op w h b s = .ok s.mem := by
  have hnd : op ≠ .dsrot := by
    rintro rfl
    obtain ⟨rfl, rfl⟩ := transferOf_dsrot hi
    simp [dsW, dsH] at hempty
  rw [moveOf, if_neg hnd, rowDriver_empty _ _ _ hempty]

/-! ### The footprints, address by address (R48) -/

/-- The input footprint of a row-driven operation: every byte of every sample. -/
theorem inputFootprint_has_iff {op : Op} (hop : op ≠ .null ∧ op ≠ .none) (hnd : op ≠ .dsrot) {w h : Nat} {b : Buffers}
    {a : Nat} :
    (inputFootprint op w h b).has a = true ↔
      ∃ r j, r < h ∧ j < w * op.ibpp ∧ a = b.inBase.toNat + r * b.inStride.toNat + j := by
  have hin : inputFootprint op w h b =
      { base := b.inBase.toNat, stride := b.inStride.toNat, rows := h, span := w * op.ibpp, step := 1 } := by
    cases op <;> simp_all [inputFootprint]
  simp only [hin, has_iff, Footprint.addr, Nat.mod_one, true_and]

/-- The output footprint of a row-driven operation: every byte of every pixel. -/
theorem outputFootprint_has_iff {op : Op} (hop : op ≠ .null ∧ op ≠ .none) (hnd : op ≠ .dsrot) {w h : Nat} {b : Buffers}
    {a : Nat} :
    (outputFootprint op w h b).has a = true ↔
      ∃ r j, r < h ∧ j < 4 * w ∧ a = b.outBase.toNat + r * b.outStride.toNat + j := by
  have hout : outputFootprint op w h b =
      { base := b.outBase.toNat, stride := b.outStride.toNat, rows := h, span := 4 * w, step := 1 } := by
    cases op <;> simp_all [outputFootprint]
  simp only [hout, has_iff, Footprint.addr, Nat.mod_one, true_and]

/-- The input footprint of `DSROT`: the first byte of every pixel (R127). -/
theorem inputFootprint_dsrot_has_iff {w h : Nat} {b : Buffers} {a : Nat} :
    (inputFootprint .dsrot w h b).has a = true ↔
      ∃ r c, r < h ∧ c < w ∧ a = b.inBase.toNat + r * b.inStride.toNat + 4 * c := by
  simp only [has_iff, inputFootprint, Footprint.addr]
  constructor
  · rintro ⟨r, j, hr, hj, hstep, rfl⟩
    exact ⟨r, j / 4, hr, by omega, by omega⟩
  · rintro ⟨r, c, hr, hc, rfl⟩
    exact ⟨r, 4 * c, hr, by omega, by omega, rfl⟩

/-- The output footprint of `DSROT`: half the rows of half the width (R125). -/
theorem outputFootprint_dsrot_has_iff {w h : Nat} {b : Buffers} {a : Nat} :
    (outputFootprint .dsrot w h b).has a = true ↔
      ∃ r j, r < h / 2 ∧ j < 4 * (w / 2) ∧ a = b.outBase.toNat + r * b.outStride.toNat + j := by
  simp only [has_iff, outputFootprint, Footprint.addr, Nat.mod_one, true_and]

/-! ### The accesses of a conversion -/

theorem mem_concatBelow {n a : Nat} {f : Nat → List Nat} : a ∈ concatBelow n f ↔ ∃ k, k < n ∧ a ∈ f k := by
  simp only [concatBelow, List.mem_flatMap, List.mem_range]

/-- The runs of `k` bytes of `w` consecutive units make up the run of `w * k` bytes. -/
theorem exists_unit_iff {w k base a : Nat} :
    (∃ x, x < w ∧ base + x * k ≤ a ∧ a < base + x * k + k) ↔ ∃ j, j < w * k ∧ a = base + j := by
  constructor
  · rintro ⟨x, hx, hlo, hhi⟩
    have hunit : (x + 1) * k ≤ w * k := Nat.mul_le_mul_right k hx
    rw [Nat.succ_mul] at hunit
    exact ⟨a - base, by omega, by omega⟩
  · rintro ⟨j, hj, rfl⟩
    have hk : 0 < k := Nat.pos_of_mul_pos_left (Nat.zero_lt_of_lt hj)
    have hdiv := Nat.div_add_mod' j k
    have hmod := Nat.mod_lt j hk
    exact ⟨j / k, (Nat.div_lt_iff_lt_mul hk).2 hj, by omega, by omega⟩

/-- A row-driven operation accesses the bytes of its samples and those of its pixels, and no other (R54, R111). -/
theorem mem_rowAccesses {ibpp w h : Nat} {b : Buffers} {a : Nat} :
    a ∈ rowAccesses ibpp w h b ↔
      (∃ r j, r < h ∧ j < w * ibpp ∧ a = b.inBase.toNat + r * b.inStride.toNat + j) ∨
      ∃ r j, r < h ∧ j < 4 * w ∧ a = b.outBase.toNat + r * b.outStride.toNat + j := by
  simp only [rowAccesses, mem_concatBelow, List.mem_append, mem_bytesFrom, and_or_left, exists_or,
    Nat.mul_comm 4, exists_unit_iff, exists_and_left]

/-- `DSROT` accesses the first byte of every input pixel and every byte of its output rows, and no other (R126, R130). -/
theorem mem_downAccesses {b : Buffers} {a : Nat} :
    a ∈ downAccesses b ↔
      (inputFootprint .dsrot dsW dsH b).has a = true ∨ (outputFootprint .dsrot dsW dsH b).has a = true := by
  simp only [downAccesses, mem_concatBelow, List.mem_append, mem_bytesFrom, List.mem_cons, List.not_mem_nil, or_false]
  constructor
  · rintro ⟨yb, hy, xb, hx, htap | ⟨hlo, hhi⟩⟩
    · simp only [dsW, dsH] at hx hy
      rcases htap with rfl | rfl | rfl | rfl <;>
        exact .inl (inputFootprint_has_tap b (by simp only [dsW]; omega) (by simp only [dsH]; omega))
    · simp only [downPixelAddr] at hlo hhi
      exact .inr (outputFootprint_dsrot_has_iff.2 ⟨dsH / 2 - 1 - yb,
        a - (b.outBase.toNat + (dsH / 2 - 1 - yb) * b.outStride.toNat), by omega, by omega, by omega⟩)
  · rintro (hin | hout)
    · obtain ⟨r, c, hr, hc, rfl⟩ := inputFootprint_dsrot_has_iff.1 hin
      simp only [dsW, dsH] at hr hc ⊢
      obtain ⟨yb, hyb⟩ : ∃ yb, r = 2 * yb ∨ r = 2 * yb + 1 := ⟨r / 2, by omega⟩
      obtain ⟨xb, hxb⟩ : ∃ xb, c = 2 * xb ∨ c = 2 * xb + 1 := ⟨c / 2, by omega⟩
      refine ⟨yb, by omega, xb, by omega, .inl ?_⟩
      rcases hyb with rfl | rfl <;> rcases hxb with rfl | rfl <;> simp [tapAddr]
    · obtain ⟨yb, xb, i, hy, hx, hi, rfl⟩ := downPixel_of_outputFootprint_has hout
      exact ⟨yb, hy, xb, hx, .inr ⟨by omega, by omega⟩⟩

/-! ### The statements -/

/-- Settles O15: the two layouts by their numbers, every other register by its definition. -/
theorem readEffect : Obligations.ReadEffect := by
  intro s
  have hwide : ∀ {k : Nat} (x : BitVec k), k ≤ 32 → (x.setWidth 32).toNat = x.toNat := fun x hk =>
    BitVec.toNat_setWidth_of_le hk
  refine ⟨fun r => ⟨Laws.decodeBus_readAccess r, rfl⟩, rfl, ?status, rfl, hwide _ (by decide), hwide _ (by decide), rfl, rfl,
    rfl, rfl, hwide _ (by decide), ?diag, rfl, rfl, fun _ => rfl⟩
  case status =>
    rw [readReg, statusWord_toNat]
    cases s.result <;> rfl
  case diag =>
    rw [readReg, diagWord_toNat]
    cases s.log.lastCause <;> rfl

/-- Settles O21: the dispatch of R67, and the entry sequence of R141 for every row. -/
theorem unsupportedConversion : Obligations.UnsupportedConversion :=
  ⟨fun _ hp hcell => command_mem_noneRows hp hcell, fun _ hi s => exec_of_mem_noneRows hi s⟩

/-- Settles O22, by `exec_row_complete` for the depth pixel. -/
theorem depth16Completes : Obligations.Depth16Completes := by
  intro w h b sel s hd hf
  obtain ⟨m, hx, hpix, hout⟩ := exec_row_complete (i := .depth16 w h b sel) rfl nofun hd hf
  refine ⟨m, hx, fun r x hr hxw => ?_, hout⟩
  simp only [hpix r x hr hxw, pixelOf, tableEnsured, ensureDlut_cfg, Op.ibpp, Nat.mul_comm x]
  cases sel <;> rfl

/-- Settles O23, by `exec_row_complete` for the infrared pixel of a 16-bit sample. -/
theorem ir16Completes : Obligations.Ir16Completes := by
  intro w h b s hd hf
  obtain ⟨m, hx, hpix, hout⟩ := exec_row_complete (i := .ir16 w h b) rfl nofun hd hf
  refine ⟨m, hx, fun r x hr hxw => ?_, hout⟩
  simp only [hpix r x hr hxw, pixelOf, tableEnsured, ensureIlut_cfg, Op.ibpp, ir16Full, Nat.mul_comm x]

/-- Settles O24, by `exec_row_complete` for the infrared pixel of an 8-bit sample. -/
theorem ir8Completes : Obligations.Ir8Completes := by
  intro w h b s hd hf
  obtain ⟨m, hx, hpix, hout⟩ := exec_row_complete (i := .ir8 w h b) rfl nofun hd hf
  refine ⟨m, hx, fun r x hr hxw => ?_, hout⟩
  simp only [hpix r x hr hxw, pixelOf, tableEnsured, ensureIlut_cfg, Op.ibpp, ir8Full, Nat.mul_one, readLE_one]

/-- Settles O25: a copied pixel is the sample's four bytes, and byte `j` of a row span is byte `j % 4` of pixel `j / 4`. -/
theorem copyCompletes : Obligations.CopyCompletes := by
  intro w h b s hd hf
  obtain ⟨m, hx, hpix, hout⟩ := exec_row_complete (i := .copy w h b) rfl nofun hd hf
  refine ⟨m, hx, fun r j hr hj => ?_, hout⟩
  have hword := hpix r (j / 4) hr (by omega)
  rw [Nat.mul_comm (j / 4)] at hword
  have hbyte := get_eq_get_of_readLE_eq (Nat.mod_lt j (by decide : 4 > 0))
    (hword.trans ((BitVec.toNat_ofNat _ 32).trans (Nat.mod_eq_of_lt (readLE_lt _ _ 4))))
  simpa only [Op.ibpp, Nat.add_assoc, Nat.div_add_mod] using hbyte

/-- Settles O29: the footprints by `has_iff`, the accesses pixel by pixel. -/
theorem accessesAreTheFootprints : Obligations.AccessesAreTheFootprints := by
  refine ⟨fun p hp w h b a => ?rows, fun b a => ⟨inputFootprint_dsrot_has_iff, outputFootprint_dsrot_has_iff⟩,
    fun op w h b a hsize => ?accesses, fun w h b a op hop => ?noTransfer⟩
  case rows =>
    obtain ⟨hop, hnd, hibpp⟩ : (p.1 ≠ .null ∧ p.1 ≠ .none) ∧ p.1 ≠ .dsrot ∧ p.1.ibpp = p.2 := by
      revert p
      decide
    rw [← hibpp]
    exact ⟨inputFootprint_has_iff hop hnd, outputFootprint_has_iff hop hnd⟩
  case accesses =>
    cases op with
    | null | none => simp [accessesOf, inputFootprint, outputFootprint]
    | dsrot =>
      obtain ⟨rfl, rfl⟩ := hsize rfl
      exact mem_downAccesses
    | _ =>
      rw [inputFootprint_has_iff (by decide) (by decide), outputFootprint_has_iff (by decide) (by decide)]
      exact mem_rowAccesses
  case noTransfer =>
    simp only [List.mem_cons, List.not_mem_nil, or_false] at hop
    obtain rfl | rfl := hop <;> exact ⟨noFootprint_has a, noFootprint_has a⟩

/-- Settles O30: whatever the end, the tables are those of the ensured state. -/
theorem tablesBuiltOnce : Obligations.TablesBuiltOnce := by
  intro i s t h
  have hsame := exec_sameTables h
  rw [hsame.dlutReady, hsame.dlut, hsame.ilutReady, hsame.ilut]
  cases i with
  | depth16 => simp [tableEnsured]
  | ir16 | ir8 => simp [tableEnsured]
  | _ => exact ⟨by simp, by simp, fun _ => ⟨rfl, rfl⟩, fun _ => ⟨rfl, rfl⟩⟩

/-- Settles O31: an empty frame breaks no duty and moves nothing. -/
theorem emptyFramesComplete : Obligations.EmptyFramesComplete := by
  intro i op w h b s hi hempty
  have hduty :=
    hostDuties_of_empty (tableEnsured i s).cfg (inputFootprint_empty op hempty b) (outputFootprint_empty op hempty b)
  rw [exec_transfer hi, endTransfer_next]
  exact ⟨hduty, .inl ⟨_, moveOf_empty hi hempty _, rfl⟩⟩

/-- Settles O13: the write of each register by the lemma of its kind. -/
theorem writeEffect : Obligations.WriteEffect := by
  intro v s
  refine ⟨fun r => Laws.decodeBus_writeAccess r v, fun hv => ?ignored, fun hv hb => ?start, fun hv hb => ?dropped, ?status,
    fun hb r hctrl hstatus => exec_wr_busy hctrl hstatus v hb, fun hb => ?idle, ?readOnly⟩
  case ignored => exact congrArg Host.Outcome.next (if_neg (ne_true_of_eq_false hv))
  case start => exact ⟨s.started + 1, congrArg Host.Outcome.next ((if_pos hv).trans (if_neg (ne_true_of_eq_false hb)))⟩
  case dropped => exact congrArg Host.Outcome.next ((if_pos hv).trans (if_pos hb))
  case status => exact congrArg Host.Outcome.next (acknowledge_eq v s)
  case idle =>
    refine ⟨?_, ?_, ?_, ?_, ?_, ?_, ?_, ?_⟩ <;> exact exec_wr_idle (by decide) (by decide) v hb
  case readOnly =>
    refine ⟨?_, ?_, ?_, fun n => ?_⟩ <;> exact exec_wr_readOnly (by simp) (by simp) (fun _ => rfl) s

/-- Settles O20: PRESENT is bit 0 of `DESC0`, and `CVT.NULL` is the entry sequence of NULL. -/
theorem nullConversion : Obligations.NullConversion :=
  ⟨fun _ hd => command_absent (presentOf_eq_false_of_and hd), fun _ => rfl⟩

end Sys2Proof.Machine
end

section
/-! SUPPORT. The family DownsampleRotate: what `DSROT` leaves in memory, byte by byte (R126 to R129), and that premultiplied
palettes give premultiplied images (R15). -/

namespace Sys2Proof.Machine

/-! ### The grey of a block (R128, R129) -/

/-- The bytes of a stored Color are its channels, B first (R13, R94). -/
theorem get_of_readLE_eq_pack {m : Memory} {a : Nat} {c : Color} (h : readLE m a 4 = c.pack.toNat) :
    Memory.get m a = c.b ∧ Memory.get m (a + 1) = c.g ∧ Memory.get m (a + 2) = c.r ∧ Memory.get m (a + 3) = c.a := by
  have hbyte : ∀ (i : Nat) (x : Byte), i < 4 → c.pack.toNat / 256 ^ i % 256 = x.toNat → Memory.get m (a + i) = x :=
    fun i x hi hx => BitVec.eq_of_toNat_eq ((get_eq_readLE_div m hi).trans (h ▸ hx))
  have hpack := pack_toNat c
  have hr := c.r.isLt
  have hg := c.g.isLt
  have hb := c.b.isLt
  exact ⟨hbyte 0 c.b (by decide) (by omega), hbyte 1 c.g (by decide) (by omega), hbyte 2 c.r (by decide) (by omega),
    hbyte 3 c.a (by decide) (by omega)⟩

/-- Four bytes sum to at most 1020, so a quarter of the sum is a byte. -/
theorem tapSum_le (b : Buffers) (m : Memory) (xb yb : Nat) : tapSum b m xb yb ≤ 1020 := by
  have hbyte : ∀ x y, (Memory.get m (tapAddr b x y)).toNat < 256 := fun x y => (Memory.get m (tapAddr b x y)).isLt
  have h00 := hbyte (2 * xb) (2 * yb)
  have h10 := hbyte (2 * xb + 1) (2 * yb)
  have h01 := hbyte (2 * xb) (2 * yb + 1)
  have h11 := hbyte (2 * xb + 1) (2 * yb + 1)
  simp only [tapSum]
  omega

/-- The level of a grey, which its blue, green and red channels hold. -/
theorem greyLevel_toNat {sum : Nat} (h : sum ≤ 1020) : (BitVec.ofNat 8 (sum / 4)).toNat = sum / 4 :=
  (BitVec.toNat_ofNat _ 8).trans (Nat.mod_eq_of_lt (by omega))

/-- The four bytes of each output pixel of a completed `DSROT` (R126 to R129). -/
theorem downsampleRotate_bytes {cfg cfg' : Config} {b : Buffers} {m m' : Memory}
    (hduty : HostDuties cfg' (inputFootprint .dsrot dsW dsH b) (outputFootprint .dsrot dsW dsH b))
    (hrun : downsampleRotate cfg b m = .ok m') {yb xb : Nat} (hy : yb < dsH / 2) (hx : xb < dsW / 2) :
    let o := downPixelAddr b xb (dsH / 2 - 1 - yb)
    let g := tapSum b m xb yb / 4
    (Memory.get m' o).toNat = g ∧ (Memory.get m' (o + 1)).toNat = g ∧ (Memory.get m' (o + 2)).toNat = g ∧
      (Memory.get m' (o + 3)).toNat = 0xFF := by
  intro o g
  have hlevel := greyLevel_toNat (tapSum_le b m xb yb)
  obtain ⟨hb, hg, hr, ha⟩ := get_of_readLE_eq_pack (downsampleRotate_pixels hduty hrun hy hx)
  rw [hb, hg, hr, ha]
  exact ⟨hlevel, hlevel, hlevel, rfl⟩

/-! ### Premultiplied Colors (R15) -/

/-- A blend is monotonic in the values it blends. -/
theorem blend_mono {p q n r : Byte} (hpq : p.toNat ≤ q.toNat) (hnr : n.toNat ≤ r.toNat) {f : Weight} (hd : 0 < f.den)
    (h : f.num ≤ f.den) : (blend p n f).toNat ≤ (blend q r f).toNat := by
  rw [blend_toNat p n hd h, blend_toNat q r hd h]
  gcongr

theorem premultiplied_mix {c d : Color} (hc : Premultiplied c) (hcd : Premultiplied d) {f : Weight} (hd : 0 < f.den)
    (h : f.num ≤ f.den) : Premultiplied (mix c d f) := by
  obtain ⟨hcr, hcg, hcb⟩ := hc
  obtain ⟨hdr, hdg, hdb⟩ := hcd
  exact ⟨blend_mono hcr hdr hd h, blend_mono hcg hdg hd h, blend_mono hcb hdb hd h⟩

/-- Interpolating between premultiplied points yields a premultiplied Color, whatever the value. -/
theorem premultiplied_interpolateOver {entry : Nat → Color} {steps : Nat} (hs : 0 < steps)
    (hentry : ∀ k, k ≤ steps → Premultiplied (entry k)) {v : Ratio} (hv : 0 < v.den) :
    Premultiplied (interpolateOver entry steps v) := by
  have hcell : cellIndex steps (clamp01 v) < steps := cellIndex_lt hs
  exact premultiplied_mix (hentry _ hcell.le) (hentry _ hcell) hv (cellWeight_le (v := clamp01 v) hs hv (clamp01_le v))

theorem premultiplied_interpolate {p : Palette} (hp : ∀ i, i < p.size → Premultiplied (p.entry i)) {v : Ratio}
    (hv : 0 < v.den) : Premultiplied (interpolate p v) :=
  premultiplied_interpolateOver (palette_steps_pos p) (fun k hk => hp k (Nat.lt_succ_of_le hk)) hv

theorem premultiplied_getValue {g : Nat → Color} (hg : ∀ k, Premultiplied (g k)) {v : Ratio} (hv : 0 < v.den) :
    Premultiplied (getValue (buildTable g) v) :=
  premultiplied_interpolateOver (by decide)
    (fun k hk => tableEntry_buildTable g (Nat.lt_succ_of_le hk) ▸ hg k) hv

theorem premultiplied_greyOf {sum : Nat} (h : sum ≤ 1020) : Premultiplied (greyOf sum) := by
  have hle : (BitVec.ofNat 8 (sum / 4)).toNat ≤ 255 := by rw [greyLevel_toNat h]; omega
  exact ⟨hle, hle, hle⟩

/-- A depth pixel is the sentinel or a lookup, so it has every property both have (R95). -/
theorem depthPixel_of_getValue {P : Color → Prop} {cfg : Config} {T : List Color} (hinvalid : P cfg.invalidColor)
    {scale lo hi : Ratio} {raw : Nat} (hlookup : P (getValue T (depthAlpha scale lo hi raw))) :
    P (depthPixel cfg T scale lo hi raw) :=
  iteInduction (fun _ => hinvalid) (fun _ => hlookup)

/-- An infrared pixel is the sentinel or a lookup, so it has every property both have (R97, R99). -/
theorem infraredPixel_of_getValue {P : Color → Prop} {cfg : Config} {T : List Color} (hinvalid : P cfg.invalidColor)
    {full raw : Nat} (hlookup : P (getValue T (Ratio.over raw full))) : P (infraredPixel cfg T full raw) :=
  iteInduction (fun _ => hinvalid) (fun _ => hlookup)

/-! ### The statements -/

/-- Settles O26: the transfer completes by `exec_complete`, with the bytes of `downsampleRotate_bytes`. -/
theorem dsrotCompletes : Obligations.DsrotCompletes := by
  intro b s hduty hfail
  obtain ⟨m, hmove, hexec⟩ := exec_complete (i := .dsrot b) rfl hduty hfail
  have hrun : downsampleRotate s.cfg b s.mem = .ok m := hmove
  exact ⟨m, hexec, fun xb yb hx hy => downsampleRotate_bytes hduty hrun hy hx,
    moveOf_outside (by decide) (fun _ => ⟨rfl, rfl⟩) hduty hmove⟩

/-- Settles O56: blending is monotonic, so no channel of a lookup overtakes alpha, and a grey is opaque. -/
theorem imagesArePremultiplied : Obligations.ImagesArePremultiplied := by
  refine ⟨fun cfg hpalette hinvalid => ?images, fun sum hsum => ⟨premultiplied_greyOf hsum, greyLevel_toNat hsum⟩⟩
  have hdepth := fun k => premultiplied_interpolate hpalette (samplePoint_den_pos k)
  have hir := fun k => premultiplied_interpolate hpalette (gammaPoint_den_pos k)
  have hinfrared : ∀ full raw, 0 < full → Premultiplied (infraredPixel cfg (buildTable (genIr cfg.palette)) full raw) :=
    fun full raw hfull => infraredPixel_of_getValue hinvalid (premultiplied_getValue hir hfull)
  exact ⟨fun sel raw => depthPixel_of_getValue hinvalid (premultiplied_getValue hdepth (depthAlpha_den_pos sel raw)),
    fun raw => ⟨hinfrared 255 raw (by decide), hinfrared 65535 raw (by decide)⟩⟩

end Sys2Proof.Machine
end

section
/-! SUPPORT. The family Exceptions: what an idle turn leaves (R152), how a FAULT is taken (R136, R141, R142), which of the four
results a conversion reports (R133, R140), and that the log has no effect (R139, R143). -/

namespace Sys2Proof.Machine

/-! ### Idle turns -/

theorem nextTurn_engine_idle {s : State} (hg : nextAgent s = .engine) (hb : s.busy = false) :
    nextTurn s = .answer (.next (popSchedule s)) := by
  simp [nextTurn, hg, engineTurn, hb]

/-! ### The result a conversion reports -/

/-- The null command is the dispatch of an absent frame and of no other (R66, R134). -/
theorem decodeOp_eq_null_iff {d : Word} {w h : BitVec 16} : decodeOp d w h = .null ↔ presentOf d = false := by
  refine ⟨fun hop => ?_, fun hp => decodeOp_absent hp w h⟩
  by_contra hp
  rw [decodeOp, if_neg hp] at hop
  split_ifs at hop

/-- A conversion has ended with the result `r`. -/
structure EndedWith (r : Result) (t : State) : Prop where
  busy   : t.busy = false
  done   : t.done = true
  result : t.result = r

/-- A transfer whose host kept its duties ends in FAULT where some access fails, else in OK (R118, R136). -/
theorem exec_transfer_result {i : Instr} {op : Op} {w h : Nat} {b : Buffers} (hi : transferOf i = some (op, w, h, b))
    {s : State} (hd : HostDuties s.cfg (inputFootprint op w h b) (outputFootprint op w h b)) :
    ∃ t, exec i s = .next t ∧ EndedWith (if (firstFailing s.cfg op w h b).isSome then .fault else .ok) t := by
  cases hf : firstFailing s.cfg op w h b with
  | none =>
    obtain ⟨m, -, hx⟩ := exec_complete hi hd hf
    exact ⟨_, hx, rfl, rfl, rfl⟩
  | some a => exact ⟨_, exec_fault hi hd hf, rfl, rfl, rfl⟩

/-- The result of the latched command: the three tests of R133 and R140, in their order. -/
theorem exec_command_result {s : State} (hb : s.busy = true) (hl : LatchedOp s)
    (hd : HostDuties s.cfg s.inFootprint s.outFootprint) :
    ∃ t, exec s.command (popSchedule s) = .next t ∧
      EndedWith
        (if s.op = .null then .null
        else if s.op = .none then .unsupported
        else if (firstFailing s.cfg s.op s.desc.width.toNat s.desc.height.toNat s.desc.bufs).isSome then .fault
        else .ok) t := by
  by_cases hnull : s.op = .null
  · rw [if_pos hnull, State.command, hnull]
    exact ⟨_, rfl, rfl, rfl, rfl⟩
  rw [if_neg hnull]
  by_cases hnone : s.op = .none
  · rw [if_pos hnone, State.command, hnone]
    exact ⟨_, exec_of_mem_noneRows (noneCell_mem_noneRows _ _) _, rfl, rfl, rfl⟩
  rw [if_neg hnone]
  have hsize : s.op = .dsrot → s.desc.width.toNat = dsW ∧ s.desc.height.toNat = dsH := fun hop =>
    size_of_decodeOp_dsrot ((hl hb).symm.trans hop)
  exact exec_transfer_result (transferOf_commandOf hnull hnone hsize) (s := popSchedule s) hd

/-! ### What a FAULT leaves -/

@[simp] theorem tableEnsured_freeCount (i : Instr) (s : State) : (tableEnsured i s).freeCount = s.freeCount := by
  rcases tableEnsured_eq i s with h | h | h <;> simp [h]

/-! ### The log has no effect -/

/-- The state with another log. -/
def withLog (l : Log) (s : State) : State := { s with log := l }

@[simp] theorem withLog_cfg (l : Log) (s : State) : (withLog l s).cfg = s.cfg := rfl

/-- `t'` is `t` but for the log. -/
def SameButLog (t t' : State) : Prop := ∃ l, t' = withLog l t

theorem ensureDlut_withLog (l : Log) (s : State) : ensureDlut (withLog l s) = withLog l (ensureDlut s) := by
  rw [ensureDlut, ensureDlut, apply_ite (withLog l)]
  rfl

theorem ensureIlut_withLog (l : Log) (s : State) : ensureIlut (withLog l s) = withLog l (ensureIlut s) := by
  rw [ensureIlut, ensureIlut, apply_ite (withLog l)]
  rfl

/-- No table is built from the log, nor is it asked whether to build one (R110). -/
theorem tableEnsured_withLog (i : Instr) (l : Log) (s : State) :
    tableEnsured i (withLog l s) = withLog l (tableEnsured i s) := by
  cases i with
  | depth16 => exact ensureDlut_withLog l s
  | ir16 | ir8 => exact ensureIlut_withLog l s
  | _ => rfl

/-- No pixel is computed from the log. -/
theorem moveOf_withLog (i : Instr) (op : Op) (w h : Nat) (b : Buffers) (l : Log) (s : State) :
    moveOf i op w h b (withLog l s) = moveOf i op w h b s := by
  have hpix : pixelOf i (withLog l s) = pixelOf i s := by cases i <;> rfl
  rw [moveOf, hpix]
  rfl

/-- The entry sequence records what it records whatever was logged before (R139, R141). -/
theorem raiseCause_withLog (c : Cause) (l : Log) (s : State) :
    SameButLog (raiseCause c s) (raiseCause c (withLog l s)) := by
  cases c <;> exact ⟨_, rfl⟩

theorem exec_transfer_withLog {i : Instr} {x : Op × Nat × Nat × Buffers} (hi : transferOf i = some x) {s t : State}
    (h : exec i s = .next t) (l : Log) : ∃ t', exec i (withLog l s) = .next t' ∧ SameButLog t t' := by
  obtain ⟨op, w, hh, b⟩ := x
  rw [exec_transfer hi, endTransfer_next] at h
  simp only [exec_transfer hi, tableEnsured_withLog, moveOf_withLog, endTransfer_next, withLog_cfg]
  obtain ⟨hduty, ⟨m, hm, rfl⟩ | ⟨a, ha, rfl⟩⟩ := h
  · exact ⟨_, ⟨hduty, .inl ⟨m, hm, rfl⟩⟩, l, rfl⟩
  · exact ⟨_, ⟨hduty, .inr ⟨a, ha, rfl⟩⟩, raiseCause_withLog (.fault a) l (spoilOutput _ (tableEnsured i s))⟩

theorem writeReg_withLog (r : Reg) (v : Word) (l : Log) (s : State) :
    writeReg r v (withLog l s) = withLog l (writeReg r v s) := by
  cases r with
  | ctrl =>
    simp only [writeReg, writeCtrl, apply_ite (withLog l)]
    rfl
  | status => rfl
  | _ =>
    simp only [writeReg, apply_ite (withLog l)]
    rfl

/-- The registers that read the log (R31 to R33). -/
def logRegisters : List Reg := [.diag, .faultAddr, .logcnt]

theorem readReg_withLog {r : Reg} (hr : r ∉ logRegisters) (l : Log) (s : State) : readReg r (withLog l s) = readReg r s := by
  cases r with
  | diag | faultAddr | logcnt => simp [logRegisters] at hr
  | _ => rfl

/-- An instruction that reads no log register does the same with any other log (R139, R143). -/
theorem exec_withLog {i : Instr} (hread : ∀ r ∈ logRegisters, i ≠ .rd r) {s t : State} (h : exec i s = .next t)
    (l : Log) : ∃ t', exec i (withLog l s) = .next t' ∧ SameButLog t t' := by
  cases hi : transferOf i with
  | some x => exact exec_transfer_withLog hi h l
  | none =>
    by_cases hn : i ∈ noneRows
    · rw [exec_of_mem_noneRows hn] at h ⊢
      cases h
      exact ⟨_, rfl, raiseCause_withLog .unsupported l s⟩
    · cases i with
      | null => cases h; exact ⟨_, rfl, raiseCause_withLog .null l s⟩
      | wr r v => cases h; exact ⟨_, rfl, l, writeReg_withLog r v l s⟩
      | rd r =>
        cases h
        have hr : readReg r (withLog l s) = readReg r s := readReg_withLog (fun hmem => hread r hmem rfl) l s
        exact ⟨_, rfl, l, congrArg (fun v => { withLog l s with readData := v }) hr⟩
      | cvt | wait | ack => cases h; exact ⟨_, rfl, l, rfl⟩
      | depth16 | ir16 | ir8 | copy | dsrot => cases hi
      | _ => simp [noneRows] at hn

/-! ### The statements -/

/-- Settles O27, by `exec_fault`: `spoilOutput` changes no byte off the output footprint. -/
theorem transferFaults : Obligations.TransferFaults := by
  intro i op w h b s a hi hduty hfail
  refine ⟨(spoilOutput (outputFootprint op w h b) (tableEnsured i s)).mem, ?_, fun x hx => ?_⟩
  · rw [exec_fault hi hduty hfail, ← tableEnsured_freeCount i s, ← tableEnsured_log i s]
    rfl
  · rw [get_spoilOutput_outside (outputFootprint_step op w h b) hx, tableEnsured_mem]

/-- Settles O37: the latched operation is NULL exactly when PRESENT is 0, which is the first of the three tests. -/
theorem oneResultPerConversion : Obligations.OneResultPerConversion := by
  intro s hb hg hl hd
  obtain ⟨t, hx, ht⟩ := exec_command_result hb hl hd
  refine ⟨t, (step_of_nextTurn_run (nextTurn_engine_busy hg hb)).trans hx, ht.busy, ht.done, ht.result.trans ?_⟩
  have hnull : s.op = .null ↔ presentOf s.desc.desc0 = false := by rw [hl hb, decodeOp_eq_null_iff]
  simp only [hnull]

/-- Settles O39, by `exec_withLog`. -/
theorem logHasNoEffect : Obligations.LogHasNoEffect := by
  intro i s t l hi h
  have hread : ∀ r ∈ logRegisters, i ≠ .rd r := by
    rintro r hr rfl
    exact hi (List.mem_map_of_mem (f := Instr.rd) hr)
  obtain ⟨_, hx, l', rfl⟩ := exec_withLog hread h l
  exact ⟨l', hx⟩

/-- Settles O8: either turn answers the state with its turn taken off the schedule. -/
theorem idleTurnsChangeNothing : Obligations.IdleTurnsChangeNothing := by
  rintro s (⟨hg, hb⟩ | ⟨hg, hq⟩)
  · exact step_of_nextTurn_answer (nextTurn_engine_idle hg hb)
  · exact step_of_nextTurn_answer (nextTurn_host_nil hg hq)

end Sys2Proof.Machine
end

section
/-! SUPPORT. The family ResetAndHazards: what the external reset leaves of an idle and of a busy CRR (R153 to R155), what the
host's byte accesses of ordinary memory answer (R57, R159), and when a transfer is refused (R160, R161). -/

namespace Sys2Proof.Machine

/-! ### The external reset -/

/-- After a reset every register reads 0 (R39, R106). -/
theorem readReg_resetCrr (r : Reg) (s : State) : readReg r (resetCrr s) = 0#32 := by
  cases r with
  | status => simp [readReg, statusWord, Result.code]
  | diag => simp [readReg, diagWord, LogCause.code]
  | desc0 => exact BitVec.zero_and
  | _ => rfl

theorem applyReset_idle {s : State} (hb : s.busy = false) : applyReset s = .next (resetCrr s) :=
  if_neg (ne_true_of_eq_false hb)

/-- A reset abandons a conversion whose host kept its duties (R155). -/
theorem applyReset_busy {s : State} (hb : s.busy = true) (hd : HostDuties s.cfg s.inFootprint s.outFootprint) :
    applyReset s = .next (resetCrr (spoilOutput s.outFootprint s)) := by
  have hkept : dutyBreach s.cfg s.inFootprint s.outFootprint = none := dutyBreach_none.2 hd
  rw [applyReset, if_pos hb, hkept]

/-- On the host's turn a pending reset is applied to the state with the turn and the action taken off. -/
theorem step_reset {s : State} {rest : List HostEvent} (hg : nextAgent s = .host) (hq : s.hostQueue = .reset :: rest) :
    step s = applyReset (afterPop s rest) :=
  step_of_nextTurn_answer (nextTurn_host_cons hg hq)

/-! ### The host's byte accesses of ordinary memory -/

/-- No byte off the register file and the devices is barred to the host (R40, R53). -/
theorem hostAccessBar_ordinary {cfg : Config} {a : Nat}
    (hoff : ∀ base, cfg.regBase = some base → a < base ∨ base + 256 ≤ a) (hdev : ∀ r ∈ cfg.devices, r.has a = false) :
    hostAccessBar cfg a = none := by
  have hfile : ¬ (cfg.regBase.any fun base => (Range.mk base registerFileBytes).has a) = true := by
    rw [Option.any_eq_true]
    rintro ⟨base, hbase, hin⟩
    obtain ⟨hlo, hhi⟩ : base ≤ a ∧ a < base + 256 := range_has_iff.1 hin
    have hout := hoff base hbase
    omega
  have hany : ¬ (cfg.devices.any fun r => r.has a) = true := by
    rw [List.any_eq_true]
    rintro ⟨r, hr, hin⟩
    exact absurd hin (ne_true_of_eq_false (hdev r hr))
  rw [hostAccessBar, if_neg hfile, if_neg hany]

section
variable {a : Nat} {s : State} (hbar : hostAccessBar s.cfg a = none)
include hbar

/-- What a store to ordinary memory answers (R41, R57, R159). -/
theorem hostStore_ordinary (v : Byte) :
    hostStore a v s =
      if addrSpace ≤ a then .fault (.noSuchByte a)
      else if s.busy = true ∧ (s.inFootprint.has a = true ∨ s.outFootprint.has a = true) then
        .refused .bufferTouchedWhileBusy
      else .next { s with mem := Memory.set s.mem a v } := by
  simp only [hostStore, hbar, Bool.and_eq_true, Bool.or_eq_true]

/-- What a load from ordinary memory answers (R41, R57, R159). -/
theorem hostLoad_ordinary :
    hostLoad a s =
      if addrSpace ≤ a then .fault (.noSuchByte a)
      else if s.busy = true ∧ s.outFootprint.has a = true then .refused .bufferTouchedWhileBusy
      else .next { s with loadData := Memory.get s.mem a } := by
  simp only [hostLoad, hbar, Bool.and_eq_true]

end

/-! ### When a transfer is refused -/

/-- A broken duty is reported under the name of one of the three. -/
theorem mem_of_dutyBreach {cfg : Config} {f g : Footprint} {why : Refusal} (h : dutyBreach cfg f g = some why) :
    why ∈ [Refusal.strideBelowRowSpan, .footprintsOverlap, .footprintNotMemory] := by
  unfold dutyBreach at h
  split_ifs at h <;> cases h <;> decide

/-- A transfer answers exactly the refusal its buffers earn (U1, U2, U3). -/
theorem exec_transfer_refused {i : Instr} {op : Op} {w h : Nat} {b : Buffers} (hi : transferOf i = some (op, w, h, b))
    {s : State} {why : Refusal} :
    exec i s = .refused why ↔ dutyBreach s.cfg (inputFootprint op w h b) (outputFootprint op w h b) = some why := by
  rw [exec_transfer hi, endTransfer_refused, tableEnsured_cfg]

/-! ### The statements -/

/-- Settles O11, by `applyReset_idle` and what `resetCrr` keeps. -/
theorem resetWhileIdle : Obligations.ResetWhileIdle := by
  intro s rest hb hg hq
  exact ⟨resetCrr (afterPop s rest), (step_reset hg hq).trans (applyReset_idle hb), fun r => readReg_resetCrr r _,
    rfl, rfl, rfl, rfl, rfl, rfl, rfl⟩

/-- Settles O12, by `applyReset_busy`: `spoilOutput` changes no byte off the output footprint. -/
theorem resetWhileBusy : Obligations.ResetWhileBusy := by
  intro s rest hb hg hq hd
  refine ⟨resetCrr (spoilOutput s.outFootprint (afterPop s rest)), ?_, fun r => readReg_resetCrr r _,
    rfl, rfl, rfl, rfl, rfl, fun a ha => ?_⟩
  · exact (step_reset hg hq).trans (applyReset_busy (s := afterPop s rest) hb hd)
  · exact get_spoilOutput_outside (s := afterPop s rest) (outputFootprint_step _ _ _ _) ha

/-- Settles O19: off the register file and the devices no access is barred, and the guards of the four other answers are those
of `hostStore_ordinary` and `hostLoad_ordinary`. -/
theorem hostMemoryAccess : Obligations.HostMemoryAccess := by
  intro a v s hoff hdev
  have hbar := hostAccessBar_ordinary hoff hdev
  rw [hostStore_ordinary hbar, hostLoad_ordinary hbar]
  refine ⟨fun ha => ⟨if_pos ha, if_pos ha⟩, fun ha => ?_⟩
  have hbyte : ¬ addrSpace ≤ a := Nat.not_le.2 ha
  rw [if_neg hbyte, if_neg hbyte]
  refine ⟨fun hown => if_pos hown, fun hfree => ?store, fun hown => if_pos hown, fun hfree => ?load⟩
  case store =>
    have hguard : ¬ (s.busy = true ∧ (s.inFootprint.has a = true ∨ s.outFootprint.has a = true)) := by
      obtain hb | ⟨hin, hout⟩ := hfree
      · simp [hb]
      · simp [hin, hout]
    exact ⟨_, if_neg hguard, get_set_self _ _ _, fun x hx => get_set_of_ne _ _ _ hx⟩
  case load =>
    have hguard : ¬ (s.busy = true ∧ s.outFootprint.has a = true) := by
      obtain hb | hout := hfree
      · simp [hb]
      · simp [hout]
    exact if_neg hguard

/-- Settles O28: a refusal is a broken duty's, and `dutyBreach` names one exactly when some duty is broken. -/
theorem refusedExactlyOnMisuse : Obligations.RefusedExactlyOnMisuse := by
  intro i op w h b s hi
  simp only [exec_transfer_refused hi]
  refine ⟨?_, fun why hwhy => mem_of_dutyBreach hwhy⟩
  rw [← dutyBreach_none]
  exact Option.ne_none_iff_exists'

end Sys2Proof.Machine
end

section
/-! SUPPORT. The laws of the blend (R77, R80), the points both lookups go through (R82, R89, R90), the integer forms of the
lookup position (R92), and the reset state and the pseudo-instructions in the spec's own terms (R39, R73, R74). -/

namespace Sys2Proof.Machine

/-! ### The blend (R77, R78, R80) -/

theorem Weight.num_le_den_of_toRat_le_one {f : Weight} (hd : 0 < f.den) (h : f.toRat ≤ 1) : f.num ≤ f.den := by
  rw [Weight.toRat, div_le_one (by exact_mod_cast hd)] at h
  exact_mod_cast h

/-- Where the exact blend is the value of a byte, the blend is that byte. -/
theorem blend_eq_of_exact {p n c : Byte} {f : Weight} (hd : 0 < f.den) (h : f.num ≤ f.den)
    (hc : (p.toNat : ℚ) * (1 - f.toRat) + n.toNat * f.toRat = c.toNat) : blend p n f = c := by
  have hround := blendRounds p n f hd h
  rw [hc, floor_natCast_add_half] at hround
  exact BitVec.eq_of_toNat_eq (Int.ofNat_inj.1 hround)

/-- The blend depends on the rational weight alone, not on the fraction that writes it (R7). -/
theorem blend_congr (p n : Byte) {f g : Weight} (hf : 0 < f.den) (hfle : f.num ≤ f.den) (hg : 0 < g.den)
    (hgle : g.num ≤ g.den) (hfg : f.toRat = g.toRat) : blend p n f = blend p n g := by
  have hround := blendRounds p n f hf hfle
  rw [hfg, ← blendRounds p n g hg hgle] at hround
  exact BitVec.eq_of_toNat_eq (Int.ofNat_inj.1 hround)

theorem mix_congr (c d : Color) {f g : Weight} (hf : 0 < f.den) (hfle : f.num ≤ f.den) (hg : 0 < g.den)
    (hgle : g.num ≤ g.den) (hfg : f.toRat = g.toRat) : mix c d f = mix c d g := by
  simp only [mix, blend_congr _ _ hf hfle hg hgle hfg]

theorem abs_blend_sub_exact_le (p n : Byte) {f : Weight} (hd : 0 < f.den) (h : f.num ≤ f.den) :
    |((blend p n f).toNat : ℚ) - ((p.toNat : ℚ) * (1 - f.toRat) + (n.toNat : ℚ) * f.toRat)| ≤ 1 := by
  set x : ℚ := (p.toNat : ℚ) * (1 - f.toRat) + (n.toNat : ℚ) * f.toRat
  have hround : ((blend p n f).toNat : ℚ) = ⌊x + 1 / 2⌋ := by exact_mod_cast blendRounds p n f hd h
  have hlo := Int.floor_le (x + 1 / 2)
  have hhi := Int.lt_floor_add_one (x + 1 / 2)
  rw [hround, abs_le]
  constructor <;> linarith

/-- No overshoot (R77 (b)): the blend of two values lies where the blends of either with itself do. -/
theorem blend_between (p n : Byte) {f : Weight} (hd : 0 < f.den) (h : f.num ≤ f.den) :
    min p.toNat n.toNat ≤ (blend p n f).toNat ∧ (blend p n f).toNat ≤ max p.toNat n.toNat := by
  have hp := congrArg BitVec.toNat (blend_self p hd h)
  have hn := congrArg BitVec.toNat (blend_self n hd h)
  rcases le_total p.toNat n.toNat with hle | hle
  · rw [min_eq_left hle, max_eq_right hle]
    exact ⟨hp.ge.trans (blend_mono le_rfl hle hd h), (blend_mono hle le_rfl hd h).trans hn.le⟩
  · rw [min_eq_right hle, max_eq_left hle]
    exact ⟨hn.ge.trans (blend_mono hle le_rfl hd h), (blend_mono le_rfl hle hd h).trans hp.le⟩

theorem blend_of_num_eq_zero (p n : Byte) {f : Weight} (hd : 0 < f.den) (h : f.num = 0) : blend p n f = p :=
  blend_eq_of_exact hd (h ▸ Nat.zero_le _) (by simp [Weight.toRat, h])

theorem blend_of_num_eq_den (p n : Byte) {f : Weight} (hd : 0 < f.den) (h : f.num = f.den) : blend p n f = n := by
  have hone : f.toRat = 1 := by rw [Weight.toRat, h, div_self (by exact_mod_cast hd.ne')]
  exact blend_eq_of_exact hd h.le (by rw [hone]; ring)

/-- The exact blend is `p + (n - p) * f`: the weight that moves it further moves the blend no less far (R80 (c)). -/
theorem blend_le_of_exact_le {p n : Byte} {f g : Weight} (hf : 0 < f.den) (hfle : f.num ≤ f.den) (hg : 0 < g.den)
    (hgle : g.num ≤ g.den) (hle : ((n.toNat : ℚ) - p.toNat) * f.toRat ≤ ((n.toNat : ℚ) - p.toNat) * g.toRat) :
    (blend p n f).toNat ≤ (blend p n g).toNat := by
  refine Int.ofNat_le.1 ?_
  rw [blendRounds p n f hf hfle, blendRounds p n g hg hgle]
  refine Int.floor_le_floor ?_
  linarith

/-- The two values change places with the weight's complement (R80 (e)). -/
theorem blend_symm (p n : Byte) {f : Weight} (h : f.num ≤ f.den) : blend p n f = blend n p ⟨f.den - f.num, f.den⟩ := by
  simp only [blend, Nat.sub_sub_self h, Nat.add_comm]

/-! ### Interpolation at its points (R82, R89, R90) -/

section
variable (entry : ℕ → Color) {steps : ℕ} (hs : 0 < steps) {value : Ratio} (hd : 0 < value.den)
include hs hd

theorem interpolateOver_of_toRat_nonpos (h : value.toRat ≤ 0) : interpolateOver entry steps value = entry 0 :=
  interpolateOver_at_point entry hs hd (Nat.zero_le _) (by simp [min_le_of_left_le h])

theorem interpolateOver_of_one_le_toRat (h : 1 ≤ value.toRat) : interpolateOver entry steps value = entry steps :=
  interpolateOver_at_point entry hs hd le_rfl (by simp [min_eq_right h])

theorem interpolateOver_of_toRat_eq_div {k : ℕ} (hk : k ≤ steps) (h : value.toRat = (k : ℚ) / steps) :
    interpolateOver entry steps value = entry k := by
  have hq : (0 : ℚ) < steps := by exact_mod_cast hs
  have hle : (k : ℚ) / steps ≤ 1 := (div_le_one hq).2 (by exact_mod_cast hk)
  refine interpolateOver_at_point entry hs hd hk ?_
  rw [h, min_eq_left hle, max_eq_right (by positivity), div_mul_cancel₀ _ hq.ne']

/-- A value of cell `k`, its upper point left out, is interpolated between the points `k` and `k + 1`, never past either. -/
theorem interpolateOver_between {k : ℕ} (hk : k < steps) (hlo : (k : ℚ) / steps ≤ value.toRat)
    (hhi : value.toRat < ((k : ℚ) + 1) / steps) {ch : Color → Byte} (hch : ch ∈ channels) :
    min (ch (entry k)).toNat (ch (entry (k + 1))).toNat ≤ (ch (interpolateOver entry steps value)).toNat ∧
      (ch (interpolateOver entry steps value)).toNat ≤ max (ch (entry k)).toNat (ch (entry (k + 1))).toNat := by
  have hq : (0 : ℚ) < steps := by exact_mod_cast hs
  have hk1 : ((k : ℚ) + 1) / steps ≤ 1 := (div_le_one hq).2 (by exact_mod_cast hk)
  have hclamp : (clamp01 value).toRat = value.toRat := by
    rw [clamp01_toRat hd, min_eq_left (hhi.le.trans hk1), max_eq_right (le_trans (by positivity) hlo)]
  have hfloor : ⌊value.toRat * steps⌋₊ = k :=
    (Nat.floor_eq_iff (mul_nonneg (le_trans (by positivity) hlo) hq.le)).2 ⟨(div_le_iff₀ hq).1 hlo, (lt_div_iff₀ hq).1 hhi⟩
  have hcell : cellIndex steps (clamp01 value) = k := by
    rw [cellIndex_eq, hclamp, hfloor, min_eq_left (Nat.le_sub_one_of_lt hk)]
  have hweight := cellWeight_le (v := clamp01 value) hs hd (clamp01_le value)
  rw [interpolateOver, mix_channel hch, hcell]
  exact blend_between _ _ hd hweight

/-! ### The position in integers (R92) -/

/-- Where the clamped value stands at `n / d` points, cell and weight are the integer quotient and what it leaves. -/
theorem interpolateOver_eq_mix {n d : ℕ} (hden : 0 < d) (h : max 0 (min value.toRat 1) * steps = (n : ℚ) / d) :
    interpolateOver entry steps value =
      mix (entry (min (n / d) (steps - 1))) (entry (min (n / d) (steps - 1) + 1)) ⟨n - min (n / d) (steps - 1) * d, d⟩ := by
  have hq : (d : ℚ) ≠ 0 := by exact_mod_cast hden.ne'
  have hscaled : (clamp01 value).toRat * steps = (n : ℚ) / d := by rw [clamp01_toRat hd, h]
  have hcell : cellIndex steps (clamp01 value) = min (n / d) (steps - 1) := by
    rw [cellIndex_eq, hscaled, Nat.floor_div_eq_div]
  have hle : min (n / d) (steps - 1) * d ≤ n :=
    (Nat.mul_le_mul_right _ (Nat.min_le_left _ _)).trans (Nat.div_mul_le_self n d)
  have hweight : (cellWeight steps (clamp01 value)).toRat = Weight.toRat ⟨n - min (n / d) (steps - 1) * d, d⟩ := by
    rw [cellWeight_toRat hd, hscaled, hcell, Weight.toRat, Nat.cast_sub hle, Nat.cast_mul, sub_div, mul_div_cancel_right₀ _ hq]
  have hcellLe := cellWeight_le (v := clamp01 value) hs hd (clamp01_le value)
  rw [interpolateOver, hcell]
  exact mix_congr _ _ hd hcellLe hden
    (Weight.num_le_den_of_toRat_le_one hden (hweight ▸ Weight.toRat_le_one hd hcellLe)) hweight

end

/-- The lookup of a value that stands at `n / d` samples, in the integers of R92. -/
theorem getValue_eq_mix (T : List Color) {value : Ratio} (hd : 0 < value.den) {n d : ℕ} (hden : 0 < d)
    (h : max 0 (min value.toRat 1) * 1023 = (n : ℚ) / d) :
    getValue T value =
      mix (tableEntry T (min (n / d) 1022)) (tableEntry T (min (n / d) 1022 + 1)) ⟨n - min (n / d) 1022 * d, d⟩ :=
  interpolateOver_eq_mix (tableEntry T) (steps := 1023) (by decide) hd hden h

/-- A fraction of naturals not above 1 is its own clamped value (R8). -/
theorem clamp_over {n d : ℕ} (hd : 0 < d) (h : n ≤ d) : max 0 (min (Ratio.over n d).toRat 1) = (n : ℚ) / d := by
  have hle : (n : ℚ) / d ≤ 1 := (div_le_one (by exact_mod_cast hd)).2 (by exact_mod_cast h)
  rw [over_toRat, min_eq_left hle, max_eq_right (by positivity)]

/-- `getValue_eq_mix` for a sample not above its full scale. -/
theorem getValue_over_eq_mix (T : List Color) {raw full n d : ℕ} (hfull : 0 < full) (hraw : raw ≤ full) (hden : 0 < d)
    (h : (raw : ℚ) / full * 1023 = (n : ℚ) / d) :
    getValue T (Ratio.over raw full) =
      mix (tableEntry T (min (n / d) 1022)) (tableEntry T (min (n / d) 1022 + 1)) ⟨n - min (n / d) 1022 * d, d⟩ :=
  getValue_eq_mix T hfull hden (by rw [clamp_over hfull hraw, h])

/-- The position of a sample in a range, clamped, is that of the sample clamped to the range: the subtraction of natural numbers
clamps at the lower end, the minimum at the upper (R92). -/
theorem clamp_position {lo hi : ℕ} (h : lo < hi) (raw : ℕ) :
    max 0 (min (((raw : ℚ) - lo) / (hi - lo)) 1) = ((min (raw - lo) (hi - lo) : ℕ) : ℚ) / (hi - lo : ℕ) := by
  have hwidth : (0 : ℚ) < (hi - lo : ℕ) := by exact_mod_cast Nat.sub_pos_of_lt h
  rw [← Nat.cast_sub h.le]
  rcases le_total raw lo with hbelow | habove
  · have hneg : ((raw : ℚ) - lo) / (hi - lo : ℕ) ≤ 0 :=
      div_nonpos_of_nonpos_of_nonneg (sub_nonpos.2 (by exact_mod_cast hbelow)) hwidth.le
    rw [max_eq_left (min_le_of_left_le hneg), Nat.sub_eq_zero_of_le hbelow, Nat.zero_min, Nat.cast_zero, zero_div]
  · rw [← Nat.cast_sub habove, ← div_self hwidth.ne', min_div_div_right hwidth.le, max_eq_right (by positivity), Nat.cast_min]

/-! ### The ends of the built tables (R84, R85) -/

section
variable (p : Palette)

theorem genDepth_zero : genDepth p 0 = p.entry 0 :=
  interpolateOver_of_toRat_nonpos p.entry (palette_steps_pos p) (samplePoint_den_pos 0) (by norm_num [samplePoint_toRat])

theorem genDepth_last : genDepth p 1023 = p.entry (p.size - 1) :=
  interpolateOver_of_one_le_toRat p.entry (palette_steps_pos p) (samplePoint_den_pos 1023) (by norm_num [samplePoint_toRat])

theorem genIr_zero : genIr p 0 = p.entry (p.size - 1) :=
  interpolateOver_of_one_le_toRat p.entry (palette_steps_pos p) (gammaPoint_den_pos 0)
    (by rw [gammaPoint_toRat (by decide)]; norm_num)

theorem genIr_last : genIr p 1023 = p.entry 0 :=
  interpolateOver_of_toRat_nonpos p.entry (palette_steps_pos p) (gammaPoint_den_pos 1023)
    (by rw [gammaPoint_toRat (by decide)]; norm_num)

end

/-! ### `CVT`'s opcode word (R60, R73) -/

/-- The kinds with their codes (R24). -/
def kindCodes : List (Kind × Word) := [(.color, 0), (.depth, 1), (.infrared, 2), (.other, 3)]

/-- The formats with their codes (R24). -/
def fmtCodes : List (Fmt × Word) := [(.bgra8, 0), (.gray8, 1), (.gray16, 2), (.other, 3)]

/-- The opcode word as R73 puts it together. -/
theorem desc0Word_eq_or : ∀ k ∈ kindCodes, ∀ f ∈ fmtCodes, ∀ absent : Bool,
    desc0Word (!absent) k.1 f.1 = (if absent then 0#32 else 1#32) ||| k.2 <<< 2 ||| f.2 <<< 4 := by
  decide

/-! ### The statements -/

/-- Settles O44: (a) by rounding, (b) by monotony, (c) at the two weights, (d) channel by channel. -/
theorem blendProperties : Obligations.BlendProperties := by
  refine ⟨fun p n f hd h => ?_, fun c d f ch hch => mix_channel hch c d f⟩
  obtain ⟨hmin, hmax⟩ := blend_between p n hd h
  exact ⟨abs_blend_sub_exact_le p n hd h, hmin, hmax, blend_of_num_eq_zero p n hd, blend_of_num_eq_den p n hd⟩

/-- Settles O45: the exact blend moves with the weight in the direction of `n - p`. -/
theorem blendLaws : Obligations.BlendLaws := by
  refine ⟨fun p n p' n' f hd h hp hn => blend_mono hp hn hd h, fun p n f g hf hfle hg hgle hfg => ⟨fun hpn => ?up, fun hnp => ?down⟩,
    fun p n f _ h => blend_symm p n h⟩
  case up =>
    have hsign : (0 : ℚ) ≤ (n.toNat : ℚ) - p.toNat := sub_nonneg.2 (by exact_mod_cast hpn)
    exact blend_le_of_exact_le hf hfle hg hgle (mul_le_mul_of_nonneg_left hfg hsign)
  case down =>
    have hsign : (n.toNat : ℚ) - p.toNat ≤ 0 := sub_nonpos.2 (by exact_mod_cast hnp)
    exact blend_le_of_exact_le hg hgle hf hfle (mul_le_mul_of_nonpos_left hfg hsign)

/-- Settles O47: the palette's points stand at `P - 1` equal steps. -/
theorem interpolateAtPalettePoints : Obligations.InterpolateAtPalettePoints := by
  intro p value hd
  have hs := palette_steps_pos p
  have hsteps : ((p.size - 1 : ℕ) : ℚ) = (p.size : ℚ) - 1 := Nat.cast_pred (Nat.succ_pos _)
  refine ⟨interpolateOver_of_toRat_nonpos p.entry hs hd, interpolateOver_of_one_le_toRat p.entry hs hd, fun i hi hpoint => ?_⟩
  exact interpolateOver_of_toRat_eq_div p.entry hs hd (Nat.le_sub_one_of_lt hi) (hpoint.trans (by rw [hsteps]))

/-- Settles O49: the upper point of a cell is a sample point, every other value of it is a blend of the cell's two entries. -/
theorem getValueAtSamplePoints : Obligations.GetValueAtSamplePoints := by
  intro T value hd
  have hpoint : ∀ k : ℕ, k ≤ 1023 → value.toRat = (k : ℚ) / 1023 → getValue T value = tableEntry T k :=
    fun k => interpolateOver_of_toRat_eq_div (tableEntry T) (steps := 1023) (by decide) hd
  refine ⟨getValue_of_toRat_nonpos T hd, getValue_of_one_le_toRat T hd, hpoint, fun k hk hlo hhi ch hch => ?_⟩
  rcases hhi.lt_or_eq with hlt | heq
  · exact interpolateOver_between (tableEntry T) (steps := 1023) (by decide) hd hk hlo hlt hch
  · rw [hpoint (k + 1) hk (by rw [heq, Nat.cast_succ])]
    exact ⟨min_le_right _ _, le_max_right _ _⟩

/-- Settles O51: the lookup shows the table's ends, which are the generators' and so the palette's. -/
theorem lookupEnds : Obligations.LookupEnds := by
  intro p value hd
  refine ⟨fun hzero => ?_, fun hone => ?_⟩
  · simp only [getValue_of_toRat_nonpos _ hd hzero.le, tableEntry_buildTable _ (show 0 < tableSize by decide)]
    exact ⟨genDepth_zero p, genIr_zero p⟩
  · simp only [getValue_of_one_le_toRat _ hd hone.ge, tableEntry_buildTable _ (show 1023 < tableSize by decide)]
    exact ⟨genDepth_last p, genIr_last p⟩

/-- Settles O52, by `getValue_eq_mix`: 1023 = 3 * 341, 255 = 3 * 85, 65535 = 3 * 21845, and the preset's range in raw units. -/
theorem integerForms : Obligations.IntegerForms := by
  intro T raw
  refine ⟨fun _ hraw => ?ir8, fun _ hraw => ?ir16, fun p hp _ _ => ?depth16⟩
  case ir8 => exact getValue_over_eq_mix T (by decide) hraw (by decide) (by push_cast; ring)
  case ir16 => exact getValue_over_eq_mix T (by decide) hraw (by decide) (by push_cast; ring)
  case depth16 =>
    have hlt := presetRanges_lt hp
    refine getValue_eq_mix T (depthAlpha_den_pos p.1 raw) (Nat.sub_pos_of_lt hlt) ?_
    rw [depthAlpha_toRat_presetRanges hp, clamp_position hlt, Nat.cast_mul, Nat.cast_ofNat, div_mul_eq_mul_div]

/-- Settles O16: the queued accesses are R73's, the first with the opcode word of `desc0Word_eq_or`. -/
theorem cvtExpands : Obligations.CvtExpands := by
  intro k hk f hf w h b profile absent s
  rw [← desc0Word_eq_or k hk f hf absent]
  cases profile with
  | none => rfl
  | some p => cases p <;> rfl

/-- Settles O18: the queue of `WAIT` is its branch on BUSY, and `ACK`'s word has the bits of DONE and DROPPED. -/
theorem waitAndAck : Obligations.WaitAndAck := by
  intro s
  refine ⟨fun hb => ?busy, fun hb => ?idle, congrArg Host.Outcome.next (acknowledge_eq ackWord s)⟩
  case busy =>
    exact congrArg (fun q => Host.Outcome.next { s with readData := statusWord s, hostQueue := q }) (if_pos hb)
  case idle =>
    exact congrArg (fun q => Host.Outcome.next { s with readData := statusWord s, hostQueue := q }) (if_neg (ne_true_of_eq_false hb))

/-- Settles O32: the state after reset is what a reset leaves of it, with its empty memory. -/
theorem resetIsLegal : Obligations.ResetIsLegal := legal_resetCrr (s := State.reset) rfl

/-- Settles O10, by `readReg_resetCrr`: the state after reset is what a reset leaves of it. -/
theorem resetState : Obligations.ResetState := by
  refine ⟨fun r => ?_, rfl, rfl, rfl, rfl⟩
  exact congrArg (fun v => Host.Outcome.next { State.reset with readData := v }) (readReg_resetCrr r State.reset)

end Sys2Proof.Machine
end
